-- ==== Sys2Proof/Word.lean ====
section
/-! DEFINITION. The types of RDN-CORE's values: words, register indices, field elements, scalars, tags
and the typed coordinate forms of a point (10_state.md R31 to R38). -/

namespace Sys2Proof

/-- A 32-bit word: a command, a control or status register, the data of one host transaction (R71, R100). -/
abbrev Word := BitVec 32

/-- A byte. -/
abbrev Byte := BitVec 8

/-- A byte offset in the 12-bit host register window (20_memory.md R70). -/
abbrev Offset := BitVec 12

/-- The index of a register in one of the four files: 0 to 15, all legal (30_encoding.md R102). -/
abbrev Reg := Fin 16

/-- The raw 4-bit content of field c where it holds the BUF half selector h; only 0 and 1 are legal
(30_encoding.md R104), and the command that reads it checks that. -/
abbrev HalfField := Fin 16

/-- The field modulus p = 2^255 − 19 (00_scope.md R3, 41_field.md R150). -/
def fieldP : Nat := 0x7fffffffffffffffffffffffffffffffffffffffffffffffffffffffffffffed

/-- The group order ℓ (00_scope.md R3, 42_scalar.md R200). -/
def groupL : Nat := 0x1000000000000000000000000000000014def9dea2f79cd65812631a5cf5d3ed

/-- The bound 2^255 of a scalar register (10_state.md R33). -/
def scalarBound : Nat := 2 ^ 255

/-- A field element, as its representative in [0, p) (10_state.md R31). -/
abbrev Fe := Fin fieldP

/-- The content of a scalar register: an integer in [0, 2^255), canonical or not (10_state.md R33, R34). -/
abbrev Scalar := Fin scalarBound

/-- The representation a point register holds (10_state.md R37). -/
inductive Tag where
  | ext
  | proj
  | comp
  | pn
  | an
deriving DecidableEq, Repr

/-- The content of a point register: a tag and four slots (10_state.md R36). -/
structure Point where
  tag : Tag
  s0 : Fe
  s1 : Fe
  s2 : Fe
  s3 : Fe
deriving DecidableEq, Repr

/-- The four slots of an EXT value, named as in R37. -/
structure Ext where
  X : Fe
  Y : Fe
  Z : Fe
  T : Fe
deriving DecidableEq, Repr

/-- The three used slots of a PROJ value (R37). -/
structure Proj where
  X : Fe
  Y : Fe
  Z : Fe
deriving DecidableEq, Repr

/-- The four slots of a COMP value (R37). -/
structure Comp where
  X : Fe
  Y : Fe
  Z : Fe
  T : Fe
deriving DecidableEq, Repr

/-- The four slots of a PN value: Y+X, Y−X, Z, 2d·T (R37). -/
structure Pn where
  ypx : Fe
  ymx : Fe
  Z : Fe
  t2d : Fe
deriving DecidableEq, Repr

/-- The three used slots of an AN value: y+x, y−x, 2d·x·y (R37). -/
structure An where
  ypx : Fe
  ymx : Fe
  xy2d : Fe
deriving DecidableEq, Repr

end Sys2Proof
end

