-- ==== Sys2Proof/Syntax.lean ====
section
/-! DEFINITION. The syntax of the RDN-CORE command set: one constructor per row of the opcode map
(30_encoding.md R107), each with the fields its row uses, in the order d, a, b, c, imm. A field that holds a
half selector, a t8 or an immediate is kept as encoded, since its range check is part of executing the command
(60_exceptions.md R374: FIELD, TAG, then INDEX and EXPONENT). -/

namespace Sys2Proof

/-- A command. -/
inductive Instr where
  /- Constant-time primitives (40_ctprim.md) -/
  /-- NOP (R131): no operation. -/
  | nop
  /-- K_SET (R132): K[d] ← imm (0 or 1). -/
  | kSet (d : Reg) (imm : Byte)
  /-- K_NOT (R133): K[d] ← complement of K[a]. -/
  | kNot (d a : Reg)
  /-- K_AND (R134): K[d] ← K[a] AND K[b]. -/
  | kAnd (d a b : Reg)
  /-- K_OR (R135): K[d] ← K[a] OR K[b]. -/
  | kOr (d a b : Reg)
  /-- K_XOR (R136): K[d] ← K[a] XOR K[b]. -/
  | kXor (d a b : Reg)
  /-- BUF_EQ (R137): K[d] ← whether the two halves of BUF are equal. -/
  | bufEq (d : Reg)
  /-- BUF_BIT (R138): K[d] ← bit imm of half h of BUF. -/
  | bufBit (d : Reg) (h : HalfField) (imm : Byte)
  /- Field element arithmetic (41_field.md) -/
  /-- FE_LOAD (R162): F[d] ← the field element in half h of BUF. -/
  | feLoad (d : Reg) (h : HalfField)
  /-- FE_STORE (R163): half h of BUF ← canonical encoding of F[a]. -/
  | feStore (a : Reg) (h : HalfField)
  /-- FE_MOV (R164): F[d] ← F[a]. -/
  | feMov (d a : Reg)
  /-- FE_CONST (R165): F[d] ← field constant imm. -/
  | feConst (d : Reg) (imm : Byte)
  /-- FE_ADD (R166): F[d] ← F[a] + F[b]. -/
  | feAdd (d a b : Reg)
  /-- FE_SUB (R167): F[d] ← F[a] − F[b]. -/
  | feSub (d a b : Reg)
  /-- FE_NEG (R168): F[d] ← −F[a]. -/
  | feNeg (d a : Reg)
  /-- FE_MUL (R169): F[d] ← F[a]·F[b]. -/
  | feMul (d a b : Reg)
  /-- FE_SQ (R170): F[d] ← F[a]². -/
  | feSq (d a : Reg)
  /-- FE_SQ2 (R171): F[d] ← 2·F[a]². -/
  | feSq2 (d a : Reg)
  /-- FE_INV (R172): F[d] ← F[a]^(p−2). -/
  | feInv (d a : Reg)
  /-- FE_POWP58 (R174): F[d] ← F[a]^((p−5)/8). -/
  | fePowp58 (d a : Reg)
  /-- FE_SEL (R175): F[d] ← F[b] if K[c] = 1, else F[a]. -/
  | feSel (d a b c : Reg)
  /-- FE_ISNEG (R176): K[d] ← whether F[a] is negative. -/
  | feIsneg (d a : Reg)
  /-- FE_ISZERO (R177): K[d] ← whether F[a] is 0. -/
  | feIszero (d a : Reg)
  /-- FE_EQ (R178): K[d] ← whether F[a] = F[b]. -/
  | feEq (d a b : Reg)
  /-- FE_CTABS (R179): F[d] ← the non-negative one of ±F[a]. -/
  | feCtabs (d a : Reg)
  /-- FE_SQRTRATIO (R182): F[d], K[c] ← square root of F[a]/F[b] and whether it was square. -/
  | feSqrtratio (d a b c : Reg)
  /- Scalar arithmetic (42_scalar.md) -/
  /-- SC_LOAD (R211): S[d] ← the canonical scalar in half h of BUF. -/
  | scLoad (d : Reg) (h : HalfField)
  /-- SC_LOADBITS (R213): S[d] ← half h of BUF with bit 255 cleared. -/
  | scLoadbits (d : Reg) (h : HalfField)
  /-- SC_LOADWIDE (R212): S[d] ← the 64 bytes of BUF mod ℓ. -/
  | scLoadwide (d : Reg)
  /-- SC_STORE (R214): half h of BUF ← S[a]. -/
  | scStore (a : Reg) (h : HalfField)
  /-- SC_MOV (R215): S[d] ← S[a]. -/
  | scMov (d a : Reg)
  /-- SC_CONST (R216): S[d] ← scalar constant imm. -/
  | scConst (d : Reg) (imm : Byte)
  /-- SC_ADD (R217): S[d] ← S[a] + S[b] mod ℓ. -/
  | scAdd (d a b : Reg)
  /-- SC_SUB (R218): S[d] ← S[a] − S[b] mod ℓ. -/
  | scSub (d a b : Reg)
  /-- SC_MUL (R219): S[d] ← S[a]·S[b] mod ℓ. -/
  | scMul (d a b : Reg)
  /-- SC_MULADD (R220): S[d] ← S[a]·S[b] + S[c] mod ℓ. -/
  | scMuladd (d a b c : Reg)
  /-- SC_REDUCE (R221): S[d] ← S[a] mod ℓ. -/
  | scReduce (d a : Reg)
  /-- SC_MONTMUL (R226): S[d] ← S[a]·S[b]·R⁻¹ mod ℓ. -/
  | scMontmul (d a b : Reg)
  /-- SC_RADIX16 (R222): DIG ← signed radix-16 digits of S[a]. -/
  | scRadix16 (a : Reg)
  /-- SC_NAF5 (R224): DIG ← width-5 NAF of S[a]. -/
  | scNaf5 (a : Reg)
  /-- SC_EQ (R227): K[d] ← whether S[a] = S[b] as integers. -/
  | scEq (d a b : Reg)
  /- Points and the group law (43_point.md) -/
  /-- PT_CONST (R240): P[d] ← point constant imm. -/
  | ptConst (d : Reg) (imm : Byte)
  /-- PT_MOV (R241): P[d] ← P[a]. -/
  | ptMov (d a : Reg)
  /-- PT_GET (R242): F[d] ← slot imm of P[a]. -/
  | ptGet (d a : Reg) (imm : Byte)
  /-- PT_SET (R243): slot imm of P[d] ← F[a]. -/
  | ptSet (d a : Reg) (imm : Byte)
  /-- PT_SETTAG (R244): tag of P[d] ← imm. -/
  | ptSettag (d : Reg) (imm : Byte)
  /-- PT_SEL (R245): P[d] ← P[b] if K[c] = 1, else P[a]. -/
  | ptSel (d a b c : Reg)
  /-- PT_NEG (R246): P[d] ← −P[a]. -/
  | ptNeg (d a : Reg)
  /-- EXT_TO_PROJ (R247): extended to projective. -/
  | extToProj (d a : Reg)
  /-- EXT_TO_PN (R248): extended to projective Niels. -/
  | extToPn (d a : Reg)
  /-- EXT_TO_AN (R249): extended to affine Niels. -/
  | extToAn (d a : Reg)
  /-- PROJ_TO_EXT (R250): projective to extended. -/
  | projToExt (d a : Reg)
  /-- COMP_TO_PROJ (R251): completed to projective. -/
  | compToProj (d a : Reg)
  /-- COMP_TO_EXT (R252): completed to extended. -/
  | compToExt (d a : Reg)
  /-- PN_TO_EXT (R253): projective Niels to extended. -/
  | pnToExt (d a : Reg)
  /-- AN_TO_EXT (R254): affine Niels to extended. -/
  | anToExt (d a : Reg)
  /-- PROJ_DBL (R255): projective doubling to completed. -/
  | projDbl (d a : Reg)
  /-- EXT_ADD_PN (R256): EXT plus PN to completed. -/
  | extAddPn (d a b : Reg)
  /-- EXT_SUB_PN (R257): EXT minus PN to completed. -/
  | extSubPn (d a b : Reg)
  /-- EXT_ADD_AN (R258): EXT plus AN to completed. -/
  | extAddAn (d a b : Reg)
  /-- EXT_SUB_AN (R259): EXT minus AN to completed. -/
  | extSubAn (d a b : Reg)
  /-- ED_ADD (R260): P[d] ← P[a] + P[b]. -/
  | edAdd (d a b : Reg)
  /-- ED_SUB (R261): P[d] ← P[a] − P[b]. -/
  | edSub (d a b : Reg)
  /-- ED_DBL (R262): P[d] ← 2·P[a]. -/
  | edDbl (d a : Reg)
  /-- ED_MULPOW2 (R263): P[d] ← 2^imm·P[a]. -/
  | edMulpow2 (d a : Reg) (imm : Byte)
  /-- ED_DECODE (R264): P[d] ← decompressed half h of BUF. -/
  | edDecode (d : Reg) (h : HalfField)
  /-- ED_ENCODE (R265): half h of BUF ← compressed P[a]. -/
  | edEncode (a : Reg) (h : HalfField)
  /-- ED_EQ (R266): K[d] ← projective equality of P[a] and P[b]. -/
  | edEq (d a b : Reg)
  /-- ED_ISIDENT (R267): K[d] ← whether P[a] is the identity. -/
  | edIsident (d a : Reg)
  /-- ED_ISSMALL (R268): K[d] ← whether 8·P[a] is the identity. -/
  | edIssmall (d a : Reg)
  /-- ED_ISTF (R269): K[d] ← whether ℓ·P[a] is the identity. -/
  | edIstf (d a : Reg)
  /- Lookup tables and scalar multiplication (44_scalarmul.md) -/
  /-- LUT_BUILD (R300): LUT ← table of P[a]. -/
  | lutBuild (a : Reg)
  /-- LUT_SEL (R301): P[d] ← signed select from LUT. -/
  | lutSel (d : Reg) (imm : Byte)
  /-- NLUT_BUILD (R302): NLUT ← odd multiples of P[a]. -/
  | nlutBuild (a : Reg)
  /-- NLUT_SEL (R303): P[d] ← NLUT[imm div 2]. -/
  | nlutSel (d : Reg) (imm : Byte)
  /-- BT_BUILD (R304): BT ← fixed-base table of P[a]. -/
  | btBuild (a : Reg)
  /-- BT_SEL (R306): P[d] ← signed select from BT[t]. -/
  | btSel (d : Reg) (t imm : Byte)
  /-- ED_SMUL (R310): P[d] ← S[b]·P[a]. -/
  | edSmul (d a b : Reg)
  /-- ED_BMUL (R311): P[d] ← S[a]·(base of BT). -/
  | edBmul (d a : Reg)
  /-- ED_VTDBL (R312): P[d] ← S[a]·P[b] + S[c]·B. -/
  | edVtdbl (d a b c : Reg)
  /- Ristretto255 (45_ristretto.md) -/
  /-- RI_DECODE (R340): P[d] ← decoded Ristretto encoding in half h of BUF. -/
  | riDecode (d : Reg) (h : HalfField)
  /-- RI_ENCODE (R341): half h of BUF ← Ristretto encoding of P[a]. -/
  | riEncode (a : Reg) (h : HalfField)
  /-- RI_EQ (R342): K[d] ← Ristretto equality of P[a] and P[b]. -/
  | riEq (d a b : Reg)
  /-- RI_MAP (R343): P[d] ← Elligator map of F[a]. -/
  | riMap (d a : Reg)
  /-- RI_FROMUNI (R344): P[d] ← map of the 64 bytes of BUF. -/
  | riFromuni (d : Reg)
deriving DecidableEq, Repr

end Sys2Proof
end

