-- ==== Sys2Proof/Decode.lean ====
section
/-! DEFINITION. The command word (30_encoding.md R100 to R112): its fields, the decoder, total on every
word and rejecting by name, and the encoder. The decoder makes the command-independent checks of
60_exceptions.md R374, steps 1 and 2 (opcode, then reserved fields); the checks of operand values belong to the
command. -/

namespace Sys2Proof

/-- Field op, bits 7:0 (R101). -/
def fieldOp (w : Word) : Nat := w.toNat % 256

/-- Field d, bits 11:8 (R101). -/
def fieldD (w : Word) : Reg := ⟨w.toNat / 2 ^ 8 % 16, Nat.mod_lt _ (by decide)⟩

/-- Field a, bits 15:12 (R101). -/
def fieldA (w : Word) : Reg := ⟨w.toNat / 2 ^ 12 % 16, Nat.mod_lt _ (by decide)⟩

/-- Field b, bits 19:16 (R101). -/
def fieldB (w : Word) : Reg := ⟨w.toNat / 2 ^ 16 % 16, Nat.mod_lt _ (by decide)⟩

/-- Field c, bits 23:20 (R101), which is also where the half selector h stands (R104). -/
def fieldC (w : Word) : Reg := ⟨w.toNat / 2 ^ 20 % 16, Nat.mod_lt _ (by decide)⟩

/-- Field t8, bits 23:16, the sub-table index of BT_SEL (R105). -/
def fieldT (w : Word) : Byte := BitVec.ofNat 8 (w.toNat / 2 ^ 16 % 256)

/-- Field imm, bits 31:24 (R101). -/
def fieldImm (w : Word) : Byte := BitVec.ofNat 8 (w.toNat / 2 ^ 24 % 256)

/-- Why a word is no command: its opcode is undefined (R108), or a field its opcode does not use is
non-zero (R106). -/
inductive DecodeError where
  | opcode
  | reserved
deriving DecidableEq, Repr

/-- Accept `i` when every field the opcode does not use is 0 (R106). The unused fields are given as
numbers. -/
def unusedZero (unused : List Nat) (i : Instr) : Except DecodeError Instr :=
  if unused.all (· == 0) then .ok i else .error .reserved

/-- The decoder. One arm per row of R107; the list is the row's third column of 60_exceptions.md R375
(the fields that must be 0). Any other opcode is undefined (R108). -/
def decode (w : Word) : Except DecodeError Instr :=
  match fieldOp w with
  | 0x00 => unusedZero [(fieldD w).val, (fieldA w).val, (fieldB w).val, (fieldC w).val, (fieldImm w).toNat] .nop
  | 0x01 => unusedZero [(fieldA w).val, (fieldB w).val, (fieldC w).val] (.kSet (fieldD w) (fieldImm w))
  | 0x02 => unusedZero [(fieldB w).val, (fieldC w).val, (fieldImm w).toNat] (.kNot (fieldD w) (fieldA w))
  | 0x03 => unusedZero [(fieldC w).val, (fieldImm w).toNat] (.kAnd (fieldD w) (fieldA w) (fieldB w))
  | 0x04 => unusedZero [(fieldC w).val, (fieldImm w).toNat] (.kOr (fieldD w) (fieldA w) (fieldB w))
  | 0x05 => unusedZero [(fieldC w).val, (fieldImm w).toNat] (.kXor (fieldD w) (fieldA w) (fieldB w))
  | 0x06 => unusedZero [(fieldA w).val, (fieldB w).val, (fieldC w).val, (fieldImm w).toNat] (.bufEq (fieldD w))
  | 0x07 => unusedZero [(fieldA w).val, (fieldB w).val] (.bufBit (fieldD w) (fieldC w) (fieldImm w))
  | 0x10 => unusedZero [(fieldA w).val, (fieldB w).val, (fieldImm w).toNat] (.feLoad (fieldD w) (fieldC w))
  | 0x11 => unusedZero [(fieldD w).val, (fieldB w).val, (fieldImm w).toNat] (.feStore (fieldA w) (fieldC w))
  | 0x12 => unusedZero [(fieldB w).val, (fieldC w).val, (fieldImm w).toNat] (.feMov (fieldD w) (fieldA w))
  | 0x13 => unusedZero [(fieldA w).val, (fieldB w).val, (fieldC w).val] (.feConst (fieldD w) (fieldImm w))
  | 0x14 => unusedZero [(fieldC w).val, (fieldImm w).toNat] (.feAdd (fieldD w) (fieldA w) (fieldB w))
  | 0x15 => unusedZero [(fieldC w).val, (fieldImm w).toNat] (.feSub (fieldD w) (fieldA w) (fieldB w))
  | 0x16 => unusedZero [(fieldB w).val, (fieldC w).val, (fieldImm w).toNat] (.feNeg (fieldD w) (fieldA w))
  | 0x17 => unusedZero [(fieldC w).val, (fieldImm w).toNat] (.feMul (fieldD w) (fieldA w) (fieldB w))
  | 0x18 => unusedZero [(fieldB w).val, (fieldC w).val, (fieldImm w).toNat] (.feSq (fieldD w) (fieldA w))
  | 0x19 => unusedZero [(fieldB w).val, (fieldC w).val, (fieldImm w).toNat] (.feSq2 (fieldD w) (fieldA w))
  | 0x1A => unusedZero [(fieldB w).val, (fieldC w).val, (fieldImm w).toNat] (.feInv (fieldD w) (fieldA w))
  | 0x1B => unusedZero [(fieldB w).val, (fieldC w).val, (fieldImm w).toNat] (.fePowp58 (fieldD w) (fieldA w))
  | 0x1C => unusedZero [(fieldImm w).toNat] (.feSel (fieldD w) (fieldA w) (fieldB w) (fieldC w))
  | 0x1D => unusedZero [(fieldB w).val, (fieldC w).val, (fieldImm w).toNat] (.feIsneg (fieldD w) (fieldA w))
  | 0x1E => unusedZero [(fieldB w).val, (fieldC w).val, (fieldImm w).toNat] (.feIszero (fieldD w) (fieldA w))
  | 0x1F => unusedZero [(fieldC w).val, (fieldImm w).toNat] (.feEq (fieldD w) (fieldA w) (fieldB w))
  | 0x20 => unusedZero [(fieldB w).val, (fieldC w).val, (fieldImm w).toNat] (.feCtabs (fieldD w) (fieldA w))
  | 0x21 => unusedZero [(fieldImm w).toNat] (.feSqrtratio (fieldD w) (fieldA w) (fieldB w) (fieldC w))
  | 0x30 => unusedZero [(fieldA w).val, (fieldB w).val, (fieldImm w).toNat] (.scLoad (fieldD w) (fieldC w))
  | 0x31 => unusedZero [(fieldA w).val, (fieldB w).val, (fieldImm w).toNat] (.scLoadbits (fieldD w) (fieldC w))
  | 0x32 => unusedZero [(fieldA w).val, (fieldB w).val, (fieldC w).val, (fieldImm w).toNat] (.scLoadwide (fieldD w))
  | 0x33 => unusedZero [(fieldD w).val, (fieldB w).val, (fieldImm w).toNat] (.scStore (fieldA w) (fieldC w))
  | 0x34 => unusedZero [(fieldB w).val, (fieldC w).val, (fieldImm w).toNat] (.scMov (fieldD w) (fieldA w))
  | 0x35 => unusedZero [(fieldA w).val, (fieldB w).val, (fieldC w).val] (.scConst (fieldD w) (fieldImm w))
  | 0x36 => unusedZero [(fieldC w).val, (fieldImm w).toNat] (.scAdd (fieldD w) (fieldA w) (fieldB w))
  | 0x37 => unusedZero [(fieldC w).val, (fieldImm w).toNat] (.scSub (fieldD w) (fieldA w) (fieldB w))
  | 0x38 => unusedZero [(fieldC w).val, (fieldImm w).toNat] (.scMul (fieldD w) (fieldA w) (fieldB w))
  | 0x39 => unusedZero [(fieldImm w).toNat] (.scMuladd (fieldD w) (fieldA w) (fieldB w) (fieldC w))
  | 0x3A => unusedZero [(fieldB w).val, (fieldC w).val, (fieldImm w).toNat] (.scReduce (fieldD w) (fieldA w))
  | 0x3B => unusedZero [(fieldC w).val, (fieldImm w).toNat] (.scMontmul (fieldD w) (fieldA w) (fieldB w))
  | 0x3C => unusedZero [(fieldD w).val, (fieldB w).val, (fieldC w).val, (fieldImm w).toNat] (.scRadix16 (fieldA w))
  | 0x3D => unusedZero [(fieldD w).val, (fieldB w).val, (fieldC w).val, (fieldImm w).toNat] (.scNaf5 (fieldA w))
  | 0x3E => unusedZero [(fieldC w).val, (fieldImm w).toNat] (.scEq (fieldD w) (fieldA w) (fieldB w))
  | 0x40 => unusedZero [(fieldA w).val, (fieldB w).val, (fieldC w).val] (.ptConst (fieldD w) (fieldImm w))
  | 0x41 => unusedZero [(fieldB w).val, (fieldC w).val, (fieldImm w).toNat] (.ptMov (fieldD w) (fieldA w))
  | 0x42 => unusedZero [(fieldB w).val, (fieldC w).val] (.ptGet (fieldD w) (fieldA w) (fieldImm w))
  | 0x43 => unusedZero [(fieldB w).val, (fieldC w).val] (.ptSet (fieldD w) (fieldA w) (fieldImm w))
  | 0x44 => unusedZero [(fieldA w).val, (fieldB w).val, (fieldC w).val] (.ptSettag (fieldD w) (fieldImm w))
  | 0x45 => unusedZero [(fieldImm w).toNat] (.ptSel (fieldD w) (fieldA w) (fieldB w) (fieldC w))
  | 0x46 => unusedZero [(fieldB w).val, (fieldC w).val, (fieldImm w).toNat] (.ptNeg (fieldD w) (fieldA w))
  | 0x47 => unusedZero [(fieldB w).val, (fieldC w).val, (fieldImm w).toNat] (.extToProj (fieldD w) (fieldA w))
  | 0x48 => unusedZero [(fieldB w).val, (fieldC w).val, (fieldImm w).toNat] (.extToPn (fieldD w) (fieldA w))
  | 0x49 => unusedZero [(fieldB w).val, (fieldC w).val, (fieldImm w).toNat] (.extToAn (fieldD w) (fieldA w))
  | 0x4A => unusedZero [(fieldB w).val, (fieldC w).val, (fieldImm w).toNat] (.projToExt (fieldD w) (fieldA w))
  | 0x4B => unusedZero [(fieldB w).val, (fieldC w).val, (fieldImm w).toNat] (.compToProj (fieldD w) (fieldA w))
  | 0x4C => unusedZero [(fieldB w).val, (fieldC w).val, (fieldImm w).toNat] (.compToExt (fieldD w) (fieldA w))
  | 0x4D => unusedZero [(fieldB w).val, (fieldC w).val, (fieldImm w).toNat] (.pnToExt (fieldD w) (fieldA w))
  | 0x4E => unusedZero [(fieldB w).val, (fieldC w).val, (fieldImm w).toNat] (.anToExt (fieldD w) (fieldA w))
  | 0x4F => unusedZero [(fieldB w).val, (fieldC w).val, (fieldImm w).toNat] (.projDbl (fieldD w) (fieldA w))
  | 0x50 => unusedZero [(fieldC w).val, (fieldImm w).toNat] (.extAddPn (fieldD w) (fieldA w) (fieldB w))
  | 0x51 => unusedZero [(fieldC w).val, (fieldImm w).toNat] (.extSubPn (fieldD w) (fieldA w) (fieldB w))
  | 0x52 => unusedZero [(fieldC w).val, (fieldImm w).toNat] (.extAddAn (fieldD w) (fieldA w) (fieldB w))
  | 0x53 => unusedZero [(fieldC w).val, (fieldImm w).toNat] (.extSubAn (fieldD w) (fieldA w) (fieldB w))
  | 0x54 => unusedZero [(fieldC w).val, (fieldImm w).toNat] (.edAdd (fieldD w) (fieldA w) (fieldB w))
  | 0x55 => unusedZero [(fieldC w).val, (fieldImm w).toNat] (.edSub (fieldD w) (fieldA w) (fieldB w))
  | 0x56 => unusedZero [(fieldB w).val, (fieldC w).val, (fieldImm w).toNat] (.edDbl (fieldD w) (fieldA w))
  | 0x57 => unusedZero [(fieldB w).val, (fieldC w).val] (.edMulpow2 (fieldD w) (fieldA w) (fieldImm w))
  | 0x58 => unusedZero [(fieldA w).val, (fieldB w).val, (fieldImm w).toNat] (.edDecode (fieldD w) (fieldC w))
  | 0x59 => unusedZero [(fieldD w).val, (fieldB w).val, (fieldImm w).toNat] (.edEncode (fieldA w) (fieldC w))
  | 0x5A => unusedZero [(fieldC w).val, (fieldImm w).toNat] (.edEq (fieldD w) (fieldA w) (fieldB w))
  | 0x5B => unusedZero [(fieldB w).val, (fieldC w).val, (fieldImm w).toNat] (.edIsident (fieldD w) (fieldA w))
  | 0x5C => unusedZero [(fieldB w).val, (fieldC w).val, (fieldImm w).toNat] (.edIssmall (fieldD w) (fieldA w))
  | 0x5D => unusedZero [(fieldB w).val, (fieldC w).val, (fieldImm w).toNat] (.edIstf (fieldD w) (fieldA w))
  | 0x60 => unusedZero [(fieldD w).val, (fieldB w).val, (fieldC w).val, (fieldImm w).toNat] (.lutBuild (fieldA w))
  | 0x61 => unusedZero [(fieldA w).val, (fieldB w).val, (fieldC w).val] (.lutSel (fieldD w) (fieldImm w))
  | 0x62 => unusedZero [(fieldD w).val, (fieldB w).val, (fieldC w).val, (fieldImm w).toNat] (.nlutBuild (fieldA w))
  | 0x63 => unusedZero [(fieldA w).val, (fieldB w).val, (fieldC w).val] (.nlutSel (fieldD w) (fieldImm w))
  | 0x64 => unusedZero [(fieldD w).val, (fieldB w).val, (fieldC w).val, (fieldImm w).toNat] (.btBuild (fieldA w))
  | 0x65 => unusedZero [(fieldA w).val] (.btSel (fieldD w) (fieldT w) (fieldImm w))
  | 0x66 => unusedZero [(fieldC w).val, (fieldImm w).toNat] (.edSmul (fieldD w) (fieldA w) (fieldB w))
  | 0x67 => unusedZero [(fieldB w).val, (fieldC w).val, (fieldImm w).toNat] (.edBmul (fieldD w) (fieldA w))
  | 0x68 => unusedZero [(fieldImm w).toNat] (.edVtdbl (fieldD w) (fieldA w) (fieldB w) (fieldC w))
  | 0x70 => unusedZero [(fieldA w).val, (fieldB w).val, (fieldImm w).toNat] (.riDecode (fieldD w) (fieldC w))
  | 0x71 => unusedZero [(fieldD w).val, (fieldB w).val, (fieldImm w).toNat] (.riEncode (fieldA w) (fieldC w))
  | 0x72 => unusedZero [(fieldC w).val, (fieldImm w).toNat] (.riEq (fieldD w) (fieldA w) (fieldB w))
  | 0x73 => unusedZero [(fieldB w).val, (fieldC w).val, (fieldImm w).toNat] (.riMap (fieldD w) (fieldA w))
  | 0x74 => unusedZero [(fieldA w).val, (fieldB w).val, (fieldC w).val, (fieldImm w).toNat] (.riFromuni (fieldD w))
  | _ => .error .opcode

/-- The word with the given field values, op | d<<8 | a<<12 | b<<16 | c<<20 | imm<<24 (R112). -/
def packWord (op : Nat) (d a b c : Nat) (imm : Nat) : Word :=
  BitVec.ofNat 32 (op + d * 2 ^ 8 + a * 2 ^ 12 + b * 2 ^ 16 + c * 2 ^ 20 + imm * 2 ^ 24)

/-- The encoder (R112): the row's opcode, the operands in their fields, every unused field 0. For BT_SEL
the sub-table index stands in bits 23:16. -/
def encode : Instr → Word
  | .nop => packWord 0x00 0 0 0 0 0
  | .kSet d imm => packWord 0x01 d.val 0 0 0 imm.toNat
  | .kNot d a => packWord 0x02 d.val a.val 0 0 0
  | .kAnd d a b => packWord 0x03 d.val a.val b.val 0 0
  | .kOr d a b => packWord 0x04 d.val a.val b.val 0 0
  | .kXor d a b => packWord 0x05 d.val a.val b.val 0 0
  | .bufEq d => packWord 0x06 d.val 0 0 0 0
  | .bufBit d h imm => packWord 0x07 d.val 0 0 h.val imm.toNat
  | .feLoad d h => packWord 0x10 d.val 0 0 h.val 0
  | .feStore a h => packWord 0x11 0 a.val 0 h.val 0
  | .feMov d a => packWord 0x12 d.val a.val 0 0 0
  | .feConst d imm => packWord 0x13 d.val 0 0 0 imm.toNat
  | .feAdd d a b => packWord 0x14 d.val a.val b.val 0 0
  | .feSub d a b => packWord 0x15 d.val a.val b.val 0 0
  | .feNeg d a => packWord 0x16 d.val a.val 0 0 0
  | .feMul d a b => packWord 0x17 d.val a.val b.val 0 0
  | .feSq d a => packWord 0x18 d.val a.val 0 0 0
  | .feSq2 d a => packWord 0x19 d.val a.val 0 0 0
  | .feInv d a => packWord 0x1A d.val a.val 0 0 0
  | .fePowp58 d a => packWord 0x1B d.val a.val 0 0 0
  | .feSel d a b c => packWord 0x1C d.val a.val b.val c.val 0
  | .feIsneg d a => packWord 0x1D d.val a.val 0 0 0
  | .feIszero d a => packWord 0x1E d.val a.val 0 0 0
  | .feEq d a b => packWord 0x1F d.val a.val b.val 0 0
  | .feCtabs d a => packWord 0x20 d.val a.val 0 0 0
  | .feSqrtratio d a b c => packWord 0x21 d.val a.val b.val c.val 0
  | .scLoad d h => packWord 0x30 d.val 0 0 h.val 0
  | .scLoadbits d h => packWord 0x31 d.val 0 0 h.val 0
  | .scLoadwide d => packWord 0x32 d.val 0 0 0 0
  | .scStore a h => packWord 0x33 0 a.val 0 h.val 0
  | .scMov d a => packWord 0x34 d.val a.val 0 0 0
  | .scConst d imm => packWord 0x35 d.val 0 0 0 imm.toNat
  | .scAdd d a b => packWord 0x36 d.val a.val b.val 0 0
  | .scSub d a b => packWord 0x37 d.val a.val b.val 0 0
  | .scMul d a b => packWord 0x38 d.val a.val b.val 0 0
  | .scMuladd d a b c => packWord 0x39 d.val a.val b.val c.val 0
  | .scReduce d a => packWord 0x3A d.val a.val 0 0 0
  | .scMontmul d a b => packWord 0x3B d.val a.val b.val 0 0
  | .scRadix16 a => packWord 0x3C 0 a.val 0 0 0
  | .scNaf5 a => packWord 0x3D 0 a.val 0 0 0
  | .scEq d a b => packWord 0x3E d.val a.val b.val 0 0
  | .ptConst d imm => packWord 0x40 d.val 0 0 0 imm.toNat
  | .ptMov d a => packWord 0x41 d.val a.val 0 0 0
  | .ptGet d a imm => packWord 0x42 d.val a.val 0 0 imm.toNat
  | .ptSet d a imm => packWord 0x43 d.val a.val 0 0 imm.toNat
  | .ptSettag d imm => packWord 0x44 d.val 0 0 0 imm.toNat
  | .ptSel d a b c => packWord 0x45 d.val a.val b.val c.val 0
  | .ptNeg d a => packWord 0x46 d.val a.val 0 0 0
  | .extToProj d a => packWord 0x47 d.val a.val 0 0 0
  | .extToPn d a => packWord 0x48 d.val a.val 0 0 0
  | .extToAn d a => packWord 0x49 d.val a.val 0 0 0
  | .projToExt d a => packWord 0x4A d.val a.val 0 0 0
  | .compToProj d a => packWord 0x4B d.val a.val 0 0 0
  | .compToExt d a => packWord 0x4C d.val a.val 0 0 0
  | .pnToExt d a => packWord 0x4D d.val a.val 0 0 0
  | .anToExt d a => packWord 0x4E d.val a.val 0 0 0
  | .projDbl d a => packWord 0x4F d.val a.val 0 0 0
  | .extAddPn d a b => packWord 0x50 d.val a.val b.val 0 0
  | .extSubPn d a b => packWord 0x51 d.val a.val b.val 0 0
  | .extAddAn d a b => packWord 0x52 d.val a.val b.val 0 0
  | .extSubAn d a b => packWord 0x53 d.val a.val b.val 0 0
  | .edAdd d a b => packWord 0x54 d.val a.val b.val 0 0
  | .edSub d a b => packWord 0x55 d.val a.val b.val 0 0
  | .edDbl d a => packWord 0x56 d.val a.val 0 0 0
  | .edMulpow2 d a imm => packWord 0x57 d.val a.val 0 0 imm.toNat
  | .edDecode d h => packWord 0x58 d.val 0 0 h.val 0
  | .edEncode a h => packWord 0x59 0 a.val 0 h.val 0
  | .edEq d a b => packWord 0x5A d.val a.val b.val 0 0
  | .edIsident d a => packWord 0x5B d.val a.val 0 0 0
  | .edIssmall d a => packWord 0x5C d.val a.val 0 0 0
  | .edIstf d a => packWord 0x5D d.val a.val 0 0 0
  | .lutBuild a => packWord 0x60 0 a.val 0 0 0
  | .lutSel d imm => packWord 0x61 d.val 0 0 0 imm.toNat
  | .nlutBuild a => packWord 0x62 0 a.val 0 0 0
  | .nlutSel d imm => packWord 0x63 d.val 0 0 0 imm.toNat
  | .btBuild a => packWord 0x64 0 a.val 0 0 0
  | .btSel d t imm => packWord 0x65 d.val 0 (t.toNat % 16) (t.toNat / 16) imm.toNat
  | .edSmul d a b => packWord 0x66 d.val a.val b.val 0 0
  | .edBmul d a => packWord 0x67 d.val a.val 0 0 0
  | .edVtdbl d a b c => packWord 0x68 d.val a.val b.val c.val 0
  | .riDecode d h => packWord 0x70 d.val 0 0 h.val 0
  | .riEncode a h => packWord 0x71 0 a.val 0 h.val 0
  | .riEq d a b => packWord 0x72 d.val a.val b.val 0 0
  | .riMap d a => packWord 0x73 d.val a.val 0 0 0
  | .riFromuni d => packWord 0x74 d.val 0 0 0 0

/-- What the decoder reads from the first `nbits` bits of an instruction, numbered as the opcode table
numbers them: bit 0 is the least significant bit of the one command word (R9, R100); bits above `nbits` are
0. -/
def decodeTableWord (nbits w : Nat) : Option Instr :=
  match decode (BitVec.ofNat 32 (w % 2 ^ nbits)) with
  | .ok i => some i
  | .error _ => none

end Sys2Proof
end

