-- ==== Sys2Proof/Machine/Field.lean ====
section
/-! DEFINITION. Arithmetic in GF(p) on representatives: the helpers of 41_field.md, under the names of
00_scope.md R15. Every one is a total function of residues (R150). -/

namespace Sys2Proof

/-- The residue of `n` mod p (R10, R31). -/
def Fe.ofNat (n : Nat) : Fe := ⟨n % fieldP, Nat.mod_lt n (by decide)⟩

end Sys2Proof

namespace Sys2Proof.Machine

/-! ## The operations (R166 to R171) -/

/-- fadd (R166): (x + y) mod p. -/
def fadd (x y : Fe) : Fe := Fe.ofNat (x.val + y.val)

/-- fsub (R167): (x − y) mod p. -/
def fsub (x y : Fe) : Fe := Fe.ofNat (x.val + (fieldP - y.val))

/-- fneg (R168): (p − x) mod p. -/
def fneg (x : Fe) : Fe := Fe.ofNat (fieldP - x.val)

/-- fmul (R169): (x · y) mod p. -/
def fmul (x y : Fe) : Fe := Fe.ofNat (x.val * y.val)

/-- fsq (R170): x² mod p. -/
def fsq (x : Fe) : Fe := Fe.ofNat (x.val * x.val)

/-- fsq2 (R171): 2·x² mod p. -/
def fsq2 (x : Fe) : Fe := Fe.ofNat (2 * (x.val * x.val))

/-! ## The addition chain of finv and fpowp58 (R173) -/

/-- sq^n: n successive squarings (R173). -/
def fsqn : Nat → Fe → Fe
  | 0, x => x
  | n + 1, x => fsqn n (fsq x)

/-- The common part of the chain: (x^(2^250 − 1), x^11), that is (t19, t3) of R173. -/
def pow22501 (x : Fe) : Fe × Fe :=
  let t0 := fsqn 1 x
  let t1 := fsqn 2 t0
  let t2 := fmul x t1
  let t3 := fmul t0 t2
  let t4 := fsqn 1 t3
  let t5 := fmul t2 t4
  let t6 := fsqn 5 t5
  let t7 := fmul t6 t5
  let t8 := fsqn 10 t7
  let t9 := fmul t8 t7
  let t10 := fsqn 20 t9
  let t11 := fmul t10 t9
  let t12 := fsqn 10 t11
  let t13 := fmul t12 t7
  let t14 := fsqn 50 t13
  let t15 := fmul t14 t13
  let t16 := fsqn 100 t15
  let t17 := fmul t16 t15
  let t18 := fsqn 50 t17
  let t19 := fmul t18 t13
  (t19, t3)

/-- finv (R172, R173): x^(p − 2) mod p by the chain, so finv 0 = 0. -/
def finv (x : Fe) : Fe :=
  let t := pow22501 x
  fmul (fsqn 5 t.1) t.2

/-- fpowp58 (R173, R174): x^((p − 5)/8) mod p by the chain. -/
def fpowp58 (x : Fe) : Fe := fmul (fsqn 2 (pow22501 x).1) x

/-! ## Select and tests (R175 to R179); a choice is a Bool, true for 1 -/

/-- fsel (R175): y when k = 1, x when k = 0. -/
def fsel (x y : Fe) (k : Bool) : Fe := if k then y else x

/-- isneg (R176): the least significant bit of the canonical encoding. -/
def isneg (x : Fe) : Bool := x.val % 2 == 1

/-- iszero (R177). -/
def iszero (x : Fe) : Bool := x.val == 0

/-- feq (R178): the canonical encodings are equal, that is x ≡ y mod p. -/
def feq (x y : Fe) : Bool := x.val == y.val

/-- ctabs (R179): −x if x is negative, else x. -/
def ctabs (x : Fe) : Fe := fsel x (fneg x) (isneg x)

/-! ## Byte conversion (R160, R161); a byte string stands for its little-endian integer (log 19) -/

/-- fe_from_bytes (R160): bit 255 is discarded and the value reduced mod p. -/
def feFromBytes (b : Nat) : Fe := Fe.ofNat (b % 2 ^ 255)

/-- fe_to_bytes (R161), as the little-endian integer of the 32 bytes: the representative in [0, p). -/
def feToBytes (x : Fe) : Nat := x.val

/-! ## The field constants (R153, R154) -/

/-- ZERO. -/
def feZero : Fe := Fe.ofNat 0

/-- ONE. -/
def feOne : Fe := Fe.ofNat 1

/-- MINUS_ONE = p − 1. -/
def feMinusOne : Fe :=
  Fe.ofNat 0x7fffffffffffffffffffffffffffffffffffffffffffffffffffffffffffffec

/-- D, the curve constant d = −121665/121666 (R153). -/
def feD : Fe := Fe.ofNat 0x52036cee2b6ffe738cc740797779e89800700a4d4141d8ab75eb4dca135978a3

/-- D2 = 2·d. -/
def feD2 : Fe := Fe.ofNat 0x2406d9dc56dffce7198e80f2eef3d13000e0149a8283b156ebd69b9426b2f159

/-- SQRT_M1, the even square root of −1. -/
def feSqrtM1 : Fe := Fe.ofNat 0x2b8324804fc1df0b2b4d00993dfbd7a72f431806ad2fe478c4ee1b274a0ea0b0

/-- INVSQRT_A_MINUS_D. -/
def feInvsqrtAMinusD : Fe :=
  Fe.ofNat 0x786c8905cfaffca216c27b91fe01d8409d2f16175a4172be99c8fdaa805d40ea

/-- SQRT_AD_MINUS_ONE. -/
def feSqrtAdMinusOne : Fe :=
  Fe.ofNat 0x376931bf2b8348ac0f3cfcc931f5d1fdaf9d8e0c1b7854bd7e97f6a0497b2e1b

/-- ONE_MINUS_D_SQ = 1 − d². -/
def feOneMinusDSq : Fe :=
  Fe.ofNat 0x029072a8b2b3e0d79994abddbe70dfe42c81a138cd5e350fe27c09c1945fc176

/-- D_MINUS_ONE_SQ = (d − 1)². -/
def feDMinusOneSq : Fe :=
  Fe.ofNat 0x5968b37af66c22414cdcd32f529b4eebd29e4a2cb01e199931ad5aaa44ed4d20

/-- FE_CONST_ROM, index 0 to 9 (R154). -/
def feConstRom : List Fe :=
  [feZero, feOne, feMinusOne, feD, feD2, feSqrtM1, feInvsqrtAMinusD, feSqrtAdMinusOne,
    feOneMinusDSq, feDMinusOneSq]

/-! ## Square root of a ratio (R180, R181) -/

/-- sqrt_ratio_m1 (u, v): (was_square, r). The values are those of the table of R180; they are computed
by the procedure of R181 (log 8). -/
def sqrtRatioM1 (u v : Fe) : Bool × Fe :=
  let v3 := fmul (fsq v) v
  let v7 := fmul (fsq v3) v
  let r := fmul (fmul u v3) (fpowp58 (fmul u v7))
  let check := fmul v (fsq r)
  let correct := feq check u
  let flipped := feq check (fneg u)
  let flippedI := feq check (fmul (fneg u) feSqrtM1)
  let r' := fsel r (fmul feSqrtM1 r) (flipped || flippedI)
  (correct || flipped, ctabs r')

/-- invsqrt x = sqrt_ratio_m1 (1, x) (R180). -/
def invsqrt (x : Fe) : Bool × Fe := sqrtRatioM1 feOne x

end Sys2Proof.Machine
end

