-- ==== Sys2Proof/Machine/Curve.lean ====
section
/-! DEFINITION. The point formulas of 43_point.md, slot for slot (R232), on typed coordinate forms, and the
passage between a typed form and a tagged register content (10_state.md R37). -/

namespace Sys2Proof

/-! ## Typed forms and register contents (R37). A computing command writes 0 to an unused slot. -/

def Point.ofExt (e : Ext) : Point := ⟨.ext, e.X, e.Y, e.Z, e.T⟩
def Point.ofProj (q : Proj) : Point := ⟨.proj, q.X, q.Y, q.Z, Machine.feZero⟩
def Point.ofComp (c : Comp) : Point := ⟨.comp, c.X, c.Y, c.Z, c.T⟩
def Point.ofPn (q : Pn) : Point := ⟨.pn, q.ypx, q.ymx, q.Z, q.t2d⟩
def Point.ofAn (q : An) : Point := ⟨.an, q.ypx, q.ymx, q.xy2d, Machine.feZero⟩

def Point.asExt (p : Point) : Ext := ⟨p.s0, p.s1, p.s2, p.s3⟩
def Point.asProj (p : Point) : Proj := ⟨p.s0, p.s1, p.s2⟩
def Point.asComp (p : Point) : Comp := ⟨p.s0, p.s1, p.s2, p.s3⟩
def Point.asPn (p : Point) : Pn := ⟨p.s0, p.s1, p.s2, p.s3⟩
def Point.asAn (p : Point) : An := ⟨p.s0, p.s1, p.s2⟩

/-- Slot n of a register content, n = 0 to 3 (R242). -/
def Point.slot (p : Point) : Nat → Fe
  | 0 => p.s0
  | 1 => p.s1
  | 2 => p.s2
  | _ => p.s3

/-- The content with slot n, n = 0 to 3, replaced (R243). -/
def Point.setSlot (p : Point) (n : Nat) (x : Fe) : Point :=
  match n with
  | 0 => { p with s0 := x }
  | 1 => { p with s1 := x }
  | 2 => { p with s2 := x }
  | _ => { p with s3 := x }

end Sys2Proof

namespace Sys2Proof.Machine

/-! ## Constants (R240) -/

/-- The identity, EXT (0, 1, 1, 0). -/
def extIdentity : Ext := ⟨feZero, feOne, feOne, feZero⟩

/-- The identity, PROJ (0, 1, 1). -/
def projIdentity : Proj := ⟨feZero, feOne, feOne⟩

/-- The identity, PN (1, 1, 1, 0). -/
def pnIdentity : Pn := ⟨feOne, feOne, feOne, feZero⟩

/-- The identity, AN (1, 1, 0). -/
def anIdentity : An := ⟨feOne, feOne, feZero⟩

/-- The standard basepoint B (R240, index 1). -/
def basepoint : Ext where
  X := Fe.ofNat 0x216936d3cd6e53fec0a4e231fdd6dc5c692cc7609525a7b2c9562d608f25d51a
  Y := Fe.ofNat 0x6666666666666666666666666666666666666666666666666666666666666658
  Z := feOne
  T := Fe.ofNat 0x67875f0fd78b766566ea4e8e64abe37d20f09f80775152f56dde8ab3a5b7dda3

/-- PT_CONST_ROM, index 0 to 4 (R240). -/
def ptConstRom : List Point :=
  [Point.ofExt extIdentity, Point.ofExt basepoint, Point.ofProj projIdentity,
    Point.ofPn pnIdentity, Point.ofAn anIdentity]

/-! ## Negation (R246) -/

def extNeg (e : Ext) : Ext := ⟨fneg e.X, e.Y, e.Z, fneg e.T⟩
def pnNeg (q : Pn) : Pn := ⟨q.ymx, q.ypx, q.Z, fneg q.t2d⟩
def anNeg (q : An) : An := ⟨q.ymx, q.ypx, fneg q.xy2d⟩

/-! ## Conversions (R247 to R254) -/

/-- ext_to_proj (R247). -/
def extToProj (e : Ext) : Proj := ⟨e.X, e.Y, e.Z⟩

/-- ext_to_pn (R248). -/
def extToPn (e : Ext) : Pn := ⟨fadd e.Y e.X, fsub e.Y e.X, e.Z, fmul e.T feD2⟩

/-- ext_to_an (R249); T is not read, and Z = 0 gives (0, 0, 0). -/
def extToAn (e : Ext) : An :=
  let recip := finv e.Z
  let x := fmul e.X recip
  let y := fmul e.Y recip
  ⟨fadd y x, fsub y x, fmul (fmul x y) feD2⟩

/-- proj_to_ext (R250). -/
def projToExt (q : Proj) : Ext := ⟨fmul q.X q.Z, fmul q.Y q.Z, fsq q.Z, fmul q.X q.Y⟩

/-- comp_to_proj (R251). -/
def compToProj (c : Comp) : Proj := ⟨fmul c.X c.T, fmul c.Y c.Z, fmul c.Z c.T⟩

/-- comp_to_ext (R252). -/
def compToExt (c : Comp) : Ext := ⟨fmul c.X c.T, fmul c.Y c.Z, fmul c.Z c.T, fmul c.X c.Y⟩

/-! ## Addition and doubling (R255 to R263) -/

/-- proj_dbl (R255). -/
def projDbl (q : Proj) : Comp :=
  let XX := fsq q.X
  let YY := fsq q.Y
  let ZZ2 := fsq2 q.Z
  let XpY2 := fsq (fadd q.X q.Y)
  let YYpXX := fadd YY XX
  let YYmXX := fsub YY XX
  ⟨fsub XpY2 YYpXX, YYpXX, YYmXX, fsub ZZ2 YYmXX⟩

/-- ext_add_pn (R256). -/
def extAddPn (p : Ext) (q : Pn) : Comp :=
  let PP := fmul (fadd p.Y p.X) q.ypx
  let MM := fmul (fsub p.Y p.X) q.ymx
  let TT2d := fmul p.T q.t2d
  let ZZ := fmul p.Z q.Z
  let ZZ2 := fadd ZZ ZZ
  ⟨fsub PP MM, fadd PP MM, fadd ZZ2 TT2d, fsub ZZ2 TT2d⟩

/-- ext_sub_pn (R257). -/
def extSubPn (p : Ext) (q : Pn) : Comp :=
  let PM := fmul (fadd p.Y p.X) q.ymx
  let MP := fmul (fsub p.Y p.X) q.ypx
  let TT2d := fmul p.T q.t2d
  let ZZ := fmul p.Z q.Z
  let ZZ2 := fadd ZZ ZZ
  ⟨fsub PM MP, fadd PM MP, fsub ZZ2 TT2d, fadd ZZ2 TT2d⟩

/-- ext_add_an (R258). -/
def extAddAn (p : Ext) (q : An) : Comp :=
  let PP := fmul (fadd p.Y p.X) q.ypx
  let MM := fmul (fsub p.Y p.X) q.ymx
  let Txy2d := fmul p.T q.xy2d
  let Z2 := fadd p.Z p.Z
  ⟨fsub PP MM, fadd PP MM, fadd Z2 Txy2d, fsub Z2 Txy2d⟩

/-- ext_sub_an (R259). -/
def extSubAn (p : Ext) (q : An) : Comp :=
  let PM := fmul (fadd p.Y p.X) q.ymx
  let MP := fmul (fsub p.Y p.X) q.ypx
  let Txy2d := fmul p.T q.xy2d
  let Z2 := fadd p.Z p.Z
  ⟨fsub PM MP, fadd PM MP, fsub Z2 Txy2d, fadd Z2 Txy2d⟩

/-- pn_to_ext (R253): addition to the identity. -/
def pnToExt (q : Pn) : Ext := compToExt (extAddPn extIdentity q)

/-- an_to_ext (R254): addition to the identity. -/
def anToExt (q : An) : Ext := compToExt (extAddAn extIdentity q)

/-- ed_add (R260). -/
def edAdd (p q : Ext) : Ext := compToExt (extAddPn p (extToPn q))

/-- ed_sub (R261). -/
def edSub (p q : Ext) : Ext := compToExt (extSubPn p (extToPn q))

/-- ed_dbl (R262). -/
def edDbl (p : Ext) : Ext := compToExt (projDbl (extToProj p))

/-- n successive doublings in the projective model (R263). -/
def projDblTimes : Nat → Proj → Proj
  | 0, s => s
  | n + 1, s => projDblTimes n (compToProj (projDbl s))

/-- ed_mulpow2 (p, k), for k ≥ 1: k − 1 projective doublings, the last one straight to EXT (R263). -/
def edMulpow2 (p : Ext) (k : Nat) : Ext :=
  compToExt (projDbl (projDblTimes (k - 1) (extToProj p)))

/-! ## Encoding and predicates (R264 to R268) -/

/-- The decompression of ED_DECODE (R264) of a 32-byte string; none where no x exists. -/
def edDecompress (b : Nat) : Option Ext :=
  let Y := feFromBytes b
  let YY := fsq Y
  let u := fsub YY feOne
  let v := fadd (fmul YY feD) feOne
  let r := sqrtRatioM1 u v
  let X := if b.testBit 255 then fneg r.2 else r.2
  if r.1 then some ⟨X, Y, feOne, fmul X Y⟩ else none

/-- The compression of ED_ENCODE (R265), as the little-endian integer of the 32 bytes. -/
def edCompress (p : Ext) : Nat :=
  let recip := finv p.Z
  let x := fmul p.X recip
  let y := fmul p.Y recip
  feToBytes y + (isneg x).toNat * 2 ^ 255

/-- ed_eq (R266). -/
def edEq (p q : Ext) : Bool := feq (fmul p.X q.Z) (fmul q.X p.Z) && feq (fmul p.Y q.Z) (fmul q.Y p.Z)

/-- ed_isident (R267). -/
def edIsident (p : Ext) : Bool := feq p.X feZero && feq p.Y p.Z

/-- ed_issmall (R268): 8·P is the identity. -/
def edIssmall (p : Ext) : Bool := edIsident (edMulpow2 p 3)

end Sys2Proof.Machine
end

