-- ==== Sys2Proof/Machine/ScalarRing.lean ====
section
/-! DEFINITION. Arithmetic mod ℓ, Montgomery reduction and the two digit recodings: the helpers of
42_scalar.md. A scalar operand is the stored integer, canonical or not (R200, R201). -/

namespace Sys2Proof

/-- The scalar register content of an integer: the integer mod 2^255 (R33, R213). -/
def Scalar.ofNat (n : Nat) : Scalar := ⟨n % scalarBound, Nat.mod_lt n (by decide)⟩

end Sys2Proof

namespace Sys2Proof.Machine

/-- The canonical scalar n mod ℓ (R201). -/
def scReduced (n : Nat) : Scalar := Scalar.ofNat (n % groupL)

/-- (x + y) mod ℓ (R217). -/
def scAddMod (x y : Scalar) : Scalar := scReduced (x.val + y.val)

/-- (x − y) mod ℓ, the representative in [0, ℓ), for any stored x and y (R218). -/
def scSubMod (x y : Scalar) : Scalar := scReduced (x.val + (groupL - y.val % groupL))

/-- (x · y) mod ℓ (R219). -/
def scMulMod (x y : Scalar) : Scalar := scReduced (x.val * y.val)

/-- (x · y + z) mod ℓ (R220). -/
def scMulAddMod (x y z : Scalar) : Scalar := scReduced (x.val * y.val + z.val)

/-! ## Montgomery reduction and form (R204, R205, R206) -/

/-- R = 2^261, the Montgomery radix (R204). -/
def montR : Nat := 2 ^ 261

/-- R mod ℓ, the constant 1 in Montgomery form (R204, R206). -/
def montRModL : Nat := 0x0fffffffffffffffffffffffffffffd656eb3c98b3bdf026334c2e60714df9ed

/-- RR = R² mod ℓ (R204). -/
def montRR : Nat := 0x05046df0c268f73bb1cf485fd6f9972d781a1f9babd635fcf7c28362eb5f9d12

/-- R⁻¹ mod ℓ (R204). -/
def montRInv : Nat := 0x064edb637937f48c1b0a73aa1c7fd1b5fd934be6d1d6d67ac7421b8f04c727e2

/-- LFACTOR = −ℓ⁻¹ mod 2^29 (R204). -/
def lFactor : Nat := 0x12547e1b

/-- montgomery_reduce by its normative value, T·R⁻¹ mod ℓ (R205; log 9). -/
def montgomeryReduce (T : Nat) : Nat := montRInv * T % groupL

/-- One step of the limb procedure of R205, at limb `i`: a multiple of ℓ is added that makes the limb
zero. -/
def montgomeryStep (i acc : Nat) : Nat :=
  let n := lFactor * (acc / 2 ^ (29 * i) % 2 ^ 29) % 2 ^ 29
  acc + 2 ^ (29 * i) * (groupL * n)

/-- The loop of the limb procedure of R205: `steps` limbs left, at limb `i`. -/
def montgomerySteps : Nat → Nat → Nat → Nat
  | 0, _, acc => acc
  | steps + 1, i, acc => montgomerySteps steps (i + 1) (montgomeryStep i acc)

/-- The limb procedure of R205: nine steps, a shift by 261 and one conditional subtraction. Its value is
`montgomeryReduce` for T < R·ℓ. -/
def montgomeryLimbs (T : Nat) : Nat :=
  let r := montgomerySteps 9 0 T / 2 ^ 261
  if groupL ≤ r then r - groupL else r

/-- to_montgomery(x) = x·R mod ℓ (R206). -/
def toMontgomery (x : Nat) : Nat := montgomeryReduce (montRR * x)

/-- from_montgomery(y) = y·R⁻¹ mod ℓ (R206). -/
def fromMontgomery (y : Nat) : Nat := montgomeryReduce y

/-- The plain product mod ℓ as two Montgomery reductions (R206). SC_MUL gives this value (R219, log 9). -/
def montgomeryProduct (x y : Nat) : Nat := montgomeryReduce (montRR * montgomeryReduce (x * y))

/-- The Montgomery product x·y·R⁻¹ mod ℓ (R206, R226). -/
def montgomeryMul (x y : Scalar) : Scalar := Scalar.ofNat (montgomeryReduce (x.val * y.val))

/-! ## Signed radix-16 digits (R222) -/

/-- The digits from one position on: `more` positions come after this one, `n` is the scalar shifted down
to it and `carry` what the position below passed up. The last position passes nothing on. -/
def radix16From : Nat → Nat → Nat → List Int
  | 0, n, carry => [(n % 16 + carry : Int)]
  | more + 1, n, carry =>
    let e := n % 16 + carry
    let up := (e + 8) / 16
    ((e : Int) - 16 * up) :: radix16From more (n / 16) up

/-- radix16(n): 64 digits, e[0] first (R222). -/
def radix16 (n : Nat) : List Int := radix16From 63 n 0

/-! ## Width-5 non-adjacent form (R224) -/

/-- The digits from one position on: `left` positions remain, `skip` of them are the zeros that follow a
digit, `n` is the scalar shifted down to the position and `carry` is the pending carry. -/
def naf5From : Nat → Nat → Nat → Nat → List Int
  | 0, _, _, _ => []
  | left + 1, skip + 1, n, carry => 0 :: naf5From left skip (n / 2) carry
  | left + 1, 0, n, carry =>
    let window := carry + n % 32
    if window % 2 = 0 then 0 :: naf5From left 0 (n / 2) carry
    else if window < 16 then (window : Int) :: naf5From left 4 (n / 2) 0
    else ((window : Int) - 32) :: naf5From left 4 (n / 2) 1

/-- naf5(n): 256 digits, z[0] first (R224). -/
def naf5 (n : Nat) : List Int := naf5From 256 0 n 0

/-- A digit as the byte DIG holds, 8-bit two's complement (R49, R222, R224). -/
def digitByte (e : Int) : Byte := BitVec.ofInt 8 e

/-- The digits as 256 DIG bytes: entries past the digits are 0 (R222). -/
def digBytes (e : List Int) : List Byte :=
  e.map digitByte ++ List.replicate (256 - e.length) 0

end Sys2Proof.Machine
end

