-- ==== Sys2Proof/Machine/Tables.lean ====
section
/-! DEFINITION. Lookup tables, constant-time selects and scalar multiplication: the helpers of
44_scalarmul.md, slot for slot. -/

namespace Sys2Proof.Machine

/-! ## Select helpers (R308) -/

/-- The scan of R308: every entry is looked at, and the one whose place (counted from `j`) is `xabs` is
taken. -/
def scanTable {α : Type} (xabs : Nat) : Nat → List α → α → α
  | _, [], t => t
  | j, e :: rest, t => scanTable xabs (j + 1) rest (if xabs = j then e else t)

/-- pn_select (tab, x) (R308), for −8 ≤ x ≤ 8. -/
def pnSelect (tab : Vector Pn 8) (x : Int) : Pn :=
  let t := scanTable x.natAbs 1 tab.toList pnIdentity
  if x < 0 then pnNeg t else t

/-- an_select (tab, x) (R308), for −8 ≤ x ≤ 8. -/
def anSelect (tab : Vector An 8) (x : Int) : An :=
  let t := scanTable x.natAbs 1 tab.toList anIdentity
  if x < 0 then anNeg t else t

/-- The entry of an 8-entry table at index n. Every index the rules use is below 8 (log 13). -/
def tableAt {α : Type} (tab : Vector α 8) (n : Nat) : α := tab.get (Fin.ofNat 8 n)

/-! ## Table builds (R300, R302, R304) -/

/-- Eight entries, each the successor of the one before it. -/
def chainTable {α : Type} (next : α → α) (t0 : α) : Vector α 8 :=
  let t1 := next t0
  let t2 := next t1
  let t3 := next t2
  let t4 := next t3
  let t5 := next t4
  let t6 := next t5
  let t7 := next t6
  #v[t0, t1, t2, t3, t4, t5, t6, t7]

/-- lut_build (R300): entry j is the PN form of (j+1)·A. -/
def buildLut (A : Ext) : Vector Pn 8 :=
  chainTable (fun t => extToPn (compToExt (extAddPn A t))) (extToPn A)

/-- nlut_build (R302): entry i is the PN form of (2i+1)·A. -/
def buildNlut (A : Ext) : Vector Pn 8 :=
  let A2 := edDbl A
  chainTable (fun t => extToPn (compToExt (extAddPn A2 t))) (extToPn A)

/-- an_build (R304): entry j is the AN form of (j+1)·Q. -/
def buildAn (Q : Ext) : Vector An 8 :=
  chainTable (fun t => extToAn (compToExt (extAddAn Q t))) (extToAn Q)

/-- The n sub-tables of bt_build from point Q on (R304): each next one is for 256 times the point. -/
def btRows : Nat → Ext → List (Vector An 8)
  | 0, _ => []
  | n + 1, Q => buildAn Q :: btRows n (edMulpow2 Q 8)

theorem btRows_length (n : Nat) (Q : Ext) : (btRows n Q).length = n := by
  induction n generalizing Q with
  | zero => rfl
  | succ n ih => simp [btRows, ih]

/-- bt_build (R304): 32 sub-tables. -/
def buildBt (A : Ext) : Vector (Vector An 8) 32 :=
  ⟨(btRows 32 A).toArray, by simp [btRows_length]⟩

/-- The reset content of BT: bt_build(B) (R305). -/
def btOfBasepoint : Vector (Vector An 8) 32 := buildBt basepoint

/-- ODD_ROM (R307): the AN forms of B, 3B, 5B, …, 15B. -/
def oddRom : Vector An 8 :=
  let B2 := edDbl basepoint
  (chainTable (fun Q => edAdd Q B2) basepoint).map extToAn

/-! ## Variable-base multiplication (R310) -/

/-- One digit of ed_smul: four doublings, then the addition of the selected entry. -/
def smulDigit (tab : Vector Pn 8) (c : Comp) (e : Int) : Comp :=
  let c4 := projDbl (compToProj (projDbl (compToProj (projDbl (compToProj (projDbl (compToProj c)))))))
  extAddPn (compToExt c4) (pnSelect tab e)

/-- ed_smul (A, n) (R310): the digits of n are taken from e[63] down to e[0]. -/
def edSmul (A : Ext) (n : Nat) : Ext :=
  let tab := buildLut A
  match (radix16 n).reverse with
  | [] => extIdentity
  | top :: rest =>
    compToExt (rest.foldl (smulDigit tab) (extAddPn extIdentity (pnSelect tab top)))

/-- ed_istf (R269): ℓ·P is the identity, ℓ taken as a stored scalar. -/
def edIstf (p : Ext) : Bool := edIsident (edSmul p groupL)

/-! ## Fixed-base multiplication (R311) -/

/-- The digits at even positions, lowest first. -/
def evenDigits : List Int → List Int
  | e :: _ :: rest => e :: evenDigits rest
  | e => e

/-- The digits at odd positions, lowest first. -/
def oddDigits : List Int → List Int
  | _ :: e :: rest => e :: oddDigits rest
  | _ => []

/-- One mixed addition of ed_bmul: sub-table and digit. -/
def bmulDigit (c : Ext) (te : Vector An 8 × Int) : Ext :=
  compToExt (extAddAn c (anSelect te.1 te.2))

/-- ed_bmul (T, n) (R311): the odd digits, a multiplication by 16, then the even digits; digit i uses
sub-table i div 2. -/
def edBmul (T : Vector (Vector An 8) 32) (n : Nat) : Ext :=
  let e := radix16 n
  let c := (T.toList.zip (oddDigits e)).foldl bmulDigit extIdentity
  let c16 := edMulpow2 c 4
  (T.toList.zip (evenDigits e)).foldl bmulDigit c16

/-! ## Variable-time double-base multiplication (R312) -/

/-- One step of ed_vtdbl: a doubling, then the additions and subtractions the two digits call for. -/
def vtdblDigit (tA : Vector Pn 8) (r : Proj) (z : Int × Int) : Proj :=
  let t := projDbl r
  let t := if 0 < z.1 then extAddPn (compToExt t) (tableAt tA (z.1.natAbs / 2)) else t
  let t := if z.1 < 0 then extSubPn (compToExt t) (tableAt tA (z.1.natAbs / 2)) else t
  let t := if 0 < z.2 then extAddAn (compToExt t) (tableAt oddRom (z.2.natAbs / 2)) else t
  let t := if z.2 < 0 then extSubAn (compToExt t) (tableAt oddRom (z.2.natAbs / 2)) else t
  compToProj t

/-- The search of R312 for the highest position where either digit is non-zero, over the digit pairs from
the top position down: it stops at position 0 at the latest, so at least one pair is left. -/
def skipLeadingZeros : List (Int × Int) → List (Int × Int)
  | [] => []
  | [z] => [z]
  | z :: rest => if z.1 = 0 ∧ z.2 = 0 then skipLeadingZeros rest else z :: rest

/-- ed_vtdbl (a, A, b) = a·A + b·B (R312). -/
def edVtdbl (a : Nat) (A : Ext) (b : Nat) : Ext :=
  let pairs := ((naf5 a).zip (naf5 b)).reverse
  let tA := buildNlut A
  projToExt ((skipLeadingZeros pairs).foldl (vtdblDigit tA) projIdentity)

end Sys2Proof.Machine
end

