-- ==== Sys2Proof/Machine/State.lean ====
section
/-! DEFINITION. The state of RDN-CORE as plain data, its value after reset, and the reasons a step can
stop. -/

namespace Sys2Proof.Machine

/-- The phase of the core sequencer (10_state.md R54). -/
inductive Phase where
  /-- Reset initialisation (R412); BUSY = 1. -/
  | init
  /-- Nothing executes; BUSY = 0. -/
  | idle
  /-- Command word `w` is accepted and executing; BUSY = 1. -/
  | exec (w : Word)
deriving DecidableEq, Repr

/-- One place in the total order of host transactions and sequencer steps (20_memory.md R83; log 1). -/
inductive HostEvent where
  /-- The host writes word `v` at byte offset `o` (R71). -/
  | write (o : Offset) (v : Word)
  /-- The host reads the word at byte offset `o` (R71). -/
  | read (o : Offset)
  /-- A clock edge with rst_n = 0 (R411; log 15). -/
  | resetPin
  /-- The sequencer's own step comes next: the end of INIT or the completion of the executing command
  (R54). -/
  | coreStep
deriving DecidableEq, Repr

/-- The state. Every field but the last three is architectural state or the sequencer's phase; STATUS.BUSY
is derived from `phase`, ID is a constant and CTRL holds no state. The last three are the model's own: no
command reads them. -/
structure State where
  /-- F0 to F15 (R31). -/
  f : Vector Fe 16
  /-- S0 to S15 (R33). -/
  sc : Vector Scalar 16
  /-- P0 to P15 (R36). -/
  p : Vector Point 16
  /-- K0 to K15; true is 1 (R38). -/
  k : Vector Bool 16
  /-- CMD (R42). -/
  cmd : Word
  /-- STATUS.ERR (R43). -/
  err : Bool
  /-- STATUS.ERRKIND (R43). -/
  errKind : BitVec 2
  /-- STATUS.ERRCAUSE (R43). -/
  errCause : BitVec 4
  /-- STATUS.OVF (R43). -/
  ovf : Bool
  /-- STATUS.DISC (R43). -/
  disc : Bool
  /-- STATUS.ERROP (R43). -/
  errOp : Byte
  /-- ERRCMD (R45). -/
  errCmd : Word
  /-- CMDCNT (R47). -/
  cmdCnt : Word
  /-- BUF and DIG (R48, R49) as (host offset, byte) pairs in canonical form: offsets strictly rising, no
  byte 0; an unlisted offset reads 0 (log 10). -/
  mem : List Host.Cell
  /-- LUT (R50). -/
  lut : Vector Pn 8
  /-- NLUT (R51). -/
  nlut : Vector Pn 8
  /-- BT (R52). -/
  bt : Vector (Vector An 8) 32
  /-- The sequencer phase (R54). -/
  phase : Phase
  /-- The events still to come, oldest first (log 1). -/
  pending : List HostEvent
  /-- The answer of the last host read, the rdata port (R91; log 4). -/
  rdata : Word
  /-- How many free draws have been taken (log 5). -/
  draws : Nat
deriving DecidableEq, Repr

/-- Why the machine could stop with a fault: never. Every interaction has a defined effect, "never a
fault" (70_reset_and_hazards.md R414), so the type has no member (log 16). -/
inductive Fault where
deriving DecidableEq, Repr

/-- Why the model could give no meaning. -/
inductive Refusal where
  /-- Raised by an arm of `exec` whose command has no meaning yet. Every command has one, so nothing
  raises it; it would be safe. -/
  | notModelled (mnemonic : String)
deriving DecidableEq, Repr

/-- The machine right after reset (70_reset_and_hazards.md R410, R411): every field as R410's table has
it, in phase INIT. BT already holds its reset content, which nothing can observe before INIT ends (log 6).
The last three fields are the model's own (log 1, 4, 5). -/
def State.reset : State where
  f := Vector.replicate 16 feZero
  sc := Vector.replicate 16 (Scalar.ofNat 0)
  p := Vector.replicate 16 (Point.ofExt extIdentity)
  k := Vector.replicate 16 false
  cmd := 0x00000000
  err := false
  errKind := 0
  errCause := 0
  ovf := false
  disc := false
  errOp := 0
  errCmd := 0x00000000
  cmdCnt := 0x00000000
  mem := []
  lut := Vector.replicate 8 pnIdentity
  nlut := Vector.replicate 8 pnIdentity
  bt := btOfBasepoint
  phase := .init
  pending := []
  rdata := 0x00000000
  draws := 0

end Sys2Proof.Machine
end

