-- ==== Sys2Proof/Machine/Flags.lean ====
section
/-! DEFINITION. The STATUS register and the codes of the error record (10_state.md R43, 60_exceptions.md
R370 to R373). RDN-CORE has no condition codes (R40). -/

namespace Sys2Proof.Machine

/-- The causes of an error, of both kinds (R372, R373). -/
inductive ErrorCause where
  | opcode
  | reserved
  | field
  | tag
  | index
  | exponent
  | scalarHighBit
  | scalarNoncanonical
  | edwardsNotSquare
  | ristrettoNoncanonicalOrNeg
  | ristrettoInvalid
deriving DecidableEq, Repr

/-- STATUS.ERRKIND of a cause: 2 for InvalidArgument (R370), 1 for InvalidEncoding (R371). -/
def errorKind : ErrorCause → BitVec 2
  | .opcode | .reserved | .field | .tag | .index | .exponent | .scalarHighBit => 2
  | .scalarNoncanonical | .edwardsNotSquare | .ristrettoNoncanonicalOrNeg | .ristrettoInvalid => 1

/-- STATUS.ERRCAUSE of a cause (R372, R373). -/
def errorCode : ErrorCause → BitVec 4
  | .opcode => 1
  | .reserved => 2
  | .field => 3
  | .tag => 4
  | .index => 5
  | .exponent => 6
  | .scalarHighBit => 7
  | .scalarNoncanonical => 1
  | .edwardsNotSquare => 2
  | .ristrettoNoncanonicalOrNeg => 3
  | .ristrettoInvalid => 4

/-- The cause a word that decodes to no command raises (R374, steps 1 and 2). -/
def decodeCause : DecodeError → ErrorCause
  | .opcode => .opcode
  | .reserved => .reserved

/-- STATUS.BUSY: 1 in INIT and EXEC, 0 in IDLE (R54). -/
def busy (s : State) : Bool :=
  match s.phase with
  | .init => true
  | .idle => false
  | .exec _ => true

/-- The STATUS word as a host read returns it (R43); reserved bits read 0. -/
def statusWord (s : State) : Word :=
  BitVec.ofNat 32
    ((busy s).toNat + s.err.toNat * 2 + s.errKind.toNat * 2 ^ 2 + s.errCause.toNat * 2 ^ 4 +
      s.ovf.toNat * 2 ^ 8 + s.disc.toNat * 2 ^ 9 + s.errOp.toNat * 2 ^ 16)

/-- The constant ID (R46). -/
def idWord : Word := 0x52353507

end Sys2Proof.Machine
end

