-- ==== Sys2Proof/Machine/Ops.lean ====
section
/-! DEFINITION. The named operations over registers and memory, the completion of a command, the error path
(the machine's only exception) and the return from it, and reset. -/

namespace Sys2Proof.Machine

/-! ## Register files (R31, R33, R36, R38): no register is hardwired -/

def State.getF (s : State) (r : Reg) : Fe := s.f.get r
def State.setF (s : State) (r : Reg) (x : Fe) : State := { s with f := s.f.set r x }
def State.getS (s : State) (r : Reg) : Scalar := s.sc.get r
def State.setS (s : State) (r : Reg) (n : Scalar) : State := { s with sc := s.sc.set r n }
def State.getP (s : State) (r : Reg) : Point := s.p.get r
def State.setP (s : State) (r : Reg) (q : Point) : State := { s with p := s.p.set r q }
def State.getK (s : State) (r : Reg) : Bool := s.k.get r
def State.setK (s : State) (r : Reg) (c : Bool) : State := { s with k := s.k.set r c }

/-! ## BUF and DIG: one canonical list of cells (R48, R49; log 10) -/

/-- The byte at an offset: what an unlisted offset reads as is 0, the reset content of BUF and DIG
(R410). -/
def memRead : List Host.Cell → Nat → Byte
  | [], _ => 0
  | c :: rest, a => if c.1 = a then c.2 else memRead rest a

/-- Write one byte, keeping the canonical form: offsets strictly rising, no byte 0. -/
def memWrite : List Host.Cell → Nat → Byte → List Host.Cell
  | [], a, b => if b = 0 then [] else [(a, b)]
  | c :: rest, a, b =>
    if c.1 < a then c :: memWrite rest a b
    else if c.1 = a then (if b = 0 then rest else (a, b) :: rest)
    else if b = 0 then c :: rest
    else (a, b) :: c :: rest

/-- The canonical form: offsets strictly rising from `lo` on, no byte 0. -/
def memWfFrom : Nat → List Host.Cell → Bool
  | _, [] => true
  | lo, c :: rest => decide (lo ≤ c.1) && c.2 != 0 && memWfFrom (c.1 + 1) rest

/-- Memory.wf: the list of cells is in canonical form. -/
def Memory.wf (m : List Host.Cell) : Bool := memWfFrom 0 m

/-- MemRead(addr, n) (R13): the little-endian integer of n bytes. -/
def readLE (m : List Host.Cell) : Nat → Nat → Nat
  | _, 0 => 0
  | a, n + 1 => (memRead m a).toNat + 256 * readLE m (a + 1) n

/-- MemWrite(addr, n, v) (R13): n bytes, little-endian. -/
def writeLE (m : List Host.Cell) : Nat → Nat → Nat → List Host.Cell
  | _, 0, _ => m
  | a, n + 1, v => writeLE (memWrite m a (BitVec.ofNat 8 (v % 256))) (a + 1) n (v / 256)

/-- Single bytes written from an offset on, as the recodings write DIG (R76, R222, R224). -/
def writeBytes (m : List Host.Cell) : Nat → List Byte → List Host.Cell
  | _, [] => m
  | a, b :: rest => writeBytes (memWrite m a b) (a + 1) rest

/-- The first offset of BUF (R48). -/
def bufBase : Nat := 0x100

/-- The first offset of DIG (R49). -/
def digBase : Nat := 0x200

/-- The first offset of BUF half h (R76, R104). -/
def halfBase (h : HalfField) : Nat := bufBase + 32 * h.val

/-- An offset of BUF, 0x100 to 0x13F (R72). -/
def inBuf (a : Nat) : Bool := decide (0x100 ≤ a) && decide (a < 0x140)

/-- An offset of DIG, 0x200 to 0x2FF (R72). -/
def inDig (a : Nat) : Bool := decide (0x200 ≤ a) && decide (a < 0x300)

/-- The 32 bytes of BUF half h as an integer (R76). -/
def State.readHalf (s : State) (h : HalfField) : Nat := readLE s.mem (halfBase h) 32

/-- The 64 bytes of BUF as an integer (R76). -/
def State.readBuf (s : State) : Nat := readLE s.mem bufBase 64

/-- Store 32 bytes into BUF half h (R76). -/
def State.writeHalf (s : State) (h : HalfField) (v : Nat) : State :=
  { s with mem := writeLE s.mem (halfBase h) 32 v }

/-- Store the digits into DIG[0..255], entries past the digits 0 (R222, R224). -/
def State.writeDig (s : State) (e : List Int) : State :=
  { s with mem := writeBytes s.mem digBase (digBytes e) }

/-! ## Completion and the error path -/

/-- The end of a command that passed every check: CMDCNT counts it and BUSY becomes 0 (R377, R47). -/
def commit (s : State) : State := { s with cmdCnt := s.cmdCnt + 1, phase := .idle }

/-- The error path (R376): command `w` raised `e`; the record is written, BUSY becomes 0, nothing else
changes. -/
def raiseError (w : Word) (e : ErrorCause) (s : State) : State :=
  { s with
    err := true
    errKind := errorKind e
    errCause := errorCode e
    errOp := w.setWidth 8
    errCmd := w
    phase := .idle }

/-- Leaving the error state, CTRL.ERRCLR (R44, R380): the record, OVF and DISC are cleared. -/
def clearErrors (s : State) : State :=
  { s with
    err := false
    errKind := 0
    errCause := 0
    errOp := 0
    ovf := false
    disc := false
    errCmd := 0 }

/-- What the checks and the computation of a command give: the state with all its results, or the cause it
raises. -/
abbrev Result := Except ErrorCause State

/-- The one indivisible step at the end of command `i` (R54): commit all results, or take the error path and
none of them (R376, R377). The word recorded is the command's own (log 11). -/
def finish (i : Instr) (s : State) (r : Result) : Host.Outcome State Fault Refusal :=
  match r with
  | .ok t => .next (commit t)
  | .error e => .next (raiseError (encode i) e s)

/-! ## Reset -/

/-- Reset (R410, R411): every piece of the machine's state takes its reset value. What the host has still
to do, the rdata port and the draw counter are not the machine's (log 1, 4, 5). -/
def resetCore (s : State) : State :=
  { State.reset with pending := s.pending, rdata := s.rdata, draws := s.draws }

/-- The end of INIT (R412): BT holds bt_build(B), BUSY becomes 0, CMDCNT does not count. -/
def endInit (s : State) : State := { s with bt := btOfBasepoint, phase := .idle }

/-- Acceptance of command word `w` (R42, case 3). -/
def accept (w : Word) (s : State) : State := { s with cmd := w, phase := .exec w }

end Sys2Proof.Machine
end

