-- ==== Sys2Proof/Machine/Operands.lean ====
section
/-! DEFINITION. The operand forms of 30_encoding.md R103 to R105 and the tag requirements of 43_point.md
R231, each as a check that raises or goes on. A command lists its checks in the order of 60_exceptions.md
R374. -/

namespace Sys2Proof.Machine

/-- Go on when `c` holds, else raise `e`. -/
def require (c : Bool) (e : ErrorCause) (k : Result) : Result := if c then k else .error e

/-- A half selector must be 0 or 1, else FIELD (R104). -/
def needHalf (h : HalfField) (k : Result) : Result := require (decide (h.val ≤ 1)) .field k

/-- An immediate of kind u1, fidx, sidx, pidx, slot or tag is at most `max`, else FIELD (R103). -/
def needAtMost (imm : Byte) (max : Nat) (k : Result) : Result :=
  require (decide (imm.toNat ≤ max)) .field k

/-- sint8 of an immediate (R9): its two's-complement value. -/
def sint8 (imm : Byte) : Int := imm.toInt

/-- A dig8 immediate lies in −8 to 8, else INDEX (R103). -/
def needDig8 (imm : Byte) (k : Int → Result) : Result :=
  require (decide (-8 ≤ sint8 imm) && decide (sint8 imm ≤ 8)) .index (k (sint8 imm))

/-- An odd immediate is 1, 3, …, 15, else INDEX (R103). -/
def needOdd (imm : Byte) (k : Result) : Result :=
  require (decide (imm.toNat ≤ 15) && decide (imm.toNat % 2 = 1)) .index k

/-- A t8 index is at most 31, else INDEX (R105). -/
def needSubTable (t : Byte) (k : Fin 32 → Result) : Result :=
  if h : t.toNat < 32 then k ⟨t.toNat, h⟩ else .error .index

/-- A k immediate is positive, else EXPONENT (R103). -/
def needExponent (imm : Byte) (k : Result) : Result := require (decide (imm.toNat ≠ 0)) .exponent k

/-- A point source must hold tag `t`, else TAG (R231). -/
def needTag (q : Point) (t : Tag) (k : Result) : Result := require (decide (q.tag = t)) .tag k

/-- The tag an immediate of kind tag names, 0 to 4 (R37, R103). -/
def tagOfCode : Nat → Tag
  | 0 => .ext
  | 1 => .proj
  | 2 => .comp
  | 3 => .pn
  | _ => .an

end Sys2Proof.Machine
end

