-- ==== Sys2Proof/Machine/CtPrim.lean ====
section
/-! DEFINITION. The constant-time primitives and choice commands (40_ctprim.md R131 to R138). -/

namespace Sys2Proof.Machine

/-- NOP (R131). -/
def execNop (s : State) : Host.Outcome State Fault Refusal := finish .nop s (.ok s)

/-- K_SET (R132). -/
def execKSet (d : Reg) (imm : Byte) (s : State) : Host.Outcome State Fault Refusal :=
  finish (.kSet d imm) s (needAtMost imm 1 (.ok (s.setK d (decide (imm.toNat = 1)))))

/-- K_NOT (R133). -/
def execKNot (d a : Reg) (s : State) : Host.Outcome State Fault Refusal :=
  finish (.kNot d a) s (.ok (s.setK d (!s.getK a)))

/-- K_AND (R134). -/
def execKAnd (d a b : Reg) (s : State) : Host.Outcome State Fault Refusal :=
  finish (.kAnd d a b) s (.ok (s.setK d (s.getK a && s.getK b)))

/-- K_OR (R135). -/
def execKOr (d a b : Reg) (s : State) : Host.Outcome State Fault Refusal :=
  finish (.kOr d a b) s (.ok (s.setK d (s.getK a || s.getK b)))

/-- K_XOR (R136). -/
def execKXor (d a b : Reg) (s : State) : Host.Outcome State Fault Refusal :=
  finish (.kXor d a b) s (.ok (s.setK d (s.getK a != s.getK b)))

/-- BUF_EQ (R137): the two halves are compared as bytes, that is as 256-bit integers. -/
def execBufEq (d : Reg) (s : State) : Host.Outcome State Fault Refusal :=
  finish (.bufEq d) s (.ok (s.setK d (s.readHalf 0 == s.readHalf 1)))

/-- BUF_BIT (R138). -/
def execBufBit (d : Reg) (h : HalfField) (imm : Byte) (s : State) :
    Host.Outcome State Fault Refusal :=
  finish (.bufBit d h imm) s (needHalf h (.ok (s.setK d ((s.readHalf h).testBit imm.toNat))))

end Sys2Proof.Machine
end

