-- ==== Sys2Proof/Machine/FieldCmd.lean ====
section
/-! DEFINITION. The field commands (41_field.md R162 to R182). -/

namespace Sys2Proof.Machine

/-- FE_LOAD (R162). -/
def execFeLoad (d : Reg) (h : HalfField) (s : State) : Host.Outcome State Fault Refusal :=
  finish (.feLoad d h) s (needHalf h (.ok (s.setF d (feFromBytes (s.readHalf h)))))

/-- FE_STORE (R163). -/
def execFeStore (a : Reg) (h : HalfField) (s : State) : Host.Outcome State Fault Refusal :=
  finish (.feStore a h) s (needHalf h (.ok (s.writeHalf h (feToBytes (s.getF a)))))

/-- FE_MOV (R164). -/
def execFeMov (d a : Reg) (s : State) : Host.Outcome State Fault Refusal :=
  finish (.feMov d a) s (.ok (s.setF d (s.getF a)))

/-- FE_CONST (R165). -/
def execFeConst (d : Reg) (imm : Byte) (s : State) : Host.Outcome State Fault Refusal :=
  finish (.feConst d imm) s
    (needAtMost imm 9 (.ok (s.setF d (feConstRom.getD imm.toNat feZero))))

/-- FE_ADD (R166). -/
def execFeAdd (d a b : Reg) (s : State) : Host.Outcome State Fault Refusal :=
  finish (.feAdd d a b) s (.ok (s.setF d (fadd (s.getF a) (s.getF b))))

/-- FE_SUB (R167). -/
def execFeSub (d a b : Reg) (s : State) : Host.Outcome State Fault Refusal :=
  finish (.feSub d a b) s (.ok (s.setF d (fsub (s.getF a) (s.getF b))))

/-- FE_NEG (R168). -/
def execFeNeg (d a : Reg) (s : State) : Host.Outcome State Fault Refusal :=
  finish (.feNeg d a) s (.ok (s.setF d (fneg (s.getF a))))

/-- FE_MUL (R169). -/
def execFeMul (d a b : Reg) (s : State) : Host.Outcome State Fault Refusal :=
  finish (.feMul d a b) s (.ok (s.setF d (fmul (s.getF a) (s.getF b))))

/-- FE_SQ (R170). -/
def execFeSq (d a : Reg) (s : State) : Host.Outcome State Fault Refusal :=
  finish (.feSq d a) s (.ok (s.setF d (fsq (s.getF a))))

/-- FE_SQ2 (R171). -/
def execFeSq2 (d a : Reg) (s : State) : Host.Outcome State Fault Refusal :=
  finish (.feSq2 d a) s (.ok (s.setF d (fsq2 (s.getF a))))

/-- FE_INV (R172). -/
def execFeInv (d a : Reg) (s : State) : Host.Outcome State Fault Refusal :=
  finish (.feInv d a) s (.ok (s.setF d (finv (s.getF a))))

/-- FE_POWP58 (R174). -/
def execFePowp58 (d a : Reg) (s : State) : Host.Outcome State Fault Refusal :=
  finish (.fePowp58 d a) s (.ok (s.setF d (fpowp58 (s.getF a))))

/-- FE_SEL (R175). -/
def execFeSel (d a b c : Reg) (s : State) : Host.Outcome State Fault Refusal :=
  finish (.feSel d a b c) s (.ok (s.setF d (fsel (s.getF a) (s.getF b) (s.getK c))))

/-- FE_ISNEG (R176). -/
def execFeIsneg (d a : Reg) (s : State) : Host.Outcome State Fault Refusal :=
  finish (.feIsneg d a) s (.ok (s.setK d (isneg (s.getF a))))

/-- FE_ISZERO (R177). -/
def execFeIszero (d a : Reg) (s : State) : Host.Outcome State Fault Refusal :=
  finish (.feIszero d a) s (.ok (s.setK d (iszero (s.getF a))))

/-- FE_EQ (R178). -/
def execFeEq (d a b : Reg) (s : State) : Host.Outcome State Fault Refusal :=
  finish (.feEq d a b) s (.ok (s.setK d (feq (s.getF a) (s.getF b))))

/-- FE_CTABS (R179). -/
def execFeCtabs (d a : Reg) (s : State) : Host.Outcome State Fault Refusal :=
  finish (.feCtabs d a) s (.ok (s.setF d (ctabs (s.getF a))))

/-- FE_SQRTRATIO (R182): r to F[d], was_square to K[c]. -/
def execFeSqrtratio (d a b c : Reg) (s : State) : Host.Outcome State Fault Refusal :=
  let wr := sqrtRatioM1 (s.getF a) (s.getF b)
  finish (.feSqrtratio d a b c) s (.ok ((s.setF d wr.2).setK c wr.1))

end Sys2Proof.Machine
end

