-- ==== Sys2Proof/Machine/PointCmd.lean ====
section
/-! DEFINITION. The point commands (43_point.md R240 to R269). -/

namespace Sys2Proof.Machine

/-- PT_CONST (R240). -/
def execPtConst (d : Reg) (imm : Byte) (s : State) : Host.Outcome State Fault Refusal :=
  finish (.ptConst d imm) s
    (needAtMost imm 4 (.ok (s.setP d (ptConstRom.getD imm.toNat (Point.ofExt extIdentity)))))

/-- PT_MOV (R241). -/
def execPtMov (d a : Reg) (s : State) : Host.Outcome State Fault Refusal :=
  finish (.ptMov d a) s (.ok (s.setP d (s.getP a)))

/-- PT_GET (R242). -/
def execPtGet (d a : Reg) (imm : Byte) (s : State) : Host.Outcome State Fault Refusal :=
  finish (.ptGet d a imm) s (needAtMost imm 3 (.ok (s.setF d ((s.getP a).slot imm.toNat))))

/-- PT_SET (R243). -/
def execPtSet (d a : Reg) (imm : Byte) (s : State) : Host.Outcome State Fault Refusal :=
  finish (.ptSet d a imm) s
    (needAtMost imm 3 (.ok (s.setP d ((s.getP d).setSlot imm.toNat (s.getF a)))))

/-- PT_SETTAG (R244). -/
def execPtSettag (d : Reg) (imm : Byte) (s : State) : Host.Outcome State Fault Refusal :=
  finish (.ptSettag d imm) s
    (needAtMost imm 4 (.ok (s.setP d { s.getP d with tag := tagOfCode imm.toNat })))

/-- PT_SEL (R245): the two sources hold the same tag. -/
def execPtSel (d a b c : Reg) (s : State) : Host.Outcome State Fault Refusal :=
  finish (.ptSel d a b c) s
    (needTag (s.getP b) (s.getP a).tag
      (.ok (s.setP d (if s.getK c then s.getP b else s.getP a))))

/-- PT_NEG (R246). -/
def execPtNeg (d a : Reg) (s : State) : Host.Outcome State Fault Refusal :=
  let q := s.getP a
  finish (.ptNeg d a) s
    (match q.tag with
    | .ext => .ok (s.setP d (Point.ofExt (extNeg q.asExt)))
    | .pn => .ok (s.setP d (Point.ofPn (pnNeg q.asPn)))
    | .an => .ok (s.setP d (Point.ofAn (anNeg q.asAn)))
    | .proj => .error .tag
    | .comp => .error .tag)

/-! ## Conversions -/

/-- EXT_TO_PROJ (R247). -/
def execExtToProj (d a : Reg) (s : State) : Host.Outcome State Fault Refusal :=
  finish (.extToProj d a) s
    (needTag (s.getP a) .ext (.ok (s.setP d (Point.ofProj (extToProj (s.getP a).asExt)))))

/-- EXT_TO_PN (R248). -/
def execExtToPn (d a : Reg) (s : State) : Host.Outcome State Fault Refusal :=
  finish (.extToPn d a) s
    (needTag (s.getP a) .ext (.ok (s.setP d (Point.ofPn (extToPn (s.getP a).asExt)))))

/-- EXT_TO_AN (R249). -/
def execExtToAn (d a : Reg) (s : State) : Host.Outcome State Fault Refusal :=
  finish (.extToAn d a) s
    (needTag (s.getP a) .ext (.ok (s.setP d (Point.ofAn (extToAn (s.getP a).asExt)))))

/-- PROJ_TO_EXT (R250). -/
def execProjToExt (d a : Reg) (s : State) : Host.Outcome State Fault Refusal :=
  finish (.projToExt d a) s
    (needTag (s.getP a) .proj (.ok (s.setP d (Point.ofExt (projToExt (s.getP a).asProj)))))

/-- COMP_TO_PROJ (R251). -/
def execCompToProj (d a : Reg) (s : State) : Host.Outcome State Fault Refusal :=
  finish (.compToProj d a) s
    (needTag (s.getP a) .comp (.ok (s.setP d (Point.ofProj (compToProj (s.getP a).asComp)))))

/-- COMP_TO_EXT (R252). -/
def execCompToExt (d a : Reg) (s : State) : Host.Outcome State Fault Refusal :=
  finish (.compToExt d a) s
    (needTag (s.getP a) .comp (.ok (s.setP d (Point.ofExt (compToExt (s.getP a).asComp)))))

/-- PN_TO_EXT (R253). -/
def execPnToExt (d a : Reg) (s : State) : Host.Outcome State Fault Refusal :=
  finish (.pnToExt d a) s
    (needTag (s.getP a) .pn (.ok (s.setP d (Point.ofExt (pnToExt (s.getP a).asPn)))))

/-- AN_TO_EXT (R254). -/
def execAnToExt (d a : Reg) (s : State) : Host.Outcome State Fault Refusal :=
  finish (.anToExt d a) s
    (needTag (s.getP a) .an (.ok (s.setP d (Point.ofExt (anToExt (s.getP a).asAn)))))

/-! ## Group law -/

/-- PROJ_DBL (R255). -/
def execProjDbl (d a : Reg) (s : State) : Host.Outcome State Fault Refusal :=
  finish (.projDbl d a) s
    (needTag (s.getP a) .proj (.ok (s.setP d (Point.ofComp (projDbl (s.getP a).asProj)))))

/-- EXT_ADD_PN (R256). -/
def execExtAddPn (d a b : Reg) (s : State) : Host.Outcome State Fault Refusal :=
  finish (.extAddPn d a b) s
    (needTag (s.getP a) .ext (needTag (s.getP b) .pn
      (.ok (s.setP d (Point.ofComp (extAddPn (s.getP a).asExt (s.getP b).asPn))))))

/-- EXT_SUB_PN (R257). -/
def execExtSubPn (d a b : Reg) (s : State) : Host.Outcome State Fault Refusal :=
  finish (.extSubPn d a b) s
    (needTag (s.getP a) .ext (needTag (s.getP b) .pn
      (.ok (s.setP d (Point.ofComp (extSubPn (s.getP a).asExt (s.getP b).asPn))))))

/-- EXT_ADD_AN (R258). -/
def execExtAddAn (d a b : Reg) (s : State) : Host.Outcome State Fault Refusal :=
  finish (.extAddAn d a b) s
    (needTag (s.getP a) .ext (needTag (s.getP b) .an
      (.ok (s.setP d (Point.ofComp (extAddAn (s.getP a).asExt (s.getP b).asAn))))))

/-- EXT_SUB_AN (R259). -/
def execExtSubAn (d a b : Reg) (s : State) : Host.Outcome State Fault Refusal :=
  finish (.extSubAn d a b) s
    (needTag (s.getP a) .ext (needTag (s.getP b) .an
      (.ok (s.setP d (Point.ofComp (extSubAn (s.getP a).asExt (s.getP b).asAn))))))

/-- ED_ADD (R260). -/
def execEdAdd (d a b : Reg) (s : State) : Host.Outcome State Fault Refusal :=
  finish (.edAdd d a b) s
    (needTag (s.getP a) .ext (needTag (s.getP b) .ext
      (.ok (s.setP d (Point.ofExt (edAdd (s.getP a).asExt (s.getP b).asExt))))))

/-- ED_SUB (R261). -/
def execEdSub (d a b : Reg) (s : State) : Host.Outcome State Fault Refusal :=
  finish (.edSub d a b) s
    (needTag (s.getP a) .ext (needTag (s.getP b) .ext
      (.ok (s.setP d (Point.ofExt (edSub (s.getP a).asExt (s.getP b).asExt))))))

/-- ED_DBL (R262). -/
def execEdDbl (d a : Reg) (s : State) : Host.Outcome State Fault Refusal :=
  finish (.edDbl d a) s
    (needTag (s.getP a) .ext (.ok (s.setP d (Point.ofExt (edDbl (s.getP a).asExt)))))

/-- ED_MULPOW2 (R263): TAG is checked before EXPONENT. -/
def execEdMulpow2 (d a : Reg) (imm : Byte) (s : State) : Host.Outcome State Fault Refusal :=
  finish (.edMulpow2 d a imm) s
    (needTag (s.getP a) .ext (needExponent imm
      (.ok (s.setP d (Point.ofExt (edMulpow2 (s.getP a).asExt imm.toNat))))))

/-! ## Encoding -/

/-- ED_DECODE (R264). -/
def execEdDecode (d : Reg) (h : HalfField) (s : State) : Host.Outcome State Fault Refusal :=
  finish (.edDecode d h) s
    (needHalf h
      (match edDecompress (s.readHalf h) with
      | some e => .ok (s.setP d (Point.ofExt e))
      | none => .error .edwardsNotSquare))

/-- ED_ENCODE (R265): FIELD is checked before TAG. -/
def execEdEncode (a : Reg) (h : HalfField) (s : State) : Host.Outcome State Fault Refusal :=
  finish (.edEncode a h) s
    (needHalf h (needTag (s.getP a) .ext (.ok (s.writeHalf h (edCompress (s.getP a).asExt)))))

/-! ## Predicates -/

/-- ED_EQ (R266). -/
def execEdEq (d a b : Reg) (s : State) : Host.Outcome State Fault Refusal :=
  finish (.edEq d a b) s
    (needTag (s.getP a) .ext (needTag (s.getP b) .ext
      (.ok (s.setK d (edEq (s.getP a).asExt (s.getP b).asExt)))))

/-- ED_ISIDENT (R267). -/
def execEdIsident (d a : Reg) (s : State) : Host.Outcome State Fault Refusal :=
  finish (.edIsident d a) s
    (needTag (s.getP a) .ext (.ok (s.setK d (edIsident (s.getP a).asExt))))

/-- ED_ISSMALL (R268). -/
def execEdIssmall (d a : Reg) (s : State) : Host.Outcome State Fault Refusal :=
  finish (.edIssmall d a) s
    (needTag (s.getP a) .ext (.ok (s.setK d (edIssmall (s.getP a).asExt))))

/-- ED_ISTF (R269). -/
def execEdIstf (d a : Reg) (s : State) : Host.Outcome State Fault Refusal :=
  finish (.edIstf d a) s
    (needTag (s.getP a) .ext (.ok (s.setK d (edIstf (s.getP a).asExt))))

end Sys2Proof.Machine
end

