-- ==== Sys2Proof/Machine/RistrettoMap.lean ====
section
/-! DEFINITION. The Ristretto255 procedures of 45_ristretto.md on typed values; a byte string stands for its
little-endian integer (log 19). -/

namespace Sys2Proof.Machine

/-- What RI_DECODE finds in a 32-byte string (R340). -/
inductive RiDecoded where
  | noncanonicalOrNeg
  | invalid
  | element (e : Ext)
deriving DecidableEq, Repr

/-- The decoding of RI_DECODE (R340). -/
def riDecompress (b : Nat) : RiDecoded :=
  let s := feFromBytes b
  if feToBytes s ≠ b ∨ isneg s = true then .noncanonicalOrNeg
  else
    let ss := fsq s
    let u1 := fsub feOne ss
    let u2 := fadd feOne ss
    let u2Sqr := fsq u2
    let v := fsub (fneg (fmul feD (fsq u1))) u2Sqr
    let r := invsqrt (fmul v u2Sqr)
    let denX := fmul r.2 u2
    let denY := fmul (fmul r.2 denX) v
    let x := ctabs (fmul (fadd s s) denX)
    let y := fmul u1 denY
    let t := fmul x y
    if r.1 = false ∨ isneg t = true ∨ feq y feZero = true then .invalid
    else .element ⟨x, y, feOne, t⟩

/-- The encoding of RI_ENCODE (R341), as the little-endian integer of the 32 bytes. -/
def riCompress (p : Ext) : Nat :=
  let u1 := fmul (fadd p.Z p.Y) (fsub p.Z p.Y)
  let u2 := fmul p.X p.Y
  let I := (invsqrt (fmul u1 (fsq u2))).2
  let den1 := fmul I u1
  let den2 := fmul I u2
  let zInv := fmul den1 (fmul den2 p.T)
  let iX := fmul p.X feSqrtM1
  let iY := fmul p.Y feSqrtM1
  let enchanted := fmul den1 feInvsqrtAMinusD
  let rotate := isneg (fmul p.T zInv)
  let X' := fsel p.X iY rotate
  let Y' := fsel p.Y iX rotate
  let den := fsel den2 enchanted rotate
  let Y'' := fsel Y' (fneg Y') (isneg (fmul X' zInv))
  let s := ctabs (fmul den (fsub p.Z Y''))
  feToBytes s

/-- ri_eq (R342): either cross product agrees. -/
def riEq (p q : Ext) : Bool :=
  feq (fmul p.X q.Y) (fmul p.Y q.X) || feq (fmul p.X q.X) (fmul p.Y q.Y)

/-- ri_map (r0) (R343). -/
def riMap (r0 : Fe) : Ext :=
  let r := fmul feSqrtM1 (fsq r0)
  let Ns := fmul (fadd r feOne) feOneMinusDSq
  let Dn := fmul (fsub feMinusOne (fmul feD r)) (fadd r feD)
  let sq := sqrtRatioM1 Ns Dn
  let s1 := fmul sq.2 r0
  let s' := fsel s1 (fneg s1) (!isneg s1)
  let s := fsel sq.2 s' (!sq.1)
  let c := fsel feMinusOne r (!sq.1)
  let Nt := fsub (fmul (fmul c (fsub r feOne)) feDMinusOneSq) Dn
  let sSq := fsq s
  compToExt
    ⟨fmul (fadd s s) Dn, fsub feOne sSq, fmul Nt feSqrtAdMinusOne, fadd feOne sSq⟩

/-- The map of RI_FROMUNI (R344) on its 64-byte input: byte 0 is the least significant. -/
def riFromUniform (b : Nat) : Ext :=
  edAdd (riMap (feFromBytes (b % 2 ^ 256))) (riMap (feFromBytes (b / 2 ^ 256)))

end Sys2Proof.Machine
end

