-- ==== Sys2Proof/Machine/RistrettoCmd.lean ====
section
/-! DEFINITION. The Ristretto255 commands (45_ristretto.md R340 to R344). -/

namespace Sys2Proof.Machine

/-- RI_DECODE (R340). -/
def execRiDecode (d : Reg) (h : HalfField) (s : State) : Host.Outcome State Fault Refusal :=
  finish (.riDecode d h) s
    (needHalf h
      (match riDecompress (s.readHalf h) with
      | .noncanonicalOrNeg => .error .ristrettoNoncanonicalOrNeg
      | .invalid => .error .ristrettoInvalid
      | .element e => .ok (s.setP d (Point.ofExt e))))

/-- RI_ENCODE (R341): FIELD is checked before TAG. -/
def execRiEncode (a : Reg) (h : HalfField) (s : State) : Host.Outcome State Fault Refusal :=
  finish (.riEncode a h) s
    (needHalf h (needTag (s.getP a) .ext (.ok (s.writeHalf h (riCompress (s.getP a).asExt)))))

/-- RI_EQ (R342). -/
def execRiEq (d a b : Reg) (s : State) : Host.Outcome State Fault Refusal :=
  finish (.riEq d a b) s
    (needTag (s.getP a) .ext (needTag (s.getP b) .ext
      (.ok (s.setK d (riEq (s.getP a).asExt (s.getP b).asExt)))))

/-- RI_MAP (R343). -/
def execRiMap (d a : Reg) (s : State) : Host.Outcome State Fault Refusal :=
  finish (.riMap d a) s (.ok (s.setP d (Point.ofExt (riMap (s.getF a)))))

/-- RI_FROMUNI (R344). -/
def execRiFromuni (d : Reg) (s : State) : Host.Outcome State Fault Refusal :=
  finish (.riFromuni d) s (.ok (s.setP d (Point.ofExt (riFromUniform s.readBuf))))

end Sys2Proof.Machine
end

