-- ==== Sys2Proof/Machine/ScalarCmd.lean ====
section
/-! DEFINITION. The scalar commands (42_scalar.md R211 to R227). -/

namespace Sys2Proof.Machine

/-- SC_LOAD (R211): the high bit is tested before the range. -/
def execScLoad (d : Reg) (h : HalfField) (s : State) : Host.Outcome State Fault Refusal :=
  let n := s.readHalf h
  finish (.scLoad d h) s
    (needHalf h
      (require (!n.testBit 255) .scalarHighBit
        (require (decide (n < groupL)) .scalarNoncanonical (.ok (s.setS d (Scalar.ofNat n))))))

/-- SC_LOADBITS (R213): bit 255 is cleared. -/
def execScLoadbits (d : Reg) (h : HalfField) (s : State) : Host.Outcome State Fault Refusal :=
  finish (.scLoadbits d h) s (needHalf h (.ok (s.setS d (Scalar.ofNat (s.readHalf h)))))

/-- SC_LOADWIDE (R212). -/
def execScLoadwide (d : Reg) (s : State) : Host.Outcome State Fault Refusal :=
  finish (.scLoadwide d) s (.ok (s.setS d (scReduced s.readBuf)))

/-- SC_STORE (R214): the stored integer, without reduction. -/
def execScStore (a : Reg) (h : HalfField) (s : State) : Host.Outcome State Fault Refusal :=
  finish (.scStore a h) s (needHalf h (.ok (s.writeHalf h (s.getS a).val)))

/-- SC_MOV (R215). -/
def execScMov (d a : Reg) (s : State) : Host.Outcome State Fault Refusal :=
  finish (.scMov d a) s (.ok (s.setS d (s.getS a)))

/-- SC_CONST (R216): 0, 1 or ℓ. -/
def execScConst (d : Reg) (imm : Byte) (s : State) : Host.Outcome State Fault Refusal :=
  finish (.scConst d imm) s
    (needAtMost imm 2 (.ok (s.setS d (Scalar.ofNat ([0, 1, groupL].getD imm.toNat 0)))))

/-- SC_ADD (R217). -/
def execScAdd (d a b : Reg) (s : State) : Host.Outcome State Fault Refusal :=
  finish (.scAdd d a b) s (.ok (s.setS d (scAddMod (s.getS a) (s.getS b))))

/-- SC_SUB (R218). -/
def execScSub (d a b : Reg) (s : State) : Host.Outcome State Fault Refusal :=
  finish (.scSub d a b) s (.ok (s.setS d (scSubMod (s.getS a) (s.getS b))))

/-- SC_MUL (R219). -/
def execScMul (d a b : Reg) (s : State) : Host.Outcome State Fault Refusal :=
  finish (.scMul d a b) s (.ok (s.setS d (scMulMod (s.getS a) (s.getS b))))

/-- SC_MULADD (R220). -/
def execScMuladd (d a b c : Reg) (s : State) : Host.Outcome State Fault Refusal :=
  finish (.scMuladd d a b c) s (.ok (s.setS d (scMulAddMod (s.getS a) (s.getS b) (s.getS c))))

/-- SC_REDUCE (R221). -/
def execScReduce (d a : Reg) (s : State) : Host.Outcome State Fault Refusal :=
  finish (.scReduce d a) s (.ok (s.setS d (scReduced (s.getS a).val)))

/-- SC_MONTMUL (R226). -/
def execScMontmul (d a b : Reg) (s : State) : Host.Outcome State Fault Refusal :=
  finish (.scMontmul d a b) s (.ok (s.setS d (montgomeryMul (s.getS a) (s.getS b))))

/-- SC_RADIX16 (R222). -/
def execScRadix16 (a : Reg) (s : State) : Host.Outcome State Fault Refusal :=
  finish (.scRadix16 a) s (.ok (s.writeDig (radix16 (s.getS a).val)))

/-- SC_NAF5 (R224). -/
def execScNaf5 (a : Reg) (s : State) : Host.Outcome State Fault Refusal :=
  finish (.scNaf5 a) s (.ok (s.writeDig (naf5 (s.getS a).val)))

/-- SC_EQ (R227): stored integers are compared, not residues. -/
def execScEq (d a b : Reg) (s : State) : Host.Outcome State Fault Refusal :=
  finish (.scEq d a b) s (.ok (s.setK d ((s.getS a).val == (s.getS b).val)))

end Sys2Proof.Machine
end

