-- ==== Sys2Proof/Machine/TableCmd.lean ====
section
/-! DEFINITION. The table commands and the scalar multiplications (44_scalarmul.md R300 to R312). -/

namespace Sys2Proof.Machine

/-- LUT_BUILD (R300). -/
def execLutBuild (a : Reg) (s : State) : Host.Outcome State Fault Refusal :=
  finish (.lutBuild a) s
    (needTag (s.getP a) .ext (.ok { s with lut := buildLut (s.getP a).asExt }))

/-- LUT_SEL (R301). -/
def execLutSel (d : Reg) (imm : Byte) (s : State) : Host.Outcome State Fault Refusal :=
  finish (.lutSel d imm) s
    (needDig8 imm fun x => .ok (s.setP d (Point.ofPn (pnSelect s.lut x))))

/-- NLUT_BUILD (R302). -/
def execNlutBuild (a : Reg) (s : State) : Host.Outcome State Fault Refusal :=
  finish (.nlutBuild a) s
    (needTag (s.getP a) .ext (.ok { s with nlut := buildNlut (s.getP a).asExt }))

/-- NLUT_SEL (R303). -/
def execNlutSel (d : Reg) (imm : Byte) (s : State) : Host.Outcome State Fault Refusal :=
  finish (.nlutSel d imm) s
    (needOdd imm (.ok (s.setP d (Point.ofPn (tableAt s.nlut (imm.toNat / 2))))))

/-- BT_BUILD (R304). -/
def execBtBuild (a : Reg) (s : State) : Host.Outcome State Fault Refusal :=
  finish (.btBuild a) s
    (needTag (s.getP a) .ext (.ok { s with bt := buildBt (s.getP a).asExt }))

/-- BT_SEL (R306): t8 is checked before dig8. -/
def execBtSel (d : Reg) (t : Byte) (imm : Byte) (s : State) : Host.Outcome State Fault Refusal :=
  finish (.btSel d t imm) s
    (needSubTable t fun i => needDig8 imm fun x =>
      .ok (s.setP d (Point.ofAn (anSelect (s.bt.get i) x))))

/-- ED_SMUL (R310): LUT and DIG are neither read nor written. -/
def execEdSmul (d a b : Reg) (s : State) : Host.Outcome State Fault Refusal :=
  finish (.edSmul d a b) s
    (needTag (s.getP a) .ext
      (.ok (s.setP d (Point.ofExt (edSmul (s.getP a).asExt (s.getS b).val)))))

/-- ED_BMUL (R311). -/
def execEdBmul (d a : Reg) (s : State) : Host.Outcome State Fault Refusal :=
  finish (.edBmul d a) s (.ok (s.setP d (Point.ofExt (edBmul s.bt (s.getS a).val))))

/-- ED_VTDBL (R312): S[a]·P[b] + S[c]·B. -/
def execEdVtdbl (d a b c : Reg) (s : State) : Host.Outcome State Fault Refusal :=
  finish (.edVtdbl d a b c) s
    (needTag (s.getP b) .ext
      (.ok (s.setP d (Point.ofExt (edVtdbl (s.getS a).val (s.getP b).asExt (s.getS c).val)))))

end Sys2Proof.Machine
end

