-- ==== Sys2Proof/Machine/Dispatch.lean ====
section
/-! DEFINITION. The completion step of each command: one arm per constructor of Instr. -/

namespace Sys2Proof.Machine

def exec (i : Instr) (s : State) : Host.Outcome State Fault Refusal :=
  match i with
  | .nop => Sys2Proof.Machine.execNop s
  | .kSet d imm => Sys2Proof.Machine.execKSet d imm s
  | .kNot d a => Sys2Proof.Machine.execKNot d a s
  | .kAnd d a b => Sys2Proof.Machine.execKAnd d a b s
  | .kOr d a b => Sys2Proof.Machine.execKOr d a b s
  | .kXor d a b => Sys2Proof.Machine.execKXor d a b s
  | .bufEq d => Sys2Proof.Machine.execBufEq d s
  | .bufBit d h imm => Sys2Proof.Machine.execBufBit d h imm s
  | .feLoad d h => Sys2Proof.Machine.execFeLoad d h s
  | .feStore a h => Sys2Proof.Machine.execFeStore a h s
  | .feMov d a => Sys2Proof.Machine.execFeMov d a s
  | .feConst d imm => Sys2Proof.Machine.execFeConst d imm s
  | .feAdd d a b => Sys2Proof.Machine.execFeAdd d a b s
  | .feSub d a b => Sys2Proof.Machine.execFeSub d a b s
  | .feNeg d a => Sys2Proof.Machine.execFeNeg d a s
  | .feMul d a b => Sys2Proof.Machine.execFeMul d a b s
  | .feSq d a => Sys2Proof.Machine.execFeSq d a s
  | .feSq2 d a => Sys2Proof.Machine.execFeSq2 d a s
  | .feInv d a => Sys2Proof.Machine.execFeInv d a s
  | .fePowp58 d a => Sys2Proof.Machine.execFePowp58 d a s
  | .feSel d a b c => Sys2Proof.Machine.execFeSel d a b c s
  | .feIsneg d a => Sys2Proof.Machine.execFeIsneg d a s
  | .feIszero d a => Sys2Proof.Machine.execFeIszero d a s
  | .feEq d a b => Sys2Proof.Machine.execFeEq d a b s
  | .feCtabs d a => Sys2Proof.Machine.execFeCtabs d a s
  | .feSqrtratio d a b c => Sys2Proof.Machine.execFeSqrtratio d a b c s
  | .scLoad d h => Sys2Proof.Machine.execScLoad d h s
  | .scLoadbits d h => Sys2Proof.Machine.execScLoadbits d h s
  | .scLoadwide d => Sys2Proof.Machine.execScLoadwide d s
  | .scStore a h => Sys2Proof.Machine.execScStore a h s
  | .scMov d a => Sys2Proof.Machine.execScMov d a s
  | .scConst d imm => Sys2Proof.Machine.execScConst d imm s
  | .scAdd d a b => Sys2Proof.Machine.execScAdd d a b s
  | .scSub d a b => Sys2Proof.Machine.execScSub d a b s
  | .scMul d a b => Sys2Proof.Machine.execScMul d a b s
  | .scMuladd d a b c => Sys2Proof.Machine.execScMuladd d a b c s
  | .scReduce d a => Sys2Proof.Machine.execScReduce d a s
  | .scMontmul d a b => Sys2Proof.Machine.execScMontmul d a b s
  | .scRadix16 a => Sys2Proof.Machine.execScRadix16 a s
  | .scNaf5 a => Sys2Proof.Machine.execScNaf5 a s
  | .scEq d a b => Sys2Proof.Machine.execScEq d a b s
  | .ptConst d imm => Sys2Proof.Machine.execPtConst d imm s
  | .ptMov d a => Sys2Proof.Machine.execPtMov d a s
  | .ptGet d a imm => Sys2Proof.Machine.execPtGet d a imm s
  | .ptSet d a imm => Sys2Proof.Machine.execPtSet d a imm s
  | .ptSettag d imm => Sys2Proof.Machine.execPtSettag d imm s
  | .ptSel d a b c => Sys2Proof.Machine.execPtSel d a b c s
  | .ptNeg d a => Sys2Proof.Machine.execPtNeg d a s
  | .extToProj d a => Sys2Proof.Machine.execExtToProj d a s
  | .extToPn d a => Sys2Proof.Machine.execExtToPn d a s
  | .extToAn d a => Sys2Proof.Machine.execExtToAn d a s
  | .projToExt d a => Sys2Proof.Machine.execProjToExt d a s
  | .compToProj d a => Sys2Proof.Machine.execCompToProj d a s
  | .compToExt d a => Sys2Proof.Machine.execCompToExt d a s
  | .pnToExt d a => Sys2Proof.Machine.execPnToExt d a s
  | .anToExt d a => Sys2Proof.Machine.execAnToExt d a s
  | .projDbl d a => Sys2Proof.Machine.execProjDbl d a s
  | .extAddPn d a b => Sys2Proof.Machine.execExtAddPn d a b s
  | .extSubPn d a b => Sys2Proof.Machine.execExtSubPn d a b s
  | .extAddAn d a b => Sys2Proof.Machine.execExtAddAn d a b s
  | .extSubAn d a b => Sys2Proof.Machine.execExtSubAn d a b s
  | .edAdd d a b => Sys2Proof.Machine.execEdAdd d a b s
  | .edSub d a b => Sys2Proof.Machine.execEdSub d a b s
  | .edDbl d a => Sys2Proof.Machine.execEdDbl d a s
  | .edMulpow2 d a imm => Sys2Proof.Machine.execEdMulpow2 d a imm s
  | .edDecode d h => Sys2Proof.Machine.execEdDecode d h s
  | .edEncode a h => Sys2Proof.Machine.execEdEncode a h s
  | .edEq d a b => Sys2Proof.Machine.execEdEq d a b s
  | .edIsident d a => Sys2Proof.Machine.execEdIsident d a s
  | .edIssmall d a => Sys2Proof.Machine.execEdIssmall d a s
  | .edIstf d a => Sys2Proof.Machine.execEdIstf d a s
  | .lutBuild a => Sys2Proof.Machine.execLutBuild a s
  | .lutSel d imm => Sys2Proof.Machine.execLutSel d imm s
  | .nlutBuild a => Sys2Proof.Machine.execNlutBuild a s
  | .nlutSel d imm => Sys2Proof.Machine.execNlutSel d imm s
  | .btBuild a => Sys2Proof.Machine.execBtBuild a s
  | .btSel d t imm => Sys2Proof.Machine.execBtSel d t imm s
  | .edSmul d a b => Sys2Proof.Machine.execEdSmul d a b s
  | .edBmul d a => Sys2Proof.Machine.execEdBmul d a s
  | .edVtdbl d a b c => Sys2Proof.Machine.execEdVtdbl d a b c s
  | .riDecode d h => Sys2Proof.Machine.execRiDecode d h s
  | .riEncode a h => Sys2Proof.Machine.execRiEncode a h s
  | .riEq d a b => Sys2Proof.Machine.execRiEq d a b s
  | .riMap d a => Sys2Proof.Machine.execRiMap d a s
  | .riFromuni d => Sys2Proof.Machine.execRiFromuni d s

end Sys2Proof.Machine
end

