-- ==== Sys2Proof/Config.lean ====
section
/-! DEFINITION. What the spec leaves free: one free value, with no body, so that nothing can be
proved about it. -/

namespace Sys2Proof

/-- The n-th free 32-bit draw: what a host read of BUF or DIG returns while STATUS.BUSY = 1
(20_memory.md R80, 70_reset_and_hazards.md R421, 93_implementation_defined.md U4; log 5). -/
opaque Config.freeRead : Nat → BitVec 32

end Sys2Proof
end

