-- ==== Sys2Proof/Machine/HostPort.lean ====
section
/-! DEFINITION. Host transactions on the register window (20_memory.md R71 to R81, 10_state.md R41 to R47):
each is one atomic action. -/

namespace Sys2Proof.Machine

/-- A write of `w` to CMD (R42): ignored with OVF while BUSY, discarded with DISC while ERR, else
accepted. -/
def writeCmd (w : Word) (s : State) : State :=
  if busy s then { s with ovf := true }
  else if s.err then { s with cmd := w, disc := true }
  else accept w s

/-- A write of `v` to CTRL (R44): SRST resets and wins over ERRCLR; bits 31:2 are ignored. -/
def writeCtrl (v : Word) (s : State) : State :=
  if v.getLsbD 0 then resetCore s
  else if v.getLsbD 1 then clearErrors s
  else s

/-- A write of a word to BUF (R80): ignored with OVF while BUSY, else the four bytes are stored,
little-endian (R75). -/
def writeBufWord (o : Nat) (v : Word) (s : State) : State :=
  if busy s then { s with ovf := true }
  else { s with mem := writeLE s.mem o 4 v.toNat }

/-- A host write (R71, R72, R73, R81): a misaligned one, and one to a read-only, reserved or DIG offset, is
ignored. -/
def hostWrite (o : Offset) (v : Word) (s : State) : State :=
  if o.toNat % 4 ≠ 0 then s
  else if o.toNat = 0x000 then writeCmd v s
  else if o.toNat = 0x008 then writeCtrl v s
  else if inBuf o.toNat then writeBufWord o.toNat v s
  else s

/-- Whether a host read takes a free draw: an aligned read of BUF or DIG while BUSY (R80, R421). -/
def freeAnswer (o : Offset) (s : State) : Bool :=
  decide (o.toNat % 4 = 0) && (inBuf o.toNat || inDig o.toNat) && busy s

/-- What a host read returns (R71, R72, R73, R80). -/
def hostReadValue (o : Offset) (s : State) : Word :=
  if o.toNat % 4 ≠ 0 then 0
  else if o.toNat = 0x000 then s.cmd
  else if o.toNat = 0x004 then statusWord s
  else if o.toNat = 0x008 then 0
  else if o.toNat = 0x00C then s.errCmd
  else if o.toNat = 0x010 then s.cmdCnt
  else if o.toNat = 0x014 then idWord
  else if inBuf o.toNat || inDig o.toNat then
    if busy s then Config.freeRead s.draws else BitVec.ofNat 32 (readLE s.mem o.toNat 4)
  else 0

/-- A host read: it changes no state of the machine (R79); the answer stands on the rdata port. -/
def hostRead (o : Offset) (s : State) : State :=
  { s with
    rdata := hostReadValue o s
    draws := if freeAnswer o s then s.draws + 1 else s.draws }

end Sys2Proof.Machine
end

