-- ==== Sys2Proof/Machine/Sequencer.lean ====
section
/-! DEFINITION. The core sequencer's own step (10_state.md R54) and what each event of the total order does
(20_memory.md R83). -/

namespace Sys2Proof.Machine

/-- The end of EXEC(w): the command the word spells is executed; a word that spells none raises OPCODE or
RESERVED (60_exceptions.md R374, steps 1 and 2). -/
def runWord (w : Word) (s : State) : Host.Outcome State Fault Refusal :=
  match decode w with
  | .ok i => exec i s
  | .error e => .next (raiseError w (decodeCause e) s)

/-- The sequencer's own step (R54): INIT ends, the executing command ends, and in IDLE every piece of state
is held (60_exceptions.md R397; log 17). -/
def coreStep (s : State) : Host.Outcome State Fault Refusal :=
  match s.phase with
  | .init => .next (endInit s)
  | .idle => .next s
  | .exec w => runWord w s

/-- What one event does. -/
def applyEvent (e : HostEvent) (s : State) : Host.Outcome State Fault Refusal :=
  match e with
  | .write o v => .next (hostWrite o v s)
  | .read o => .next (hostRead o s)
  | .resetPin => .next (resetCore s)
  | .coreStep => coreStep s

end Sys2Proof.Machine
end

