-- ==== Sys2Proof/Machine/Step.lean ====
section
/-! DEFINITION. One step of the machine: the next event of the total order of 20_memory.md R83, or, where
the host has nothing to do, the sequencer's own step. -/

namespace Sys2Proof.Machine

/-- One step (log 1). -/
def step (s : State) : Host.Outcome State Fault Refusal :=
  match s.pending with
  | [] => coreStep s
  | e :: rest => applyEvent e { s with pending := rest }

/-- The state in which the very next step executes the command word of the first `nbits` bits of `w`: the
word is accepted, as by a CMD write (R42), and the sequencer's own step comes next (log 2). -/
def State.withFetchWord (s : State) (nbits w : Nat) : State :=
  { accept (BitVec.ofNat 32 (w % 2 ^ nbits)) s with pending := .coreStep :: s.pending }

end Sys2Proof.Machine
end

