-- ==== Sys2Proof/Safety.lean ====
section
/-! DEFINITION. The terms claims about RDN-CORE are stated in: the invariant of the machine, what a command
may write, the checks a command makes, and field values as elements of GF(p). Each table below is written from
the rule it cites, not from the definitions of the machine. -/

namespace Sys2Proof.Machine

/-! ## The invariant -/

/-- What holds in every state the machine can reach. -/
structure State.Inv (s : State) : Prop where
  /-- BUF and DIG are in canonical form (log 10). -/
  memWf : Memory.wf s.mem = true
  /-- Only BUF and DIG offsets are listed (20_memory.md R72). -/
  memInside : ∀ c ∈ s.mem, inBuf c.1 = true ∨ inDig c.1 = true
  /-- CMD holds the executing command word (10_state.md R42). -/
  cmdHeld : ∀ w, s.phase = .exec w → s.cmd = w
  /-- BUSY and ERR are never 1 at once (R43). -/
  errIdle : s.err = true → busy s = false
  /-- Without an error the record is empty (R43, R45). -/
  noRecord : s.err = false → s.errKind = 0 ∧ s.errCause = 0 ∧ s.errOp = 0 ∧ s.errCmd = 0
  /-- With an error the record names a kind and a cause of 60_exceptions.md R372 or R373. -/
  record : s.err = true →
    s.errOp = s.errCmd.setWidth 8 ∧
      ((s.errKind = 1 ∧ 1 ≤ s.errCause.toNat ∧ s.errCause.toNat ≤ 4) ∨
        (s.errKind = 2 ∧ 1 ≤ s.errCause.toNat ∧ s.errCause.toNat ≤ 7))
  /-- A command is discarded only in the error state (R42, R379). -/
  discErr : s.disc = true → s.err = true

/-! ## The reset state (70_reset_and_hazards.md R410) -/

/-- The slots of a point register that holds the EXT identity. -/
def identityPoint : Point := ⟨.ext, Fe.ofNat 0, Fe.ofNat 1, Fe.ofNat 1, Fe.ofNat 0⟩

/-- The table of R410, with the content of BT left out: it is unobservable during INIT. -/
structure AtReset (t : State) : Prop where
  f : ∀ r, (t.getF r).val = 0
  sc : ∀ r, (t.getS r).val = 0
  p : ∀ r, t.getP r = identityPoint
  k : ∀ r, t.getK r = false
  cmd : hostReadValue 0x000 t = 0x00000000
  status : hostReadValue 0x004 t = 0x00000001
  ctrl : hostReadValue 0x008 t = 0x00000000
  errCmd : hostReadValue 0x00C t = 0x00000000
  cmdCnt : hostReadValue 0x010 t = 0x00000000
  id : hostReadValue 0x014 t = 0x52353507
  bufDig : ∀ a, memRead t.mem a = 0
  lut : ∀ j, t.lut.get j = ⟨Fe.ofNat 1, Fe.ofNat 1, Fe.ofNat 1, Fe.ofNat 0⟩
  nlut : ∀ j, t.nlut.get j = ⟨Fe.ofNat 1, Fe.ofNat 1, Fe.ofNat 1, Fe.ofNat 0⟩
  phase : t.phase = .init

/-! ## What a command may write -/

/-- The destinations of a command: registers of each file, runs of BUF and DIG bytes (first offset, length)
and tables. -/
structure Writes where
  f : List Reg := []
  sc : List Reg := []
  p : List Reg := []
  k : List Reg := []
  bytes : List (Nat × Nat) := []
  lut : Bool := false
  nlut : Bool := false
  bt : Bool := false
deriving DecidableEq, Repr

/-- BUF half h as a run of bytes (20_memory.md R76). -/
def halfBytes (h : HalfField) : Nat × Nat := (0x100 + 32 * h.val, 32)

/-- All of DIG as a run of bytes (10_state.md R49). -/
def digRun : Nat × Nat := (0x200, 256)

/-- The destinations of each command: the line "Writes" of its rule (40_ctprim.md to 45_ristretto.md). -/
def writesOf : Instr → Writes
  | .nop => {}
  | .kSet d _ | .kNot d _ | .kAnd d _ _ | .kOr d _ _ | .kXor d _ _ | .bufEq d | .bufBit d _ _
  | .feIsneg d _ | .feIszero d _ | .feEq d _ _ | .scEq d _ _
  | .edEq d _ _ | .edIsident d _ | .edIssmall d _ | .edIstf d _ | .riEq d _ _ => { k := [d] }
  | .feLoad d _ | .feMov d _ | .feConst d _ | .feAdd d _ _ | .feSub d _ _ | .feNeg d _ | .feMul d _ _
  | .feSq d _ | .feSq2 d _ | .feInv d _ | .fePowp58 d _ | .feSel d _ _ _ | .feCtabs d _
  | .ptGet d _ _ => { f := [d] }
  | .feSqrtratio d _ _ c => { f := [d], k := [c] }
  | .scLoad d _ | .scLoadbits d _ | .scLoadwide d | .scMov d _ | .scConst d _ | .scAdd d _ _
  | .scSub d _ _ | .scMul d _ _ | .scMuladd d _ _ _ | .scReduce d _ | .scMontmul d _ _ => { sc := [d] }
  | .scRadix16 _ | .scNaf5 _ => { bytes := [digRun] }
  | .feStore _ h | .scStore _ h | .edEncode _ h | .riEncode _ h => { bytes := [halfBytes h] }
  | .ptConst d _ | .ptMov d _ | .ptSet d _ _ | .ptSettag d _ | .ptSel d _ _ _ | .ptNeg d _
  | .extToProj d _ | .extToPn d _ | .extToAn d _ | .projToExt d _ | .compToProj d _ | .compToExt d _
  | .pnToExt d _ | .anToExt d _ | .projDbl d _ | .extAddPn d _ _ | .extSubPn d _ _ | .extAddAn d _ _
  | .extSubAn d _ _ | .edAdd d _ _ | .edSub d _ _ | .edDbl d _ | .edMulpow2 d _ _ | .edDecode d _
  | .lutSel d _ | .nlutSel d _ | .btSel d _ _ | .edSmul d _ _ | .edBmul d _ | .edVtdbl d _ _ _
  | .riDecode d _ | .riMap d _ | .riFromuni d => { p := [d] }
  | .lutBuild _ => { lut := true }
  | .nlutBuild _ => { nlut := true }
  | .btBuild _ => { bt := true }

/-- Everything but CMDCNT and the phase is as before, except the destinations `w`. -/
structure Frame (w : Writes) (s t : State) : Prop where
  f : ∀ r, r ∉ w.f → t.getF r = s.getF r
  sc : ∀ r, r ∉ w.sc → t.getS r = s.getS r
  p : ∀ r, r ∉ w.p → t.getP r = s.getP r
  k : ∀ r, r ∉ w.k → t.getK r = s.getK r
  bytes : ∀ a, (∀ q ∈ w.bytes, a < q.1 ∨ q.1 + q.2 ≤ a) → memRead t.mem a = memRead s.mem a
  lut : w.lut = false → t.lut = s.lut
  nlut : w.nlut = false → t.nlut = s.nlut
  bt : w.bt = false → t.bt = s.bt
  cmd : t.cmd = s.cmd
  err : t.err = s.err
  errKind : t.errKind = s.errKind
  errCause : t.errCause = s.errCause
  ovf : t.ovf = s.ovf
  disc : t.disc = s.disc
  errOp : t.errOp = s.errOp
  errCmd : t.errCmd = s.errCmd
  pending : t.pending = s.pending
  rdata : t.rdata = s.rdata
  draws : t.draws = s.draws

/-- A completion (60_exceptions.md R377): only the destinations `w` have changed, CMDCNT has counted one
command mod 2^32 and BUSY has become 0. -/
structure Completes (w : Writes) (s t : State) : Prop where
  frame : Frame w s t
  cmdCnt : t.cmdCnt = s.cmdCnt + 1
  phase : t.phase = .idle

/-- Command `i`, executed in `s`, completes; it writes nothing but `w`, and `post` holds of the state
after. -/
def Runs (i : Instr) (s : State) (w : Writes) (post : State → Prop) : Prop :=
  ∃ t, exec i s = .next t ∧ Completes w s t ∧ post t

/-! ## The checks of a command (60_exceptions.md R372 to R375) -/

/-- STATUS.ERRKIND and STATUS.ERRCAUSE. -/
abbrev ErrCode := BitVec 2 × BitVec 4

/-- InvalidArgument(OPCODE). -/
def errOpcode : ErrCode := (2, 1)
/-- InvalidArgument(RESERVED). -/
def errReserved : ErrCode := (2, 2)
/-- InvalidArgument(FIELD). -/
def errField : ErrCode := (2, 3)
/-- InvalidArgument(TAG). -/
def errTag : ErrCode := (2, 4)
/-- InvalidArgument(INDEX). -/
def errIndex : ErrCode := (2, 5)
/-- InvalidArgument(EXPONENT). -/
def errExponent : ErrCode := (2, 6)
/-- InvalidArgument(SCALAR_HIGH_BIT). -/
def errScalarHighBit : ErrCode := (2, 7)
/-- InvalidEncoding(SCALAR_NONCANONICAL). -/
def errScalarNoncanonical : ErrCode := (1, 1)
/-- InvalidEncoding(EDWARDS_NOT_SQUARE). -/
def errEdwardsNotSquare : ErrCode := (1, 2)
/-- InvalidEncoding(RISTRETTO_NONCANONICAL_OR_NEG). -/
def errRistrettoNoncanonicalOrNeg : ErrCode := (1, 3)
/-- InvalidEncoding(RISTRETTO_INVALID). -/
def errRistrettoInvalid : ErrCode := (1, 4)

/-- The column FIELD of R375. -/
def fieldFails : Instr → Bool
  | .kSet _ imm => decide (1 < imm.toNat)
  | .feConst _ imm => decide (9 < imm.toNat)
  | .scConst _ imm => decide (2 < imm.toNat)
  | .ptConst _ imm | .ptSettag _ imm => decide (4 < imm.toNat)
  | .ptGet _ _ imm | .ptSet _ _ imm => decide (3 < imm.toNat)
  | .bufBit _ h _ | .feLoad _ h | .feStore _ h | .scLoad _ h | .scLoadbits _ h | .scStore _ h
  | .edDecode _ h | .edEncode _ h | .riDecode _ h | .riEncode _ h => decide (1 < h.val)
  | _ => false

/-- The column TAG of R375. -/
def tagFails (s : State) : Instr → Bool
  | .ptSel _ a b _ => decide ((s.getP a).tag ≠ (s.getP b).tag)
  | .ptNeg _ a => decide ((s.getP a).tag = .proj) || decide ((s.getP a).tag = .comp)
  | .extToProj _ a | .extToPn _ a | .extToAn _ a | .edDbl _ a | .edMulpow2 _ a _ | .edEncode a _
  | .edIsident _ a | .edIssmall _ a | .edIstf _ a | .lutBuild a | .nlutBuild a | .btBuild a
  | .edSmul _ a _ | .riEncode a _ => decide ((s.getP a).tag ≠ .ext)
  | .edVtdbl _ _ b _ => decide ((s.getP b).tag ≠ .ext)
  | .projToExt _ a | .projDbl _ a => decide ((s.getP a).tag ≠ .proj)
  | .compToProj _ a | .compToExt _ a => decide ((s.getP a).tag ≠ .comp)
  | .pnToExt _ a => decide ((s.getP a).tag ≠ .pn)
  | .anToExt _ a => decide ((s.getP a).tag ≠ .an)
  | .extAddPn _ a b | .extSubPn _ a b =>
    decide ((s.getP a).tag ≠ .ext) || decide ((s.getP b).tag ≠ .pn)
  | .extAddAn _ a b | .extSubAn _ a b =>
    decide ((s.getP a).tag ≠ .ext) || decide ((s.getP b).tag ≠ .an)
  | .edAdd _ a b | .edSub _ a b | .edEq _ a b | .riEq _ a b =>
    decide ((s.getP a).tag ≠ .ext) || decide ((s.getP b).tag ≠ .ext)
  | _ => false

/-- The column INDEX / EXPONENT of R375. -/
def indexFails : Instr → Option ErrCode
  | .edMulpow2 _ _ imm => if imm = 0 then some errExponent else none
  | .lutSel _ imm => if imm.toInt < -8 ∨ 8 < imm.toInt then some errIndex else none
  | .nlutSel _ imm => if 15 < imm.toNat ∨ imm.toNat % 2 = 0 then some errIndex else none
  | .btSel _ t imm =>
    if 31 < t.toNat ∨ imm.toInt < -8 ∨ 8 < imm.toInt then some errIndex else none
  | _ => none

/-- The data checks of SC_LOAD (42_scalar.md R211) on the integer of the half it reads. -/
def scLoadFails (n : Nat) : Option ErrCode :=
  if scalarBound ≤ n then some errScalarHighBit
  else if groupL ≤ n then some errScalarNoncanonical
  else none

/-- The data check of ED_DECODE (43_point.md R264). -/
def edDecodeFails (n : Nat) : Option ErrCode :=
  match edDecompress n with
  | none => some errEdwardsNotSquare
  | some _ => none

/-- The data checks of RI_DECODE (45_ristretto.md R340). -/
def riDecodeFails (n : Nat) : Option ErrCode :=
  match riDecompress n with
  | .noncanonicalOrNeg => some errRistrettoNoncanonicalOrNeg
  | .invalid => some errRistrettoInvalid
  | .element _ => none

/-- The data-dependent column of R375. -/
def dataFails (s : State) : Instr → Option ErrCode
  | .scLoad _ h => scLoadFails (s.readHalf h)
  | .edDecode _ h => edDecodeFails (s.readHalf h)
  | .riDecode _ h => riDecodeFails (s.readHalf h)
  | _ => none

/-- The error a decoded command reports: the first check that fails, in the order of R374. -/
def firstFailure (s : State) (i : Instr) : Option ErrCode :=
  if fieldFails i then some errField
  else if tagFails s i then some errTag
  else match indexFails i with
    | some e => some e
    | none => dataFails s i

/-- The state after the error path of R376 for command word `w`: the record is written, BUSY is 0, everything
else is as before. -/
def errorRecorded (w : Word) (e : ErrCode) (s : State) : State :=
  { s with
    err := true
    errKind := e.1
    errCause := e.2
    errOp := w.setWidth 8
    errCmd := w
    phase := .idle }

/-- Command `i`, executed in `s`, takes the error path with `e` and has no other effect. -/
def Raises (i : Instr) (s : State) (e : ErrCode) : Prop :=
  exec i s = .next (errorRecorded (encode i) e s)

/-! ## The opcode map (30_encoding.md R101, R107) -/

/-- A field of the command word: its lowest bit and its width (R101). -/
structure BitField where
  lo : Nat
  width : Nat
deriving DecidableEq, Repr

def bitsD : BitField := ⟨8, 4⟩
def bitsA : BitField := ⟨12, 4⟩
def bitsB : BitField := ⟨16, 4⟩
def bitsC : BitField := ⟨20, 4⟩
def bitsImm : BitField := ⟨24, 8⟩

/-- The content of a field. -/
def BitField.of (q : BitField) (w : Word) : Nat := w.toNat / 2 ^ q.lo % 2 ^ q.width

/-- A row of R107: the opcode and the fields marked `-`, which must be 0. -/
structure OpcodeRow where
  op : Nat
  unused : List BitField
deriving DecidableEq, Repr

/-- The rows of 40_ctprim.md. -/
def choiceRows : List OpcodeRow :=
  [⟨0x00, [bitsD, bitsA, bitsB, bitsC, bitsImm]⟩, ⟨0x01, [bitsA, bitsB, bitsC]⟩,
   ⟨0x02, [bitsB, bitsC, bitsImm]⟩, ⟨0x03, [bitsC, bitsImm]⟩, ⟨0x04, [bitsC, bitsImm]⟩,
   ⟨0x05, [bitsC, bitsImm]⟩, ⟨0x06, [bitsA, bitsB, bitsC, bitsImm]⟩, ⟨0x07, [bitsA, bitsB]⟩]

/-- The rows of 41_field.md. -/
def fieldRows : List OpcodeRow :=
  [⟨0x10, [bitsA, bitsB, bitsImm]⟩, ⟨0x11, [bitsD, bitsB, bitsImm]⟩,
   ⟨0x12, [bitsB, bitsC, bitsImm]⟩, ⟨0x13, [bitsA, bitsB, bitsC]⟩, ⟨0x14, [bitsC, bitsImm]⟩,
   ⟨0x15, [bitsC, bitsImm]⟩, ⟨0x16, [bitsB, bitsC, bitsImm]⟩, ⟨0x17, [bitsC, bitsImm]⟩,
   ⟨0x18, [bitsB, bitsC, bitsImm]⟩, ⟨0x19, [bitsB, bitsC, bitsImm]⟩,
   ⟨0x1A, [bitsB, bitsC, bitsImm]⟩, ⟨0x1B, [bitsB, bitsC, bitsImm]⟩, ⟨0x1C, [bitsImm]⟩,
   ⟨0x1D, [bitsB, bitsC, bitsImm]⟩, ⟨0x1E, [bitsB, bitsC, bitsImm]⟩, ⟨0x1F, [bitsC, bitsImm]⟩,
   ⟨0x20, [bitsB, bitsC, bitsImm]⟩, ⟨0x21, [bitsImm]⟩]

/-- The rows of 42_scalar.md. -/
def scalarRows : List OpcodeRow :=
  [⟨0x30, [bitsA, bitsB, bitsImm]⟩, ⟨0x31, [bitsA, bitsB, bitsImm]⟩,
   ⟨0x32, [bitsA, bitsB, bitsC, bitsImm]⟩, ⟨0x33, [bitsD, bitsB, bitsImm]⟩,
   ⟨0x34, [bitsB, bitsC, bitsImm]⟩, ⟨0x35, [bitsA, bitsB, bitsC]⟩, ⟨0x36, [bitsC, bitsImm]⟩,
   ⟨0x37, [bitsC, bitsImm]⟩, ⟨0x38, [bitsC, bitsImm]⟩, ⟨0x39, [bitsImm]⟩,
   ⟨0x3A, [bitsB, bitsC, bitsImm]⟩, ⟨0x3B, [bitsC, bitsImm]⟩,
   ⟨0x3C, [bitsD, bitsB, bitsC, bitsImm]⟩, ⟨0x3D, [bitsD, bitsB, bitsC, bitsImm]⟩,
   ⟨0x3E, [bitsC, bitsImm]⟩]

/-- The rows of 43_point.md. -/
def pointRows : List OpcodeRow :=
  [⟨0x40, [bitsA, bitsB, bitsC]⟩, ⟨0x41, [bitsB, bitsC, bitsImm]⟩, ⟨0x42, [bitsB, bitsC]⟩,
   ⟨0x43, [bitsB, bitsC]⟩, ⟨0x44, [bitsA, bitsB, bitsC]⟩, ⟨0x45, [bitsImm]⟩,
   ⟨0x46, [bitsB, bitsC, bitsImm]⟩, ⟨0x47, [bitsB, bitsC, bitsImm]⟩,
   ⟨0x48, [bitsB, bitsC, bitsImm]⟩, ⟨0x49, [bitsB, bitsC, bitsImm]⟩,
   ⟨0x4A, [bitsB, bitsC, bitsImm]⟩, ⟨0x4B, [bitsB, bitsC, bitsImm]⟩,
   ⟨0x4C, [bitsB, bitsC, bitsImm]⟩, ⟨0x4D, [bitsB, bitsC, bitsImm]⟩,
   ⟨0x4E, [bitsB, bitsC, bitsImm]⟩, ⟨0x4F, [bitsB, bitsC, bitsImm]⟩, ⟨0x50, [bitsC, bitsImm]⟩,
   ⟨0x51, [bitsC, bitsImm]⟩, ⟨0x52, [bitsC, bitsImm]⟩, ⟨0x53, [bitsC, bitsImm]⟩,
   ⟨0x54, [bitsC, bitsImm]⟩, ⟨0x55, [bitsC, bitsImm]⟩, ⟨0x56, [bitsB, bitsC, bitsImm]⟩,
   ⟨0x57, [bitsB, bitsC]⟩, ⟨0x58, [bitsA, bitsB, bitsImm]⟩, ⟨0x59, [bitsD, bitsB, bitsImm]⟩,
   ⟨0x5A, [bitsC, bitsImm]⟩, ⟨0x5B, [bitsB, bitsC, bitsImm]⟩, ⟨0x5C, [bitsB, bitsC, bitsImm]⟩,
   ⟨0x5D, [bitsB, bitsC, bitsImm]⟩]

/-- The rows of 44_scalarmul.md. -/
def tableRows : List OpcodeRow :=
  [⟨0x60, [bitsD, bitsB, bitsC, bitsImm]⟩, ⟨0x61, [bitsA, bitsB, bitsC]⟩,
   ⟨0x62, [bitsD, bitsB, bitsC, bitsImm]⟩, ⟨0x63, [bitsA, bitsB, bitsC]⟩,
   ⟨0x64, [bitsD, bitsB, bitsC, bitsImm]⟩, ⟨0x65, [bitsA]⟩, ⟨0x66, [bitsC, bitsImm]⟩,
   ⟨0x67, [bitsB, bitsC, bitsImm]⟩, ⟨0x68, [bitsImm]⟩]

/-- The rows of 45_ristretto.md. -/
def ristrettoRows : List OpcodeRow :=
  [⟨0x70, [bitsA, bitsB, bitsImm]⟩, ⟨0x71, [bitsD, bitsB, bitsImm]⟩, ⟨0x72, [bitsC, bitsImm]⟩,
   ⟨0x73, [bitsB, bitsC, bitsImm]⟩, ⟨0x74, [bitsA, bitsB, bitsC, bitsImm]⟩]

/-- The 85 defined opcodes (R107). -/
def opcodeRows : List OpcodeRow :=
  choiceRows ++ fieldRows ++ scalarRows ++ pointRows ++ tableRows ++ ristrettoRows

/-- An opcode value that spells no command (R108). -/
def undefinedOpcode (op : Nat) : Bool :=
  (decide (0x08 ≤ op) && decide (op ≤ 0x0F)) || (decide (0x22 ≤ op) && decide (op ≤ 0x2F)) ||
    decide (op = 0x3F) || (decide (0x5E ≤ op) && decide (op ≤ 0x5F)) ||
    (decide (0x69 ≤ op) && decide (op ≤ 0x6F)) || (decide (0x75 ≤ op) && decide (op ≤ 0xFF))

/-! ## The next step -/

/-- The sequencer's own step comes next (20_memory.md R83; log 1). -/
def CoreTurn (s : State) : Prop := s.pending = [] ∨ ∃ rest, s.pending = .coreStep :: rest

/-- A reset comes next: rst_n = 0, or a CTRL write with SRST = 1 (70_reset_and_hazards.md R411). -/
def ResetTurn (s : State) : Prop :=
  ∃ rest, s.pending = .resetPin :: rest ∨
    ∃ v : Word, v.getLsbD 0 = true ∧ s.pending = .write 0x008 v :: rest

/-- Command `i` is executing and its completion comes next. -/
def Executes (i : Instr) (s : State) : Prop :=
  CoreTurn s ∧ ∃ w, s.phase = .exec w ∧ decode w = .ok i

/-- Where the sequencer's own step comes next, the step turns `s`, that event taken, into `f s`. -/
def CoreStepGives (s : State) (f : State → State) : Prop :=
  (s.pending = [] → step s = .next (f s)) ∧
    ∀ rest, s.pending = .coreStep :: rest → step s = .next (f { s with pending := rest })

/-! ## Runs of the host (70_reset_and_hazards.md R415) -/

/-- A reset, which ends one run and starts the next (R411). -/
def HostEvent.isReset : HostEvent → Bool
  | .resetPin => true
  | .write o v => decide (o = 0x008) && v.getLsbD 0
  | .read _ => false
  | .coreStep => false

/-- The events of the run that starts at `s`: those still to come, up to the next reset. -/
def runOf (s : State) : List HostEvent := s.pending.takeWhile fun e => !e.isReset

/-- The state after the first `n` events. -/
def stateAfter : Nat → State → State
  | 0, s => s
  | n + 1, s =>
    match step s with
    | .next t => stateAfter n t
    | .fault _ => s
    | .refused _ => s

/-- The run's event `n` is a CMD write. -/
def CmdWriteAt (s : State) (n : Nat) : Prop := ∃ v, (runOf s)[n]? = some (.write 0x000 v)

/-- The run's event `n` is a read of STATUS that returns BUSY = 0. -/
def IdleStatusReadAt (s : State) (n : Nat) : Prop :=
  (runOf s)[n]? = some (.read 0x004) ∧ busy (stateAfter n s) = false

/-- The run from the reset state `s` ends at its event `n`, the first read of STATUS after the host's last CMD
write, event `m`, that returns BUSY = 0 (R415). -/
structure RunEnds (s : State) (m n : Nat) : Prop where
  fromReset : AtReset s
  cmdWrite : CmdWriteAt s m
  lastCmdWrite : ∀ k, CmdWriteAt s k → k ≤ m
  after : m < n
  idleRead : IdleStatusReadAt s n
  first : ∀ k, m < k → k < n → ¬ IdleStatusReadAt s k

/-- What is observed at the end of a run (R415): BUF, DIG, STATUS, ERRCMD and CMDCNT as the host reads them, and
the register files and tables, which it sees only through further commands. -/
structure Observation where
  buf : List Word
  dig : List Word
  status : Word
  errCmd : Word
  cmdCnt : Word
  f : Vector Fe 16
  sc : Vector Scalar 16
  p : Vector Point 16
  k : Vector Bool 16
  lut : Vector Pn 8
  nlut : Vector Pn 8
  bt : Vector (Vector An 8) 32
deriving DecidableEq, Repr

/-- The observation of a state (R415). -/
def observe (s : State) : Observation where
  buf := (List.range 16).map fun j => hostReadValue (BitVec.ofNat 12 (0x100 + 4 * j)) s
  dig := (List.range 64).map fun j => hostReadValue (BitVec.ofNat 12 (0x200 + 4 * j)) s
  status := hostReadValue 0x004 s
  errCmd := hostReadValue 0x00C s
  cmdCnt := hostReadValue 0x010 s
  f := s.f
  sc := s.sc
  p := s.p
  k := s.k
  lut := s.lut
  nlut := s.nlut
  bt := s.bt

/-- `ob` is the observation at the end of the run from `s` (R415). -/
def RunObserves (s : State) (ob : Observation) : Prop :=
  ∃ m n, RunEnds s m n ∧ ob = observe (stateAfter n s)

/-! ## Field values -/

/-- GF(p) (41_field.md R150). -/
abbrev Gf := ZMod fieldP

/-- A register or slot value as an element of GF(p). -/
def gf (x : Fe) : Gf := (x.val : Gf)

/-- The curve constant d of R153 in GF(p). -/
def dGf : Gf := (0x52036cee2b6ffe738cc740797779e89800700a4d4141d8ab75eb4dca135978a3 : Gf)

/-- The curve equation −x² + y² = 1 + d·x²·y² (43_point.md R230). -/
def OnCurve (x y : Gf) : Prop := -x ^ 2 + y ^ 2 = 1 + dGf * x ^ 2 * y ^ 2

/-- An EXT content that represents the point (x, y) of the curve: Z ≠ 0, X = xZ, Y = yZ, XY = ZT
(10_state.md R37). -/
structure Represents (q : Ext) (x y : Gf) : Prop where
  curve : OnCurve x y
  zNonzero : gf q.Z ≠ 0
  hx : gf q.X = x * gf q.Z
  hy : gf q.Y = y * gf q.Z
  ht : gf q.X * gf q.Y = gf q.Z * gf q.T

/-- The four slots of a point register are these elements of GF(p), under this tag. -/
def HasSlots (q : Point) (tag : Tag) (s0 s1 s2 s3 : Gf) : Prop :=
  q.tag = tag ∧ gf q.s0 = s0 ∧ gf q.s1 = s1 ∧ gf q.s2 = s2 ∧ gf q.s3 = s3

/-! ## Digits -/

/-- DIG[i] as the signed digit it holds (10_state.md R49). -/
def digAt (s : State) (i : Nat) : Int := (memRead s.mem (0x200 + i)).toInt

/-- The sum of the first n digits, digit i of weight base^i. -/
def digitSum (s : State) (base : Int) : Nat → Int
  | 0 => 0
  | n + 1 => digitSum s base n + digAt s n * base ^ n

end Sys2Proof.Machine
end

