-- ==== Sys2Proof/WellFormed.lean ====
section
/-! DEFINITION. Which commands are well formed: every operand value is one 30_encoding.md R103 to R105 call
legal. An ill-formed command is still a command: executing it raises the error its rule names
(60_exceptions.md R374, steps 3 and 5). -/

namespace Sys2Proof

/-- A half selector is 0 or 1 (R104). -/
def HalfField.legal (h : HalfField) : Bool := h.val ≤ 1

/-- An unsigned immediate is at most `max` (R103: u1, fidx, sidx, pidx, slot, tag). -/
def Byte.atMost (imm : Byte) (max : Nat) : Bool := imm.toNat ≤ max

/-- A dig8 immediate lies in −8 to 8 (R103). -/
def Byte.dig8Legal (imm : Byte) : Bool := -8 ≤ imm.toInt && imm.toInt ≤ 8

/-- An odd immediate is 1, 3, 5, …, 15 (R103). -/
def Byte.oddLegal (imm : Byte) : Bool := imm.toNat ≤ 15 && imm.toNat % 2 == 1

/-- A k immediate is 1 to 255 (R103). -/
def Byte.kLegal (imm : Byte) : Bool := imm.toNat != 0

/-- A t8 sub-table index is 0 to 31 (R105). -/
def Byte.t8Legal (t : Byte) : Bool := t.toNat ≤ 31

/-- Every operand value of the command is legal. -/
def Instr.wellFormed : Instr → Bool
  | .nop => true
  | .kSet _ imm => Byte.atMost imm 1
  | .kNot _ _ => true
  | .kAnd _ _ _ => true
  | .kOr _ _ _ => true
  | .kXor _ _ _ => true
  | .bufEq _ => true
  | .bufBit _ h _ => HalfField.legal h
  | .feLoad _ h => HalfField.legal h
  | .feStore _ h => HalfField.legal h
  | .feMov _ _ => true
  | .feConst _ imm => Byte.atMost imm 9
  | .feAdd _ _ _ => true
  | .feSub _ _ _ => true
  | .feNeg _ _ => true
  | .feMul _ _ _ => true
  | .feSq _ _ => true
  | .feSq2 _ _ => true
  | .feInv _ _ => true
  | .fePowp58 _ _ => true
  | .feSel _ _ _ _ => true
  | .feIsneg _ _ => true
  | .feIszero _ _ => true
  | .feEq _ _ _ => true
  | .feCtabs _ _ => true
  | .feSqrtratio _ _ _ _ => true
  | .scLoad _ h => HalfField.legal h
  | .scLoadbits _ h => HalfField.legal h
  | .scLoadwide _ => true
  | .scStore _ h => HalfField.legal h
  | .scMov _ _ => true
  | .scConst _ imm => Byte.atMost imm 2
  | .scAdd _ _ _ => true
  | .scSub _ _ _ => true
  | .scMul _ _ _ => true
  | .scMuladd _ _ _ _ => true
  | .scReduce _ _ => true
  | .scMontmul _ _ _ => true
  | .scRadix16 _ => true
  | .scNaf5 _ => true
  | .scEq _ _ _ => true
  | .ptConst _ imm => Byte.atMost imm 4
  | .ptMov _ _ => true
  | .ptGet _ _ imm => Byte.atMost imm 3
  | .ptSet _ _ imm => Byte.atMost imm 3
  | .ptSettag _ imm => Byte.atMost imm 4
  | .ptSel _ _ _ _ => true
  | .ptNeg _ _ => true
  | .extToProj _ _ => true
  | .extToPn _ _ => true
  | .extToAn _ _ => true
  | .projToExt _ _ => true
  | .compToProj _ _ => true
  | .compToExt _ _ => true
  | .pnToExt _ _ => true
  | .anToExt _ _ => true
  | .projDbl _ _ => true
  | .extAddPn _ _ _ => true
  | .extSubPn _ _ _ => true
  | .extAddAn _ _ _ => true
  | .extSubAn _ _ _ => true
  | .edAdd _ _ _ => true
  | .edSub _ _ _ => true
  | .edDbl _ _ => true
  | .edMulpow2 _ _ imm => Byte.kLegal imm
  | .edDecode _ h => HalfField.legal h
  | .edEncode _ h => HalfField.legal h
  | .edEq _ _ _ => true
  | .edIsident _ _ => true
  | .edIssmall _ _ => true
  | .edIstf _ _ => true
  | .lutBuild _ => true
  | .lutSel _ imm => Byte.dig8Legal imm
  | .nlutBuild _ => true
  | .nlutSel _ imm => Byte.oddLegal imm
  | .btBuild _ => true
  | .btSel _ t imm => Byte.t8Legal t && Byte.dig8Legal imm
  | .edSmul _ _ _ => true
  | .edBmul _ _ => true
  | .edVtdbl _ _ _ _ => true
  | .riDecode _ h => HalfField.legal h
  | .riEncode _ h => HalfField.legal h
  | .riEq _ _ _ => true
  | .riMap _ _ => true
  | .riFromuni _ => true

end Sys2Proof
end

