-- ==== Sys2Proof/Certificates/Slice0/Obligations.lean ====
section
/-! DEFINITION. The statements about RDN-CORE, in the terms of Sys2Proof.Safety. Each is written from the
rules its docstring names. -/

open Sys2Proof Sys2Proof.Machine

/-! ## Encoding (30_encoding.md) -/

/-- R101, R107, R112: decoding the word of any command, with any operands, gives that command back. -/
def Obligations.DecodeOfEncodeIsTheCommand : Prop :=
  ∀ i : Instr, decode (encode i) = .ok i

/-- R106, R107, R112: every word the decoder accepts is the word of the command it reads, so each command has
one word. -/
def Obligations.EncodeOfDecodeIsTheWord : Prop :=
  ∀ (w : Word) (i : Instr), decode w = .ok i → encode i = w

/-- R101, R106, R107: the decoder accepts a word exactly when some row of the opcode map has its opcode and
every field the row does not use is 0; it tells an undefined opcode from a non-zero unused field. -/
def Obligations.DecoderFollowsTheOpcodeMap : Prop :=
  ∀ w : Word,
    ((∃ i, decode w = .ok i) ↔
      ∃ r ∈ opcodeRows, w.toNat % 256 = r.op ∧ ∀ q ∈ r.unused, q.of w = 0) ∧
    (decode w = .error .opcode ↔ ∀ r ∈ opcodeRows, w.toNat % 256 ≠ r.op) ∧
    (decode w = .error .reserved ↔
      ∃ r ∈ opcodeRows, w.toNat % 256 = r.op ∧ ∃ q ∈ r.unused, q.of w ≠ 0)

/-- R108: 171 opcode values spell no command, and a word that holds one of them raises
InvalidArgument(OPCODE), whatever its other fields hold. -/
def Obligations.UndefinedOpcodeRaisesOpcode : Prop :=
  ((List.range 256).filter undefinedOpcode).length = 171 ∧
    ∀ w : Word,
      (undefinedOpcode (w.toNat % 256) = true ↔ decode w = .error .opcode) ∧
        ∀ s : State, s.phase = .exec w → undefinedOpcode (w.toNat % 256) = true →
          CoreStepGives s (errorRecorded w errOpcode)

/-- R106: a command with a non-zero unused field raises InvalidArgument(RESERVED), whichever field it is. -/
def Obligations.NonzeroUnusedFieldRaisesReserved : Prop :=
  ∀ (w : Word) (s : State) (r : OpcodeRow) (q : BitField),
    s.phase = .exec w → r ∈ opcodeRows → w.toNat % 256 = r.op → q ∈ r.unused → q.of w ≠ 0 →
      CoreStepGives s (errorRecorded w errReserved)

/-- R103, R104, R105: a command is well formed exactly when none of its operand values fails the FIELD, INDEX or
EXPONENT check. -/
def Obligations.WellFormedMeansNoOperandFails : Prop :=
  ∀ i : Instr, i.wellFormed = true ↔ fieldFails i = false ∧ indexFails i = none

/-- R112: the worked encodings, one word of each family and of each operand shape. -/
def Obligations.WorkedEncodingsDecode : Prop :=
  decode 0x00000000 = .ok .nop ∧
  decode 0x01000401 = .ok (.kSet 4 1) ∧
  decode 0x00021314 = .ok (.feAdd 3 1 2) ∧
  decode 0x00100010 = .ok (.feLoad 0 1) ∧
  decode 0x00110221 = .ok (.feSqrtratio 2 0 1 1) ∧
  decode 0x00321039 = .ok (.scMuladd 0 1 2 3) ∧
  decode 0x03000157 = .ok (.edMulpow2 1 0 3) ∧
  decode 0xF8000361 = .ok (.lutSel 3 0xF8) ∧
  decode 0xFD050265 = .ok (.btSel 2 5 0xFD) ∧
  decode 0x00110468 = .ok (.edVtdbl 4 0 1 1) ∧
  decode 0x00010072 = .ok (.riEq 0 0 1)

/-! ## The machine -/

/-- 10_state.md R54: where the sequencer's own step comes next and the executing word decodes to `i`, the step
is `exec i`; and a command word placed for the next step is executed by it, in the state in which CMD holds
the word. -/
def Obligations.StepExecutesTheDecodedCommand : Prop :=
  (∀ (s : State) (w : Word) (i : Instr), s.phase = .exec w → decode w = .ok i →
    (s.pending = [] → step s = exec i s) ∧
    (∀ rest, s.pending = .coreStep :: rest → step s = exec i { s with pending := rest })) ∧
  ∀ (s : State) (i : Instr),
    step (s.withFetchWord 32 (encode i).toNat) =
      exec i { s with cmd := encode i, phase := .exec (encode i) }

/-- R374 to R378: every command, in every state, either completes, and then it has changed only the
destinations its rule names, counted once and left BUSY 0; or it takes the error path with the first check
that fails, and then nothing but the error record has changed. Which of the two happens, and with which
cause, is what the table of R375 says. -/
def Obligations.CommandCompletesExactlyWhenItsChecksPass : Prop :=
  ∀ (i : Instr) (s : State),
    (firstFailure s i = none → ∃ t, exec i s = .next t ∧ Completes (writesOf i) s t) ∧
    (∀ e, firstFailure s i = some e → Raises i s e)

/-- The invariant holds after reset (70_reset_and_hazards.md R410). -/
def Obligations.InvariantHoldsAtReset : Prop := State.reset.Inv

/-- Every step, from every state that meets the invariant, keeps it: BUF and DIG stay in canonical form
(the model's choice, log 10) and inside their windows, CMD holds the executing word, BUSY and ERR are never 1
at once, the error record is empty without an error and legal with one, and DISC comes only with ERR. -/
def Obligations.EveryStepKeepsTheInvariant : Prop :=
  ∀ s t : State, s.Inv → step s = .next t → t.Inv

/-- R410, R411: right after reset, after a clock edge with rst_n = 0 and after a CTRL write with SRST = 1, in
every phase, every piece of state has its reset value, and the events still to come are kept. -/
def Obligations.EveryResetGivesTheResetState : Prop :=
  AtReset State.reset ∧
    ∀ s : State, ∀ rest,
      (s.pending = .resetPin :: rest → ∃ t, step s = .next t ∧ AtReset t ∧ t.pending = rest) ∧
      (∀ v : Word, v.getLsbD 0 = true → s.pending = .write 0x008 v :: rest →
        ∃ t, step s = .next t ∧ AtReset t ∧ t.pending = rest)

/-- R412: at the end of INIT BT holds bt_build(B), BUSY becomes 0 and nothing else changes; a CMD or BUF write
during INIT is ignored and sets OVF. -/
def Obligations.InitialisationBuildsTheBasepointTable : Prop :=
  ∀ s : State, s.phase = .init →
    CoreStepGives s (fun s => { s with bt := buildBt basepoint, phase := .idle }) ∧
    (∀ (v : Word) rest, s.pending = .write 0x000 v :: rest →
      step s = .next { s with pending := rest, ovf := true }) ∧
    (∀ (o : Offset) (v : Word) rest, s.pending = .write o v :: rest → o.toNat % 4 = 0 →
      0x100 ≤ o.toNat → o.toNat < 0x140 → step s = .next { s with pending := rest, ovf := true })

/-- R42: a CMD write is ignored with OVF while BUSY, else discarded with DISC while ERR, else accepted; a read
returns the current value; the reset value is 0. -/
def Obligations.CmdWriteDoesOneOfThreeThings : Prop :=
  State.reset.cmd = 0 ∧
  ∀ (s : State) (w : Word) rest, s.pending = .write 0x000 w :: rest →
    (busy s = true → step s = .next { s with pending := rest, ovf := true }) ∧
    (busy s = false → s.err = true →
      step s = .next { s with pending := rest, cmd := w, disc := true }) ∧
    (busy s = false → s.err = false →
      step s = .next { s with pending := rest, cmd := w, phase := .exec w }) ∧
    hostReadValue 0x000 s = s.cmd

/-- R44, R380: a CTRL write with SRST = 1 resets; one with SRST = 0 and ERRCLR = 1 clears the error record, OVF
and DISC, in every phase, and nothing else; one with both bits 0 does nothing; a read returns 0. -/
def Obligations.CtrlWriteResetsOrClearsTheRecord : Prop :=
  ∀ (s : State) (v : Word) rest, s.pending = .write 0x008 v :: rest →
    (v.getLsbD 0 = true → ∃ t, step s = .next t ∧ AtReset t ∧ t.pending = rest) ∧
    (v.getLsbD 0 = false → v.getLsbD 1 = true →
      step s = .next
        { s with
          pending := rest, err := false, errKind := 0, errCause := 0, errOp := 0, ovf := false,
          disc := false, errCmd := 0 }) ∧
    (v.getLsbD 0 = false → v.getLsbD 1 = false → step s = .next { s with pending := rest }) ∧
    hostReadValue 0x008 s = 0

/-- R43: the fields of the STATUS word a host reads, at their places; the reserved bits read 0. -/
def Obligations.StatusWordHoldsItsFields : Prop :=
  ∀ s : State,
    (hostReadValue 0x004 s).getLsbD 0 = busy s ∧
    (hostReadValue 0x004 s).getLsbD 1 = s.err ∧
    (hostReadValue 0x004 s).extractLsb' 2 2 = s.errKind ∧
    (hostReadValue 0x004 s).extractLsb' 4 4 = s.errCause ∧
    (hostReadValue 0x004 s).getLsbD 8 = s.ovf ∧
    (hostReadValue 0x004 s).getLsbD 9 = s.disc ∧
    (hostReadValue 0x004 s).extractLsb' 10 6 = 0 ∧
    (hostReadValue 0x004 s).extractLsb' 16 8 = s.errOp ∧
    (hostReadValue 0x004 s).extractLsb' 24 8 = 0

/-- R71, R72, R73, R75, R79, R80: what a host read returns at every offset, and that it changes nothing but
the answer. The answer of a BUF or DIG read while BUSY = 1 is left open. -/
def Obligations.HostReadAnswersAndChangesNothing : Prop :=
  ∀ (s : State) (o : Offset) rest, s.pending = .read o :: rest →
    ∃ t, step s = .next t ∧
      t = { s with pending := rest, rdata := t.rdata, draws := t.draws } ∧
      (o.toNat % 4 ≠ 0 → t.rdata = 0) ∧
      (o = 0x000 → t.rdata = s.cmd) ∧
      (o = 0x004 → t.rdata = statusWord s) ∧
      (o = 0x008 → t.rdata = 0) ∧
      (o = 0x00C → t.rdata = s.errCmd) ∧
      (o = 0x010 → t.rdata = s.cmdCnt) ∧
      (o = 0x014 → t.rdata = 0x52353507) ∧
      (o.toNat % 4 = 0 →
        (0x018 ≤ o.toNat ∧ o.toNat < 0x100) ∨ (0x140 ≤ o.toNat ∧ o.toNat < 0x200) ∨
          0x300 ≤ o.toNat → t.rdata = 0) ∧
      (o.toNat % 4 = 0 →
        (0x100 ≤ o.toNat ∧ o.toNat < 0x140) ∨ (0x200 ≤ o.toNat ∧ o.toNat < 0x300) →
        busy s = false →
          ∀ j, j < 4 → t.rdata.extractLsb' (8 * j) 8 = memRead s.mem (o.toNat + j))

/-- R75, R80: a BUF write while BUSY = 1 only sets OVF; otherwise it stores its four bytes, little-endian, and
every other byte and every other piece of state is as before. -/
def Obligations.BufWriteStoresFourBytes : Prop :=
  ∀ (s : State) (o : Offset) (v : Word) rest, s.pending = .write o v :: rest → o.toNat % 4 = 0 →
    0x100 ≤ o.toNat → o.toNat < 0x140 →
    (busy s = true → step s = .next { s with pending := rest, ovf := true }) ∧
    (busy s = false → Memory.wf s.mem = true →
      ∃ t, step s = .next t ∧ t = { s with pending := rest, mem := t.mem } ∧
        (∀ j, j < 4 → memRead t.mem (o.toNat + j) = v.extractLsb' (8 * j) 8) ∧
        ∀ a, a < o.toNat ∨ o.toNat + 4 ≤ a → memRead t.mem a = memRead s.mem a)

/-- R71, R72, R73, R81: a misaligned write, and a write to a read-only register, to DIG or to a reserved
offset, has no effect. -/
def Obligations.OtherHostWritesAreIgnored : Prop :=
  ∀ (s : State) (o : Offset) (v : Word) rest, s.pending = .write o v :: rest →
    o.toNat % 4 ≠ 0 ∨ (o ≠ 0x000 ∧ o ≠ 0x008 ∧ (o.toNat < 0x100 ∨ 0x140 ≤ o.toNat)) →
      step s = .next { s with pending := rest }

/-- R379, R381: in the error state, whatever the host does short of ERRCLR and a reset, the record stays, no
command runs, no register, table or DIG entry changes and CMDCNT does not count; a CMD write sets DISC. -/
def Obligations.ErrorStateIsSticky : Prop :=
  ∀ (s : State) (e : HostEvent) rest, s.err = true → s.phase = .idle → s.pending = e :: rest →
    e ≠ .resetPin →
    (∀ v, e = .write 0x008 v → v.getLsbD 0 = false ∧ v.getLsbD 1 = false) →
    ∃ t, step s = .next t ∧ t.pending = rest ∧ t.phase = .idle ∧
      t.err = true ∧ t.errKind = s.errKind ∧ t.errCause = s.errCause ∧ t.errOp = s.errOp ∧
      t.errCmd = s.errCmd ∧ t.cmdCnt = s.cmdCnt ∧
      t.f = s.f ∧ t.sc = s.sc ∧ t.p = s.p ∧ t.k = s.k ∧
      t.lut = s.lut ∧ t.nlut = s.nlut ∧ t.bt = s.bt ∧
      (∀ a, 0x200 ≤ a → memRead t.mem a = memRead s.mem a) ∧
      (∀ w, e = .write 0x000 w → t.cmd = w ∧ t.disc = true)

/-- R414 and R54: no interaction ever stops the machine, and a command leaves EXEC in its one completion step,
as INIT does. -/
def Obligations.EveryStepGoesOnAndExecEnds : Prop :=
  (∀ s : State, ∃ t, step s = .next t) ∧
    ∀ s : State, CoreTurn s → ∃ t, step s = .next t ∧ t.phase = .idle

/-- R424: a CMD write and a completion in the same cycle admit both orders: the write is ignored with OVF = 1,
or it takes effect after the completion, which discards it where the completing command raises an error. -/
def Obligations.WriteAndCompletionComeInEitherOrder : Prop :=
  ∀ (s : State) (w v : Word) (i : Instr) rest, s.phase = .exec w → decode w = .ok i → s.err = false →
    (∃ t u, step { s with pending := .write 0x000 v :: .coreStep :: rest } = .next t ∧
      step t = .next u ∧ u.ovf = true ∧ u.cmd = s.cmd ∧ u.phase = .idle ∧
      (firstFailure s i = none → u.err = false ∧ u.cmdCnt = s.cmdCnt + 1) ∧
      (firstFailure s i ≠ none → u.err = true ∧ u.cmdCnt = s.cmdCnt)) ∧
    (∃ t u, step { s with pending := .coreStep :: .write 0x000 v :: rest } = .next t ∧
      step t = .next u ∧ u.ovf = s.ovf ∧ u.cmd = v ∧
      (firstFailure s i = none → u.phase = .exec v ∧ u.cmdCnt = s.cmdCnt + 1) ∧
      (firstFailure s i ≠ none → u.phase = .idle ∧ u.disc = true ∧ u.cmdCnt = s.cmdCnt))

/-- R87, R89: the table memories change only by their builds, by the end of INIT and by a reset. -/
def Obligations.TablesChangeOnlyByBuildsAndReset : Prop :=
  ∀ s t : State, step s = .next t →
    (t.lut ≠ s.lut → ResetTurn s ∨ ∃ a, Executes (.lutBuild a) s) ∧
    (t.nlut ≠ s.nlut → ResetTurn s ∨ ∃ a, Executes (.nlutBuild a) s) ∧
    (t.bt ≠ s.bt → ResetTurn s ∨ (CoreTurn s ∧ s.phase = .init) ∨ ∃ a, Executes (.btBuild a) s)

/-- R48, R49, R82, R414: a byte of DIG changes only by SC_RADIX16, SC_NAF5 and a reset; a byte of BUF only by the
four storing commands, on the half they name, by a host write of its word while BUSY = 0, and by a reset;
no other offset ever changes but by a reset. -/
def Obligations.BytesChangeOnlyByStoresAndRecodings : Prop :=
  ∀ (s t : State) (x : Nat), step s = .next t → memRead t.mem x ≠ memRead s.mem x → ¬ ResetTurn s →
    (0x200 ≤ x ∧ x < 0x300 ∧ ∃ a, Executes (.scRadix16 a) s ∨ Executes (.scNaf5 a) s) ∨
    (∃ (a : Reg) (h : HalfField), h.val ≤ 1 ∧ 0x100 + 32 * h.val ≤ x ∧ x < 0x100 + 32 * h.val + 32 ∧
      (Executes (.feStore a h) s ∨ Executes (.scStore a h) s ∨ Executes (.edEncode a h) s ∨
        Executes (.riEncode a h) s)) ∨
    (∃ (o : Offset) (v : Word) (rest : List HostEvent), s.pending = .write o v :: rest ∧
      busy s = false ∧ 0x100 ≤ o.toNat ∧ o.toNat < 0x140 ∧ o.toNat ≤ x ∧ x < o.toNat + 4)

/-- R34, R201: a command that leaves a non-canonical value in a scalar register it changed is SC_LOADBITS, or
SC_CONST with index 2, or SC_MOV of a register that held it. -/
def Obligations.OnlyTwoCommandsMakeNoncanonicalScalars : Prop :=
  ∀ (i : Instr) (s t : State) (r : Reg), exec i s = .next t → groupL ≤ (t.getS r).val →
    t.getS r = s.getS r ∨ (∃ h, i = .scLoadbits r h) ∨ i = .scConst r 2 ∨
      ∃ a, i = .scMov r a ∧ t.getS r = s.getS a

/-- R37: a command that leaves a non-zero value in the unused slot of a PROJ or AN register it changed is
PT_SET, PT_SETTAG, PT_MOV or PT_SEL. -/
def Obligations.OnlyFourCommandsFillUnusedSlots : Prop :=
  ∀ (i : Instr) (s t : State) (r : Reg), exec i s = .next t →
    (t.getP r).tag = .proj ∨ (t.getP r).tag = .an → (t.getP r).s3.val ≠ 0 →
      t.getP r = s.getP r ∨ (∃ a imm, i = .ptSet r a imm) ∨ (∃ imm, i = .ptSettag r imm) ∨
        (∃ a, i = .ptMov r a) ∨ ∃ a b c, i = .ptSel r a b c

/-- R47: CMDCNT counts, mod 2^32, exactly the accepted commands that complete without an error; apart from a
reset, which sets it to 0, nothing else changes it, a host access to its own offset included. -/
def Obligations.CmdcntCountsCompletedCommands : Prop :=
  State.reset.cmdCnt = 0 ∧
  ∀ s t : State, s.Inv → step s = .next t → ¬ ResetTurn s →
    ((∃ w, s.phase = .exec w) ∧ t.phase = .idle ∧ t.err = false → t.cmdCnt = s.cmdCnt + 1) ∧
    (¬ ((∃ w, s.phase = .exec w) ∧ t.phase = .idle ∧ t.err = false) → t.cmdCnt = s.cmdCnt)

/-- R50, R51, R52, R89, R310, R312: LUT, NLUT and BT are read only by LUT_SEL, NLUT_SEL, and BT_SEL and ED_BMUL.
Any other command does the same whatever the three tables hold, and leaves the tables it does not build as
they were. -/
def Obligations.TablesAreReadOnlyByTheirSelects : Prop :=
  ∀ (i : Instr) (s t : State) (l n : Vector Pn 8) (b : Vector (Vector An 8) 32),
    (∀ d imm, i ≠ .lutSel d imm) → (∀ d imm, i ≠ .nlutSel d imm) →
    (∀ d x imm, i ≠ .btSel d x imm) → (∀ d a, i ≠ .edBmul d a) →
    exec i s = .next t →
      ∃ l' n' b',
        exec i { s with lut := l, nlut := n, bt := b } =
          .next { t with lut := l', nlut := n', bt := b' } ∧
        (l' = l ∨ (l' = t.lut ∧ ∃ a, i = .lutBuild a)) ∧
        (n' = n ∨ (n' = t.nlut ∧ ∃ a, i = .nlutBuild a)) ∧
        (b' = b ∨ (b' = t.bt ∧ ∃ a, i = .btBuild a))

/-- R56: the state the model adds (the host's events, the answer of the last read, the draw counter; log 1,
4, 5) is not observable by any command. -/
def Obligations.CommandsDoNotObserveTheModelsOwnFields : Prop :=
  ∀ (i : Instr) (s t : State) (e : List HostEvent) (x : Word) (n : Nat), exec i s = .next t →
    exec i { s with pending := e, rdata := x, draws := n } =
      .next { t with pending := e, rdata := x, draws := n }

/-! ## Choice commands (40_ctprim.md) -/

/-- R131 to R138: what each choice command writes. -/
def Obligations.ChoiceCommandsGiveTheirResults : Prop :=
  ∀ (d a b : Reg) (h : HalfField) (imm : Byte) (s : State),
    Runs .nop s {} (fun _ => True) ∧
    (imm.toNat ≤ 1 → Runs (.kSet d imm) s { k := [d] } fun t => t.getK d = (imm == 1)) ∧
    Runs (.kNot d a) s { k := [d] } (fun t => t.getK d = !s.getK a) ∧
    Runs (.kAnd d a b) s { k := [d] } (fun t => t.getK d = (s.getK a && s.getK b)) ∧
    Runs (.kOr d a b) s { k := [d] } (fun t => t.getK d = (s.getK a || s.getK b)) ∧
    Runs (.kXor d a b) s { k := [d] } (fun t => t.getK d = (s.getK a).xor (s.getK b)) ∧
    Runs (.bufEq d) s { k := [d] } (fun t =>
      t.getK d = true ↔ ∀ j, j < 32 → memRead s.mem (0x100 + j) = memRead s.mem (0x120 + j)) ∧
    (h.val ≤ 1 → Runs (.bufBit d h imm) s { k := [d] } fun t =>
      t.getK d =
        (memRead s.mem (0x100 + 32 * h.val + imm.toNat / 8)).getLsbD (imm.toNat % 8))

/-! ## Field commands (41_field.md) -/

/-- R166 to R171: the results of the field arithmetic, as integers in [0, p). -/
def Obligations.FieldArithmeticGivesResidues : Prop :=
  ∀ (d a b : Reg) (s : State),
    Runs (.feAdd d a b) s { f := [d] } (fun t =>
      (t.getF d).val = ((s.getF a).val + (s.getF b).val) % (2 ^ 255 - 19)) ∧
    Runs (.feSub d a b) s { f := [d] } (fun t =>
      ((t.getF d).val : Int) = (((s.getF a).val : Int) - (s.getF b).val) % (2 ^ 255 - 19)) ∧
    Runs (.feNeg d a) s { f := [d] } (fun t =>
      ((t.getF d).val : Int) = (-((s.getF a).val : Int)) % (2 ^ 255 - 19)) ∧
    Runs (.feMul d a b) s { f := [d] } (fun t =>
      (t.getF d).val = (s.getF a).val * (s.getF b).val % (2 ^ 255 - 19)) ∧
    Runs (.feSq d a) s { f := [d] } (fun t =>
      (t.getF d).val = (s.getF a).val ^ 2 % (2 ^ 255 - 19)) ∧
    Runs (.feSq2 d a) s { f := [d] } (fun t =>
      (t.getF d).val = 2 * (s.getF a).val ^ 2 % (2 ^ 255 - 19))

/-- R172, R173, R174: FE_INV and FE_POWP58 give the plain powers x^(p−2) and x^((p−5)/8), and the first is the
inverse of a non-zero x. -/
def Obligations.FieldPowersGiveThePlainPowers : Prop :=
  ∀ (d a : Reg) (s : State),
    Runs (.feInv d a) s { f := [d] } (fun t =>
      (t.getF d).val = (s.getF a).val ^ (2 ^ 255 - 21) % (2 ^ 255 - 19) ∧
      ((s.getF a).val = 0 → (t.getF d).val = 0) ∧
      ((s.getF a).val ≠ 0 → (t.getF d).val * (s.getF a).val % (2 ^ 255 - 19) = 1)) ∧
    Runs (.fePowp58 d a) s { f := [d] } (fun t =>
      (t.getF d).val = (s.getF a).val ^ (2 ^ 252 - 3) % (2 ^ 255 - 19))

/-- R164, R175 to R179: copy, select, tests and absolute value. -/
def Obligations.FieldSelectsAndTestsGiveTheirResults : Prop :=
  ∀ (d a b c : Reg) (s : State),
    Runs (.feMov d a) s { f := [d] } (fun t => t.getF d = s.getF a) ∧
    Runs (.feSel d a b c) s { f := [d] } (fun t =>
      (s.getK c = true → t.getF d = s.getF b) ∧ (s.getK c = false → t.getF d = s.getF a)) ∧
    Runs (.feIsneg d a) s { k := [d] } (fun t => t.getK d = true ↔ (s.getF a).val % 2 = 1) ∧
    Runs (.feIszero d a) s { k := [d] } (fun t => t.getK d = true ↔ (s.getF a).val = 0) ∧
    Runs (.feEq d a b) s { k := [d] } (fun t => t.getK d = true ↔ s.getF a = s.getF b) ∧
    Runs (.feCtabs d a) s { f := [d] } (fun t =>
      (t.getF d).val % 2 = 0 ∧
      ((t.getF d).val = (s.getF a).val ∨ (t.getF d).val = 2 ^ 255 - 19 - (s.getF a).val))

/-- R153, R154, R165: each entry of the field-constant ROM satisfies the relation that defines it, and is the
root the table fixes. -/
def Obligations.FieldConstantsSatisfyTheirRelations : Prop :=
  ∀ (d : Reg) (s : State),
    Runs (.feConst d 0) s { f := [d] } (fun t => (t.getF d).val = 0) ∧
    Runs (.feConst d 1) s { f := [d] } (fun t => (t.getF d).val = 1) ∧
    Runs (.feConst d 2) s { f := [d] } (fun t => gf (t.getF d) = -1) ∧
    Runs (.feConst d 3) s { f := [d] } (fun t =>
      gf (t.getF d) = dGf ∧ 121666 * gf (t.getF d) = -121665) ∧
    Runs (.feConst d 4) s { f := [d] } (fun t => gf (t.getF d) = 2 * dGf) ∧
    Runs (.feConst d 5) s { f := [d] } (fun t =>
      gf (t.getF d) ^ 2 = -1 ∧ (t.getF d).val % 2 = 0) ∧
    Runs (.feConst d 6) s { f := [d] } (fun t =>
      gf (t.getF d) ^ 2 * (-1 - dGf) = 1 ∧ (t.getF d).val % 2 = 0) ∧
    Runs (.feConst d 7) s { f := [d] } (fun t =>
      gf (t.getF d) ^ 2 = -dGf - 1 ∧ (t.getF d).val % 2 = 1) ∧
    Runs (.feConst d 8) s { f := [d] } (fun t => gf (t.getF d) = 1 - dGf ^ 2) ∧
    Runs (.feConst d 9) s { f := [d] } (fun t => gf (t.getF d) = (dGf - 1) ^ 2)

/-- R160 to R163: loading discards bit 255 and reduces; storing writes the representative in [0, p). -/
def Obligations.FieldLoadAndStoreConvertBytes : Prop :=
  ∀ (r : Reg) (h : HalfField) (s : State), h.val ≤ 1 →
    Runs (.feLoad r h) s { f := [r] } (fun t =>
      (t.getF r).val = readLE s.mem (0x100 + 32 * h.val) 32 % 2 ^ 255 % (2 ^ 255 - 19)) ∧
    (Memory.wf s.mem = true →
      Runs (.feStore r h) s { bytes := [(0x100 + 32 * h.val, 32)] } fun t =>
        readLE t.mem (0x100 + 32 * h.val) 32 = (s.getF r).val)

/-- R183: FE_LOAD of FE_STORE gives the value back, and FE_STORE of FE_LOAD gives the bytes back after
canonicalisation. -/
def Obligations.FieldStoreThenLoadRoundTrips : Prop :=
  ∀ (d a : Reg) (h : HalfField) (s : State), h.val ≤ 1 → Memory.wf s.mem = true →
    (∃ t u, exec (.feStore a h) s = .next t ∧ exec (.feLoad d h) t = .next u ∧
      u.getF d = s.getF a) ∧
    (∃ t u, exec (.feLoad d h) s = .next t ∧ exec (.feStore d h) t = .next u ∧
      (s.readHalf h < 2 ^ 255 - 19 → u.readHalf h = s.readHalf h) ∧
      (2 ^ 255 - 19 ≤ s.readHalf h → s.readHalf h < 2 ^ 255 →
        u.readHalf h = s.readHalf h - (2 ^ 255 - 19)))

/-- R180, R182: FE_SQRTRATIO gives the case table: which cases are squares, and the one non-negative root. -/
def Obligations.SquareRootOfRatioFollowsTheCaseTable : Prop :=
  ∀ (d a b c : Reg) (s : State),
    Runs (.feSqrtratio d a b c) s { f := [d], k := [c] } fun t =>
      (t.getF d).val % 2 = 0 ∧
      (gf (s.getF b) = 0 →
        gf (t.getF d) = 0 ∧ (t.getK c = true ↔ gf (s.getF a) = 0)) ∧
      (gf (s.getF b) ≠ 0 →
        (t.getK c = true ↔ ∃ x : Gf, gf (s.getF b) * x ^ 2 = gf (s.getF a)) ∧
        (t.getK c = true → gf (s.getF b) * gf (t.getF d) ^ 2 = gf (s.getF a)) ∧
        (t.getK c = false →
          gf (s.getF b) * gf (t.getF d) ^ 2 =
            0x2b8324804fc1df0b2b4d00993dfbd7a72f431806ad2fe478c4ee1b274a0ea0b0 * gf (s.getF a)))

/-! ## Scalar commands (42_scalar.md) -/

/-- R201, R212, R217 to R221, R226: the scalar arithmetic, on stored integers, reduced to [0, ℓ). -/
def Obligations.ScalarArithmeticIsReduced : Prop :=
  ∀ (d a b c : Reg) (s : State),
    Runs (.scAdd d a b) s { sc := [d] } (fun t =>
      (t.getS d).val = ((s.getS a).val + (s.getS b).val) %
        (2 ^ 252 + 27742317777372353535851937790883648493)) ∧
    Runs (.scSub d a b) s { sc := [d] } (fun t =>
      ((t.getS d).val : Int) = (((s.getS a).val : Int) - (s.getS b).val) %
        (2 ^ 252 + 27742317777372353535851937790883648493)) ∧
    Runs (.scMul d a b) s { sc := [d] } (fun t =>
      (t.getS d).val = (s.getS a).val * (s.getS b).val %
        (2 ^ 252 + 27742317777372353535851937790883648493)) ∧
    Runs (.scMuladd d a b c) s { sc := [d] } (fun t =>
      (t.getS d).val = ((s.getS a).val * (s.getS b).val + (s.getS c).val) %
        (2 ^ 252 + 27742317777372353535851937790883648493)) ∧
    Runs (.scLoadwide d) s { sc := [d] } (fun t =>
      (t.getS d).val = (s.readHalf 0 + 2 ^ 256 * s.readHalf 1) %
        (2 ^ 252 + 27742317777372353535851937790883648493)) ∧
    Runs (.scReduce d a) s { sc := [d] } (fun t =>
      (t.getS d).val = (s.getS a).val % (2 ^ 252 + 27742317777372353535851937790883648493)) ∧
    Runs (.scMontmul d a b) s { sc := [d] } (fun t =>
      (t.getS d).val < 2 ^ 252 + 27742317777372353535851937790883648493 ∧
      (t.getS d).val * 2 ^ 261 % (2 ^ 252 + 27742317777372353535851937790883648493) =
        (s.getS a).val * (s.getS b).val % (2 ^ 252 + 27742317777372353535851937790883648493))

/-- R211, R213 to R216, R227: loads, with the two rejections of SC_LOAD, stores, copies, constants and the
comparison of stored integers. -/
def Obligations.ScalarTransfersGiveTheirResults : Prop :=
  ∀ (d a b : Reg) (h : HalfField) (s : State),
    (h.val ≤ 1 →
      (s.readHalf h < 2 ^ 252 + 27742317777372353535851937790883648493 →
        Runs (.scLoad d h) s { sc := [d] } fun t => (t.getS d).val = s.readHalf h) ∧
      (2 ^ 252 + 27742317777372353535851937790883648493 ≤ s.readHalf h →
        s.readHalf h < 2 ^ 255 → Raises (.scLoad d h) s errScalarNoncanonical) ∧
      (2 ^ 255 ≤ s.readHalf h → Raises (.scLoad d h) s errScalarHighBit) ∧
      Runs (.scLoadbits d h) s { sc := [d] } (fun t => (t.getS d).val = s.readHalf h % 2 ^ 255) ∧
      (Memory.wf s.mem = true →
        Runs (.scStore a h) s { bytes := [(0x100 + 32 * h.val, 32)] } fun t =>
          readLE t.mem (0x100 + 32 * h.val) 32 = (s.getS a).val)) ∧
    Runs (.scMov d a) s { sc := [d] } (fun t => t.getS d = s.getS a) ∧
    Runs (.scConst d 0) s { sc := [d] } (fun t => (t.getS d).val = 0) ∧
    Runs (.scConst d 1) s { sc := [d] } (fun t => (t.getS d).val = 1) ∧
    Runs (.scConst d 2) s { sc := [d] } (fun t =>
      (t.getS d).val = 2 ^ 252 + 27742317777372353535851937790883648493) ∧
    Runs (.scEq d a b) s { k := [d] } (fun t =>
      t.getK d = true ↔ (s.getS a).val = (s.getS b).val)

/-- R222, R223: the signed radix-16 digits that SC_RADIX16 writes to DIG sum to the scalar and lie in their
ranges, and the entries past them are 0. -/
def Obligations.Radix16DigitsSumToTheScalar : Prop :=
  ∀ (a : Reg) (s : State), Memory.wf s.mem = true →
    Runs (.scRadix16 a) s { bytes := [(0x200, 256)] } fun t =>
      digitSum t 16 64 = (s.getS a).val ∧
      (∀ i, i < 63 → -8 ≤ digAt t i ∧ digAt t i ≤ 7) ∧
      0 ≤ digAt t 63 ∧ digAt t 63 ≤ 8 ∧
      ∀ i, 64 ≤ i → i < 256 → digAt t i = 0

/-- R224, R225: the width-5 NAF digits that SC_NAF5 writes to DIG sum to the scalar, are 0 or odd and below
16 in size, and any two non-zero ones are at least 5 positions apart. -/
def Obligations.Naf5DigitsSumToTheScalar : Prop :=
  ∀ (a : Reg) (s : State), Memory.wf s.mem = true →
    Runs (.scNaf5 a) s { bytes := [(0x200, 256)] } fun t =>
      digitSum t 2 256 = (s.getS a).val ∧
      (∀ i, i < 256 → digAt t i = 0 ∨ (digAt t i % 2 = 1 ∧ -16 < digAt t i ∧ digAt t i < 16)) ∧
      ∀ i j, i < j → j < 256 → digAt t i ≠ 0 → digAt t j ≠ 0 → i + 5 ≤ j

/-- R204, R205, R206: the Montgomery constants; the limb procedure of Montgomery reduction gives T·R⁻¹ mod ℓ, in
[0, ℓ), for every T < R·ℓ; and the conversions into and out of Montgomery form and the product as two
reductions give their values, for stored scalars, with every reduced number below R·ℓ. -/
def Obligations.MontgomeryLimbsGiveTheReduction : Prop :=
  (lFactor < 2 ^ 29 ∧ (lFactor * groupL + 1) % 2 ^ 29 = 0 ∧ montR = 2 ^ 261 ∧
    montRModL = 2 ^ 261 % groupL ∧ montRR = 2 ^ 522 % groupL ∧
    montRInv < groupL ∧ montRInv * 2 ^ 261 % groupL = 1) ∧
  (∀ T : Nat, T < 2 ^ 261 * groupL →
    montgomeryLimbs T = montgomeryReduce T ∧ montgomeryReduce T < groupL ∧
      montgomeryReduce T * 2 ^ 261 % groupL = T % groupL) ∧
  ∀ x y : Nat, x < 2 ^ 255 → y < 2 ^ 255 →
    toMontgomery x = x * 2 ^ 261 % groupL ∧
    fromMontgomery y < groupL ∧ fromMontgomery y * 2 ^ 261 % groupL = y % groupL ∧
    montgomeryProduct x y = x * y % groupL ∧
    x * montRR < 2 ^ 261 * groupL ∧ x * y < 2 ^ 261 * groupL ∧
    montgomeryReduce (x * y) * montRR < 2 ^ 261 * groupL

/-! ## Point commands (43_point.md) -/

/-- R240 to R245: constants, copies, slots, tags and the select. -/
def Obligations.PointRegisterCommandsGiveTheirResults : Prop :=
  ∀ (d a b c : Reg) (imm : Byte) (s : State),
    Runs (.ptConst d 0) s { p := [d] } (fun t => HasSlots (t.getP d) .ext 0 1 1 0) ∧
    Runs (.ptConst d 1) s { p := [d] } (fun t => HasSlots (t.getP d) .ext
      0x216936d3cd6e53fec0a4e231fdd6dc5c692cc7609525a7b2c9562d608f25d51a
      0x6666666666666666666666666666666666666666666666666666666666666658 1
      0x67875f0fd78b766566ea4e8e64abe37d20f09f80775152f56dde8ab3a5b7dda3) ∧
    Runs (.ptConst d 2) s { p := [d] } (fun t => HasSlots (t.getP d) .proj 0 1 1 0) ∧
    Runs (.ptConst d 3) s { p := [d] } (fun t => HasSlots (t.getP d) .pn 1 1 1 0) ∧
    Runs (.ptConst d 4) s { p := [d] } (fun t => HasSlots (t.getP d) .an 1 1 0 0) ∧
    Runs (.ptMov d a) s { p := [d] } (fun t => t.getP d = s.getP a) ∧
    Runs (.ptGet d a 0) s { f := [d] } (fun t => t.getF d = (s.getP a).s0) ∧
    Runs (.ptGet d a 1) s { f := [d] } (fun t => t.getF d = (s.getP a).s1) ∧
    Runs (.ptGet d a 2) s { f := [d] } (fun t => t.getF d = (s.getP a).s2) ∧
    Runs (.ptGet d a 3) s { f := [d] } (fun t => t.getF d = (s.getP a).s3) ∧
    Runs (.ptSet d a 0) s { p := [d] } (fun t => t.getP d = { s.getP d with s0 := s.getF a }) ∧
    Runs (.ptSet d a 1) s { p := [d] } (fun t => t.getP d = { s.getP d with s1 := s.getF a }) ∧
    Runs (.ptSet d a 2) s { p := [d] } (fun t => t.getP d = { s.getP d with s2 := s.getF a }) ∧
    Runs (.ptSet d a 3) s { p := [d] } (fun t => t.getP d = { s.getP d with s3 := s.getF a }) ∧
    (imm.toNat ≤ 4 → Runs (.ptSettag d imm) s { p := [d] } fun t =>
      t.getP d = { s.getP d with tag := (t.getP d).tag } ∧
      some (t.getP d).tag = [Tag.ext, Tag.proj, Tag.comp, Tag.pn, Tag.an][imm.toNat]?) ∧
    ((s.getP a).tag = (s.getP b).tag → Runs (.ptSel d a b c) s { p := [d] } fun t =>
      (s.getK c = true → t.getP d = s.getP b) ∧ (s.getK c = false → t.getP d = s.getP a))

/-- R246: negation by tag; a PROJ or COMP source raises InvalidArgument(TAG). -/
def Obligations.PointNegationFollowsTheTag : Prop :=
  ∀ (d a : Reg) (s : State),
    ((s.getP a).tag = .ext → Runs (.ptNeg d a) s { p := [d] } fun t =>
      HasSlots (t.getP d) .ext (-gf (s.getP a).s0) (gf (s.getP a).s1) (gf (s.getP a).s2)
        (-gf (s.getP a).s3)) ∧
    ((s.getP a).tag = .pn → Runs (.ptNeg d a) s { p := [d] } fun t =>
      HasSlots (t.getP d) .pn (gf (s.getP a).s1) (gf (s.getP a).s0) (gf (s.getP a).s2)
        (-gf (s.getP a).s3)) ∧
    ((s.getP a).tag = .an → Runs (.ptNeg d a) s { p := [d] } fun t =>
      HasSlots (t.getP d) .an (gf (s.getP a).s1) (gf (s.getP a).s0) (-gf (s.getP a).s2) 0) ∧
    ((s.getP a).tag = .proj ∨ (s.getP a).tag = .comp → Raises (.ptNeg d a) s errTag)

/-- R232, R247 to R254: the conversions, slot for slot, as polynomials in the source slots; EXT_TO_AN divides by
Z, and gives (0, 0, 0, 0) for Z = 0. -/
def Obligations.ConversionsGiveTheirSlots : Prop :=
  ∀ (d a : Reg) (s : State) (X Y Z T : Gf),
    X = gf (s.getP a).s0 → Y = gf (s.getP a).s1 → Z = gf (s.getP a).s2 → T = gf (s.getP a).s3 →
    ((s.getP a).tag = .ext →
      Runs (.extToProj d a) s { p := [d] } (fun t => HasSlots (t.getP d) .proj X Y Z 0) ∧
      Runs (.extToPn d a) s { p := [d] } (fun t =>
        HasSlots (t.getP d) .pn (Y + X) (Y - X) Z (2 * dGf * T)) ∧
      Runs (.extToAn d a) s { p := [d] } (fun t =>
        ∃ x y : Gf, HasSlots (t.getP d) .an (y + x) (y - x) (2 * dGf * x * y) 0 ∧
          (Z ≠ 0 → x * Z = X ∧ y * Z = Y) ∧ (Z = 0 → x = 0 ∧ y = 0))) ∧
    ((s.getP a).tag = .proj →
      Runs (.projToExt d a) s { p := [d] } (fun t =>
        HasSlots (t.getP d) .ext (X * Z) (Y * Z) (Z ^ 2) (X * Y))) ∧
    ((s.getP a).tag = .comp →
      Runs (.compToProj d a) s { p := [d] } (fun t =>
        HasSlots (t.getP d) .proj (X * T) (Y * Z) (Z * T) 0) ∧
      Runs (.compToExt d a) s { p := [d] } (fun t =>
        HasSlots (t.getP d) .ext (X * T) (Y * Z) (Z * T) (X * Y))) ∧
    ((s.getP a).tag = .pn →
      Runs (.pnToExt d a) s { p := [d] } (fun t =>
        HasSlots (t.getP d) .ext (2 * (X - Y) * Z) (2 * (X + Y) * Z) (4 * Z ^ 2)
          ((X - Y) * (X + Y)))) ∧
    ((s.getP a).tag = .an →
      Runs (.anToExt d a) s { p := [d] } (fun t =>
        HasSlots (t.getP d) .ext (2 * (X - Y)) (2 * (X + Y)) 4 ((X - Y) * (X + Y))))

/-- R232, R255 to R259: the doubling and the mixed additions and subtractions into the completed model, slot
for slot. -/
def Obligations.CompletedFormulasGiveTheirSlots : Prop :=
  ∀ (d a b : Reg) (s : State) (X Y Z T q0 q1 q2 q3 : Gf),
    X = gf (s.getP a).s0 → Y = gf (s.getP a).s1 → Z = gf (s.getP a).s2 → T = gf (s.getP a).s3 →
    q0 = gf (s.getP b).s0 → q1 = gf (s.getP b).s1 → q2 = gf (s.getP b).s2 → q3 = gf (s.getP b).s3 →
    ((s.getP a).tag = .proj →
      Runs (.projDbl d a) s { p := [d] } (fun t =>
        HasSlots (t.getP d) .comp (2 * X * Y) (Y ^ 2 + X ^ 2) (Y ^ 2 - X ^ 2)
          (2 * Z ^ 2 - (Y ^ 2 - X ^ 2)))) ∧
    ((s.getP a).tag = .ext → (s.getP b).tag = .pn →
      Runs (.extAddPn d a b) s { p := [d] } (fun t =>
        HasSlots (t.getP d) .comp ((Y + X) * q0 - (Y - X) * q1) ((Y + X) * q0 + (Y - X) * q1)
          (2 * Z * q2 + T * q3) (2 * Z * q2 - T * q3)) ∧
      Runs (.extSubPn d a b) s { p := [d] } (fun t =>
        HasSlots (t.getP d) .comp ((Y + X) * q1 - (Y - X) * q0) ((Y + X) * q1 + (Y - X) * q0)
          (2 * Z * q2 - T * q3) (2 * Z * q2 + T * q3))) ∧
    ((s.getP a).tag = .ext → (s.getP b).tag = .an →
      Runs (.extAddAn d a b) s { p := [d] } (fun t =>
        HasSlots (t.getP d) .comp ((Y + X) * q0 - (Y - X) * q1) ((Y + X) * q0 + (Y - X) * q1)
          (2 * Z + T * q2) (2 * Z - T * q2)) ∧
      Runs (.extSubAn d a b) s { p := [d] } (fun t =>
        HasSlots (t.getP d) .comp ((Y + X) * q1 - (Y - X) * q0) ((Y + X) * q1 + (Y - X) * q0)
          (2 * Z - T * q2) (2 * Z + T * q2)))

/-- R232, R260, R261, R262: full addition, subtraction and doubling, slot for slot, through the four
intermediate values E, F, G, H. -/
def Obligations.EdwardsAdditionsGiveTheirSlots : Prop :=
  ∀ (d a b : Reg) (s : State) (X Y Z T X' Y' Z' T' : Gf),
    X = gf (s.getP a).s0 → Y = gf (s.getP a).s1 → Z = gf (s.getP a).s2 → T = gf (s.getP a).s3 →
    X' = gf (s.getP b).s0 → Y' = gf (s.getP b).s1 → Z' = gf (s.getP b).s2 → T' = gf (s.getP b).s3 →
    (s.getP a).tag = .ext →
    Runs (.edDbl d a) s { p := [d] } (fun t =>
      ∀ E F G H, E = 2 * X * Y → H = Y ^ 2 + X ^ 2 → G = Y ^ 2 - X ^ 2 → F = 2 * Z ^ 2 - G →
        HasSlots (t.getP d) .ext (E * F) (H * G) (G * F) (E * H)) ∧
    ((s.getP b).tag = .ext →
      Runs (.edAdd d a b) s { p := [d] } (fun t =>
        ∀ A B C D E F G H, A = (Y + X) * (Y' + X') → B = (Y - X) * (Y' - X') →
          C = 2 * dGf * T * T' → D = 2 * Z * Z' → E = A - B → H = A + B → G = D + C → F = D - C →
          HasSlots (t.getP d) .ext (E * F) (H * G) (G * F) (E * H)) ∧
      Runs (.edSub d a b) s { p := [d] } (fun t =>
        ∀ A B C D E F G H, A = (Y + X) * (Y' - X') → B = (Y - X) * (Y' + X') →
          C = 2 * dGf * T * T' → D = 2 * Z * Z' → E = A - B → H = A + B → G = D - C → F = D + C →
          HasSlots (t.getP d) .ext (E * F) (H * G) (G * F) (E * H)))

/-- R263: ED_MULPOW2 is k successive doublings in the projective model, the last one straight to EXT; k = 1 is
ED_DBL; the tag is checked before k = 0. -/
def Obligations.MultiplyByPowerOfTwoIsRepeatedDoubling : Prop :=
  ∀ (d a : Reg) (imm : Byte) (s : State),
    ((s.getP a).tag = .ext → imm ≠ 0 →
      Runs (.edMulpow2 d a imm) s { p := [d] } fun t =>
        t.getP d = Point.ofExt (compToExt (projDbl
          ((fun q => compToProj (projDbl q))^[imm.toNat - 1] (extToProj (s.getP a).asExt))))) ∧
    ((s.getP a).tag = .ext →
      ∃ t u, exec (.edMulpow2 d a 1) s = .next t ∧ exec (.edDbl d a) s = .next u ∧ t = u) ∧
    ((s.getP a).tag = .ext → Raises (.edMulpow2 d a 0) s errExponent) ∧
    ((s.getP a).tag ≠ .ext → Raises (.edMulpow2 d a imm) s errTag)

/-- R230, R260, R261, R262: on EXT contents that represent points of the curve, ED_ADD, ED_SUB and ED_DBL
compute the complete twisted Edwards addition law: the denominators never vanish, and the result represents
the sum, the difference and the double. -/
def Obligations.EdwardsAdditionIsTheCompleteLaw : Prop :=
  ∀ (d a b : Reg) (s : State) (x1 y1 x2 y2 : Gf),
    (s.getP a).tag = .ext → (s.getP b).tag = .ext →
    Represents (s.getP a).asExt x1 y1 → Represents (s.getP b).asExt x2 y2 →
    1 + dGf * x1 * x2 * y1 * y2 ≠ 0 ∧ 1 - dGf * x1 * x2 * y1 * y2 ≠ 0 ∧
    Runs (.edAdd d a b) s { p := [d] } (fun t => (t.getP d).tag = .ext ∧
      ∃ x y, Represents (t.getP d).asExt x y ∧
        x * (1 + dGf * x1 * x2 * y1 * y2) = x1 * y2 + y1 * x2 ∧
        y * (1 - dGf * x1 * x2 * y1 * y2) = y1 * y2 + x1 * x2) ∧
    Runs (.edSub d a b) s { p := [d] } (fun t => (t.getP d).tag = .ext ∧
      ∃ x y, Represents (t.getP d).asExt x y ∧
        x * (1 - dGf * x1 * x2 * y1 * y2) = x1 * y2 - y1 * x2 ∧
        y * (1 + dGf * x1 * x2 * y1 * y2) = y1 * y2 - x1 * x2) ∧
    Runs (.edDbl d a) s { p := [d] } (fun t => (t.getP d).tag = .ext ∧
      ∃ x y, Represents (t.getP d).asExt x y ∧
        x * (1 + dGf * x1 ^ 2 * y1 ^ 2) = 2 * x1 * y1 ∧
        y * (1 - dGf * x1 ^ 2 * y1 ^ 2) = y1 ^ 2 + x1 ^ 2)

/-- R264: ED_DECODE gives the point of the curve with the encoded y (bit 255 ignored, reduced mod p) whose x has
the encoded sign, with Z = 1 and T = XY; where no x exists it raises InvalidEncoding(EDWARDS_NOT_SQUARE). -/
def Obligations.EdwardsDecodeFindsThePoint : Prop :=
  ∀ (d : Reg) (h : HalfField) (s : State) (y : Gf), h.val ≤ 1 →
    y = ((s.readHalf h % 2 ^ 255 : Nat) : Gf) →
    ((∃ x, OnCurve x y) →
      Runs (.edDecode d h) s { p := [d] } fun t =>
        ∃ x, HasSlots (t.getP d) .ext x y 1 (x * y) ∧ OnCurve x y ∧
          (x ≠ 0 → ((t.getP d).s0.val % 2 = 1 ↔ 2 ^ 255 ≤ s.readHalf h))) ∧
    ((¬ ∃ x, OnCurve x y) → Raises (.edDecode d h) s errEdwardsNotSquare)

/-- R265: ED_ENCODE of a content with Z ≠ 0, X = xZ and Y = yZ, on the curve or not, stores y in [0, p) with
the sign of x in bit 255; a content with Z = 0 stores 32 zero bytes. -/
def Obligations.EdwardsEncodeStoresTheAffinePoint : Prop :=
  ∀ (a : Reg) (h : HalfField) (s : State), h.val ≤ 1 → Memory.wf s.mem = true →
    (s.getP a).tag = .ext →
    Runs (.edEncode a h) s { bytes := [(0x100 + 32 * h.val, 32)] } fun t =>
      (∀ x y : Gf, gf (s.getP a).s2 ≠ 0 → x * gf (s.getP a).s2 = gf (s.getP a).s0 →
        y * gf (s.getP a).s2 = gf (s.getP a).s1 →
        readLE t.mem (0x100 + 32 * h.val) 32 = ZMod.val y + ZMod.val x % 2 * 2 ^ 255) ∧
      (gf (s.getP a).s2 = 0 → readLE t.mem (0x100 + 32 * h.val) 32 = 0)

/-- R264, R265: encoding a point of the curve and decoding the bytes gives the same affine point, with Z = 1
and T = XY. -/
def Obligations.EdwardsEncodeThenDecodeRoundTrips : Prop :=
  ∀ (d a : Reg) (h : HalfField) (s : State) (x y : Gf), h.val ≤ 1 → Memory.wf s.mem = true →
    (s.getP a).tag = .ext → Represents (s.getP a).asExt x y →
    ∃ t u, exec (.edEncode a h) s = .next t ∧ exec (.edDecode d h) t = .next u ∧
      HasSlots (u.getP d) .ext x y 1 (x * y)

/-- R266 to R269: the point predicates. -/
def Obligations.PointPredicatesDecideTheirRelations : Prop :=
  ∀ (d a b : Reg) (s : State), (s.getP a).tag = .ext →
    ((s.getP b).tag = .ext →
      Runs (.edEq d a b) s { k := [d] } fun t =>
        t.getK d = true ↔
          gf (s.getP a).s0 * gf (s.getP b).s2 = gf (s.getP b).s0 * gf (s.getP a).s2 ∧
          gf (s.getP a).s1 * gf (s.getP b).s2 = gf (s.getP b).s1 * gf (s.getP a).s2) ∧
    Runs (.edIsident d a) s { k := [d] } (fun t =>
      t.getK d = true ↔ gf (s.getP a).s0 = 0 ∧ gf (s.getP a).s1 = gf (s.getP a).s2) ∧
    Runs (.edIssmall d a) s { k := [d] } (fun t =>
      t.getK d = true ↔
        gf (edMulpow2 (s.getP a).asExt 3).X = 0 ∧
        gf (edMulpow2 (s.getP a).asExt 3).Y = gf (edMulpow2 (s.getP a).asExt 3).Z) ∧
    Runs (.edIstf d a) s { k := [d] } (fun t =>
      t.getK d = true ↔
        gf (edSmul (s.getP a).asExt groupL).X = 0 ∧
        gf (edSmul (s.getP a).asExt groupL).Y = gf (edSmul (s.getP a).asExt groupL).Z)

/-! ## Tables and scalar multiplication (44_scalarmul.md) -/

/-- R300, R302, R304, R307: each build replaces its whole table, entry by entry as its loop says; and the
constant ODD_ROM holds the AN forms of B, 3B, …, 15B, each the one before it plus 2B. -/
def Obligations.TableBuildsFollowTheirLoops : Prop :=
  (∀ (B : Ext) (Q : Nat → Ext),
    HasSlots (Point.ofExt B) .ext
      0x216936d3cd6e53fec0a4e231fdd6dc5c692cc7609525a7b2c9562d608f25d51a
      0x6666666666666666666666666666666666666666666666666666666666666658 1
      0x67875f0fd78b766566ea4e8e64abe37d20f09f80775152f56dde8ab3a5b7dda3 →
    Q 0 = B → (∀ i, Q (i + 1) = edAdd (Q i) (edDbl B)) →
    ∀ j : Fin 8, oddRom.get j = extToAn (Q j.val)) ∧
  ∀ (a : Reg) (s : State) (A : Ext), A = (s.getP a).asExt → (s.getP a).tag = .ext →
    Runs (.lutBuild a) s { lut := true } (fun t =>
      t.lut.get 0 = extToPn A ∧
      ∀ j : Fin 7, t.lut.get j.succ =
        extToPn (compToExt (extAddPn A (t.lut.get j.castSucc)))) ∧
    Runs (.nlutBuild a) s { nlut := true } (fun t =>
      t.nlut.get 0 = extToPn A ∧
      ∀ j : Fin 7, t.nlut.get j.succ =
        extToPn (compToExt (extAddPn (edDbl A) (t.nlut.get j.castSucc)))) ∧
    Runs (.btBuild a) s { bt := true } (fun t =>
      ∀ (i : Fin 32) (Q : Ext), Q = (fun q => edMulpow2 q 8)^[i.val] A →
        (t.bt.get i).get 0 = extToAn Q ∧
        ∀ j : Fin 7, (t.bt.get i).get j.succ =
          extToAn (compToExt (extAddAn Q ((t.bt.get i).get j.castSucc))))

/-- R301, R303, R306, R308: the selects give the identity for 0, entry |x| for x > 0 and its negation for
x < 0; NLUT_SEL gives entry imm div 2. -/
def Obligations.SelectsGiveTheSignedEntry : Prop :=
  ∀ (d : Reg) (imm u : Byte) (s : State),
    (imm = 0 → Runs (.lutSel d imm) s { p := [d] } fun t => HasSlots (t.getP d) .pn 1 1 1 0) ∧
    (∀ j : Fin 8, imm.toInt = j.val + 1 → Runs (.lutSel d imm) s { p := [d] } fun t =>
      t.getP d = Point.ofPn (s.lut.get j)) ∧
    (∀ j : Fin 8, imm.toInt = -(j.val + 1 : Int) → Runs (.lutSel d imm) s { p := [d] } fun t =>
      HasSlots (t.getP d) .pn (gf (s.lut.get j).ymx) (gf (s.lut.get j).ypx) (gf (s.lut.get j).Z)
        (-gf (s.lut.get j).t2d)) ∧
    (∀ j : Fin 8, imm.toNat = 2 * j.val + 1 → Runs (.nlutSel d imm) s { p := [d] } fun t =>
      t.getP d = Point.ofPn (s.nlut.get j)) ∧
    (∀ i : Fin 32, u.toNat = i.val →
      (imm = 0 → Runs (.btSel d u imm) s { p := [d] } fun t => HasSlots (t.getP d) .an 1 1 0 0) ∧
      (∀ j : Fin 8, imm.toInt = j.val + 1 → Runs (.btSel d u imm) s { p := [d] } fun t =>
        t.getP d = Point.ofAn ((s.bt.get i).get j)) ∧
      (∀ j : Fin 8, imm.toInt = -(j.val + 1 : Int) → Runs (.btSel d u imm) s { p := [d] } fun t =>
        HasSlots (t.getP d) .an (gf ((s.bt.get i).get j).ymx) (gf ((s.bt.get i).get j).ypx)
          (-gf ((s.bt.get i).get j).xy2d) 0))

/-- R310, R311, R312: the three scalar multiplications run the loops of their rules over the digits of the
stored integers, counted by position: ED_SMUL from digit 62 down, ED_BMUL over the odd and then the even
positions, ED_VTDBL from the highest position with a non-zero digit (position 0 if there is none): a doubling,
then an addition or subtraction of entry |za| div 2 of its table and of entry |zb| div 2 of ODD_ROM. LUT, NLUT
and DIG are not written. -/
def Obligations.ScalarMultiplicationsFollowTheirLoops : Prop :=
  ∀ (d a b c : Reg) (s : State),
    ((s.getP a).tag = .ext →
      Runs (.edSmul d a b) s { p := [d] } fun t =>
        ∀ (e : Nat → Int) (tab : Vector Pn 8),
          (∀ i, e i = (radix16 (s.getS b).val).getD i 0) → tab = buildLut (s.getP a).asExt →
          t.getP d = Point.ofExt (compToExt ((List.range 63).reverse.foldl
            (fun q i => extAddPn (compToExt ((fun q => projDbl (compToProj q))^[4] q))
              (pnSelect tab (e i)))
            (extAddPn extIdentity (pnSelect tab (e 63)))))) ∧
    (Runs (.edBmul d a) s { p := [d] } fun t =>
      ∀ e : Nat → Int, (∀ i, e i = (radix16 (s.getS a).val).getD i 0) →
        t.getP d = Point.ofExt
          ((List.finRange 32).foldl
            (fun q j => compToExt (extAddAn q (anSelect (s.bt.get j) (e (2 * j.val)))))
            (edMulpow2
              ((List.finRange 32).foldl
                (fun q j => compToExt (extAddAn q (anSelect (s.bt.get j) (e (2 * j.val + 1)))))
                extIdentity) 4))) ∧
    ((s.getP b).tag = .ext →
      Runs (.edVtdbl d a b c) s { p := [d] } fun t =>
        ∀ (za zb : Nat → Int) (ja jb : Nat → Fin 8) (top : Nat) (tab : Vector Pn 8),
          (∀ i, za i = (naf5 (s.getS a).val).getD i 0) →
          (∀ i, zb i = (naf5 (s.getS c).val).getD i 0) →
          (∀ i, (ja i).val = (za i).natAbs / 2) → (∀ i, (jb i).val = (zb i).natAbs / 2) →
          top < 256 → (∀ i, top < i → za i = 0 ∧ zb i = 0) →
          (top = 0 ∨ za top ≠ 0 ∨ zb top ≠ 0) → tab = buildNlut (s.getP b).asExt →
          t.getP d = Point.ofExt (projToExt ((List.range (top + 1)).reverse.foldl
            (fun r i =>
              let t := projDbl r
              let t := if 0 < za i then extAddPn (compToExt t) (tab.get (ja i)) else t
              let t := if za i < 0 then extSubPn (compToExt t) (tab.get (ja i)) else t
              let t := if 0 < zb i then extAddAn (compToExt t) (oddRom.get (jb i)) else t
              let t := if zb i < 0 then extSubAn (compToExt t) (oddRom.get (jb i)) else t
              compToProj t)
            ⟨feZero, feOne, feOne⟩)))

/-- R270, R310: ED_SMUL of a content that represents a point of the curve gives, for every scalar, a content
that represents a point of the curve. -/
def Obligations.ScalarMultiplicationStaysOnTheCurve : Prop :=
  ∀ (d a b : Reg) (s : State) (x y : Gf), (s.getP a).tag = .ext →
    Represents (s.getP a).asExt x y →
    Runs (.edSmul d a b) s { p := [d] } fun t =>
      (t.getP d).tag = .ext ∧ ∃ x' y', Represents (t.getP d).asExt x' y'

/-! ## Ristretto commands (45_ristretto.md) -/

/-- R340: RI_DECODE of a string s below p and even gives the one point (x, y, 1, xy) with
y·(1 + s²) = 1 − s² and (−d·(1 − s²)² − (1 + s²)²)·x² = 4·s², with x and xy non-negative and y ≠ 0, where such
a point exists; otherwise it raises RISTRETTO_INVALID, and for any other string
RISTRETTO_NONCANONICAL_OR_NEG. -/
def Obligations.RistrettoDecodeFindsThePoint : Prop :=
  ∀ (d : Reg) (h : HalfField) (s : State) (σ : Gf), h.val ≤ 1 → σ = ((s.readHalf h : Nat) : Gf) →
    (2 ^ 255 - 19 ≤ s.readHalf h ∨ s.readHalf h % 2 = 1 →
      Raises (.riDecode d h) s errRistrettoNoncanonicalOrNeg) ∧
    (s.readHalf h < 2 ^ 255 - 19 → s.readHalf h % 2 = 0 →
      (∀ x y : Gf, y * (1 + σ ^ 2) = 1 - σ ^ 2 →
        (-dGf * (1 - σ ^ 2) ^ 2 - (1 + σ ^ 2) ^ 2) * x ^ 2 = 4 * σ ^ 2 →
        ZMod.val x % 2 = 0 → ZMod.val (x * y) % 2 = 0 → y ≠ 0 →
        Runs (.riDecode d h) s { p := [d] } fun t =>
          HasSlots (t.getP d) .ext x y 1 (x * y) ∧ OnCurve x y) ∧
      ((¬ ∃ x y : Gf, y * (1 + σ ^ 2) = 1 - σ ^ 2 ∧
        (-dGf * (1 - σ ^ 2) ^ 2 - (1 + σ ^ 2) ^ 2) * x ^ 2 = 4 * σ ^ 2 ∧
        ZMod.val x % 2 = 0 ∧ ZMod.val (x * y) % 2 = 0 ∧ y ≠ 0) →
        Raises (.riDecode d h) s errRistrettoInvalid))

/-- R341, R342, R344: RI_ENCODE stores the canonical, non-negative value of its formulas, where I is the
invsqrt of u1·u2² by the case table of R180; RI_EQ compares cross products; RI_FROMUNI adds the maps of the two
halves, bit 255 of each dropped. -/
def Obligations.RistrettoCommandsGiveTheirResults : Prop :=
  ∀ (d a b : Reg) (h : HalfField) (s : State),
    (∀ X Y Z T i u1 u2 : Gf,
      X = gf (s.getP a).s0 → Y = gf (s.getP a).s1 → Z = gf (s.getP a).s2 → T = gf (s.getP a).s3 →
      i = 0x2b8324804fc1df0b2b4d00993dfbd7a72f431806ad2fe478c4ee1b274a0ea0b0 →
      u1 = (Z + Y) * (Z - Y) → u2 = X * Y →
      h.val ≤ 1 → Memory.wf s.mem = true → (s.getP a).tag = .ext →
      Runs (.riEncode a h) s { bytes := [(0x100 + 32 * h.val, 32)] } fun t =>
        ∃ (I zInv X' Y' den Y'' : Gf) (n : Nat),
          ZMod.val I % 2 = 0 ∧
          (u1 * u2 ^ 2 = 0 → I = 0) ∧
          (∀ x : Gf, x ≠ 0 → u1 * u2 ^ 2 = x ^ 2 → I ^ 2 * (u1 * u2 ^ 2) = 1) ∧
          ((¬ ∃ x : Gf, u1 * u2 ^ 2 = x ^ 2) → I ^ 2 * (u1 * u2 ^ 2) = i) ∧
          zInv = I * u1 * (I * u2 * T) ∧
          (ZMod.val (T * zInv) % 2 = 1 →
            X' = i * Y ∧ Y' = i * X ∧
              den = I * u1 * 0x786c8905cfaffca216c27b91fe01d8409d2f16175a4172be99c8fdaa805d40ea) ∧
          (ZMod.val (T * zInv) % 2 = 0 → X' = X ∧ Y' = Y ∧ den = I * u2) ∧
          (ZMod.val (X' * zInv) % 2 = 1 → Y'' = -Y') ∧
          (ZMod.val (X' * zInv) % 2 = 0 → Y'' = Y') ∧
          n = readLE t.mem (0x100 + 32 * h.val) 32 ∧ n < 2 ^ 255 - 19 ∧ n % 2 = 0 ∧
          ((n : Gf) = den * (Z - Y'') ∨ (n : Gf) = -(den * (Z - Y'')))) ∧
    ((s.getP a).tag = .ext → (s.getP b).tag = .ext →
      Runs (.riEq d a b) s { k := [d] } fun t =>
        t.getK d = true ↔
          gf (s.getP a).s0 * gf (s.getP b).s1 = gf (s.getP a).s1 * gf (s.getP b).s0 ∨
          gf (s.getP a).s0 * gf (s.getP b).s0 = gf (s.getP a).s1 * gf (s.getP b).s1) ∧
    Runs (.riFromuni d) s { p := [d] } (fun t =>
      t.getP d = Point.ofExt (edAdd (riMap (Fe.ofNat (s.readHalf 0 % 2 ^ 255)))
        (riMap (Fe.ofNat (s.readHalf 1 % 2 ^ 255)))))

/-- R343: RI_MAP gives the Elligator point of its input: with r = i·r0², Ns and Dn, the root σ is the
non-negative root of Ns/Dn where that is a square, else the non-positive root of r·Ns/Dn (0 where Dn = 0),
and the slots are those of the completed point of the rule. -/
def Obligations.RistrettoMapGivesTheElligatorPoint : Prop :=
  ∀ (d a : Reg) (s : State) (i r Ns Dn : Gf),
    i = 0x2b8324804fc1df0b2b4d00993dfbd7a72f431806ad2fe478c4ee1b274a0ea0b0 →
    r = i * gf (s.getF a) ^ 2 → Ns = (r + 1) * (1 - dGf ^ 2) → Dn = (-1 - dGf * r) * (r + dGf) →
    Runs (.riMap d a) s { p := [d] } fun t =>
      ∃ (sq : Bool) (σ : Fe) (c X Y Z T : Gf),
        (Dn = 0 → sq = false ∧ gf σ = 0) ∧
        (Dn ≠ 0 → (sq = true ↔ ∃ x : Gf, Dn * x ^ 2 = Ns)) ∧
        (sq = true → Dn * gf σ ^ 2 = Ns ∧ σ.val % 2 = 0 ∧ c = -1) ∧
        (sq = false → c = r ∧ (Dn ≠ 0 → Dn * gf σ ^ 2 = r * Ns ∧ (σ.val % 2 = 1 ∨ gf σ = 0))) ∧
        X = 2 * gf σ * Dn ∧ Y = 1 - gf σ ^ 2 ∧
        Z = (c * (r - 1) * (dGf - 1) ^ 2 - Dn) *
          0x376931bf2b8348ac0f3cfcc931f5d1fdaf9d8e0c1b7854bd7e97f6a0497b2e1b ∧
        T = 1 + gf σ ^ 2 ∧
        HasSlots (t.getP d) .ext (X * T) (Y * Z) (Z * T) (X * Y)
end

