-- ==== Sys2Proof/Laws/Field.lean ====
section
/-! SUPPORT. The field helpers as operations of GF(p): each helper of 41_field.md is the ring operation on the
values, and the addition chain is the plain power. -/

namespace Sys2Proof.Machine

theorem fieldP_eq : fieldP = 2 ^ 255 - 19 := by decide +kernel

theorem fieldP_pos : 0 < fieldP := by decide +kernel

theorem val_ofNat (n : Nat) : (Fe.ofNat n).val = n % fieldP := rfl

@[simp] theorem gf_ofNat (n : Nat) : gf (Fe.ofNat n) = (n : Gf) := by
  rw [gf, val_ofNat, ZMod.natCast_mod]

theorem gf_injective {x y : Fe} (h : gf x = gf y) : x = y := by
  have h := (ZMod.natCast_eq_natCast_iff' _ _ _).1 h
  rw [Nat.mod_eq_of_lt x.isLt, Nat.mod_eq_of_lt y.isLt] at h
  exact Fin.ext h

theorem gf_inj {x y : Fe} : gf x = gf y ↔ x = y := ⟨gf_injective, fun h => by rw [h]⟩

/-- The representative in [0, p) of a value. -/
theorem zmodVal_gf (x : Fe) : ZMod.val (gf x) = x.val := by
  rw [gf, ZMod.val_natCast, Nat.mod_eq_of_lt x.isLt]

theorem gf_eq_zero {x : Fe} : gf x = 0 ↔ x.val = 0 := by
  have : (0 : Gf) = gf (Fe.ofNat 0) := by simp
  rw [this, gf_inj, Fin.ext_iff, val_ofNat]
  simp

@[simp] theorem gf_fadd (x y : Fe) : gf (fadd x y) = gf x + gf y := by
  rw [fadd, gf_ofNat, Nat.cast_add]; rfl

@[simp] theorem gf_fneg (x : Fe) : gf (fneg x) = -gf x := by
  rw [fneg, gf_ofNat, Nat.cast_sub (Nat.le_of_lt x.isLt), ZMod.natCast_self, zero_sub, gf]

@[simp] theorem gf_fsub (x y : Fe) : gf (fsub x y) = gf x - gf y := by
  rw [fsub, gf_ofNat, Nat.cast_add, Nat.cast_sub (Nat.le_of_lt y.isLt), ZMod.natCast_self, zero_sub, gf,
    gf, sub_eq_add_neg]

@[simp] theorem gf_fmul (x y : Fe) : gf (fmul x y) = gf x * gf y := by
  rw [fmul, gf_ofNat, Nat.cast_mul]; rfl

@[simp] theorem gf_fsq (x : Fe) : gf (fsq x) = gf x ^ 2 := by
  rw [fsq, gf_ofNat, Nat.cast_mul, sq]; rfl

@[simp] theorem gf_fsq2 (x : Fe) : gf (fsq2 x) = 2 * gf x ^ 2 := by
  rw [fsq2, gf_ofNat, Nat.cast_mul, Nat.cast_mul, sq]; rfl

theorem feq_iff {x y : Fe} : feq x y = true ↔ gf x = gf y := by
  rw [gf_inj, feq, beq_iff_eq, Fin.ext_iff]

theorem feq_iff_eq {x y : Fe} : feq x y = true ↔ x = y := feq_iff.trans gf_inj

theorem iszero_iff {x : Fe} : iszero x = true ↔ gf x = 0 := by
  rw [iszero, beq_iff_eq, gf_eq_zero]

theorem isneg_iff {x : Fe} : isneg x = true ↔ x.val % 2 = 1 := by
  rw [isneg, beq_iff_eq]

theorem fsel_true (x y : Fe) : fsel x y true = y := rfl

theorem fsel_false (x y : Fe) : fsel x y false = x := rfl

/-! ## The constants -/

@[simp] theorem gf_feZero : gf feZero = 0 := by simp [feZero]
@[simp] theorem gf_feOne : gf feOne = 1 := by simp [feOne]
@[simp] theorem gf_feD : gf feD = dGf := by simp [feD, dGf]

@[simp] theorem gf_feMinusOne : gf feMinusOne = -1 := by
  have h : feMinusOne = fneg feOne := by decide +kernel
  rw [h, gf_fneg, gf_feOne]

@[simp] theorem gf_feD2 : gf feD2 = 2 * dGf := by
  have h : feD2 = fadd feD feD := by decide +kernel
  rw [h, gf_fadd, gf_feD, two_mul]

theorem gf_feSqrtM1_sq : gf feSqrtM1 ^ 2 = -1 := by
  have h : fsq feSqrtM1 = feMinusOne := by decide +kernel
  rw [← gf_fsq, h, gf_feMinusOne]

/-! ## Sign and absolute value (R176, R179) -/

/-- Negating a non-zero value flips its sign, because p is odd. -/
theorem val_fneg {x : Fe} (h : x.val ≠ 0) : (fneg x).val = fieldP - x.val :=
  Nat.mod_eq_of_lt (by have := x.isLt; omega)

theorem isneg_ctabs (x : Fe) : isneg (ctabs x) = false := by
  have hp : fieldP % 2 = 1 := by decide +kernel
  have hx := x.isLt
  by_cases h : x.val % 2 = 1
  · have h1 : isneg x = true := isneg_iff.2 h
    rw [ctabs, h1, fsel_true, isneg, val_fneg (by omega)]
    simp only [beq_eq_false_iff_ne, ne_eq]
    omega
  · have h1 : isneg x = false := by simpa [isneg] using h
    rw [ctabs, h1, fsel_false, h1]

theorem gf_ctabs_sq (x : Fe) : gf (ctabs x) ^ 2 = gf x ^ 2 := by
  rw [ctabs]
  cases isneg x
  · rw [fsel_false]
  · rw [fsel_true, gf_fneg, neg_sq]

/-! ## The addition chain (R173) -/

theorem gf_fsqn (n : Nat) (x : Fe) : gf (fsqn n x) = gf x ^ 2 ^ n := by
  induction n generalizing x with
  | zero => simp [fsqn]
  | succ n ih => rw [fsqn, ih, gf_fsq, ← pow_mul, ← pow_succ']

theorem gf_pow22501 (x : Fe) :
    gf (pow22501 x).1 = gf x ^ (2 ^ 250 - 1) ∧ gf (pow22501 x).2 = gf x ^ 11 := by
  generalize hg : gf x = g
  constructor <;> simp only [pow22501, gf_fmul, gf_fsqn, hg, ← pow_mul, ← pow_add, ← pow_succ]
  · ring
  · ring

theorem gf_finv (x : Fe) : gf (finv x) = gf x ^ (2 ^ 255 - 21) := by
  rw [finv, gf_fmul, gf_fsqn, (gf_pow22501 x).1, (gf_pow22501 x).2, ← pow_mul, ← pow_add]
  norm_num only

theorem gf_fpowp58 (x : Fe) : gf (fpowp58 x) = gf x ^ (2 ^ 252 - 3) := by
  rw [fpowp58, gf_fmul, gf_fsqn, (gf_pow22501 x).1, ← pow_mul, ← pow_succ]
  norm_num only

end Sys2Proof.Machine
end

