-- ==== Sys2Proof/Laws/Prime.lean ====
section
/-! SUPPORT. p = 2^255 − 19 is prime (41_field.md R150: GF(p) is a field), by a chain of Lucas certificates:
each prime is proved from the prime factors of its predecessor. -/

namespace Sys2Proof.Machine

/-- b^e mod n by repeated squaring; `k` bounds the number of bits of e. -/
def powMod (n : Nat) : Nat → Nat → Nat → Nat
  | 0, _, _ => 1
  | k + 1, b, e =>
    let h := powMod n k (b * b % n) (e / 2)
    if e % 2 = 1 then b * h % n else h

theorem powMod_cast (n k b e : Nat) (h : e < 2 ^ k) :
    (powMod n k b e : ZMod n) = (b : ZMod n) ^ e := by
  induction k generalizing b e with
  | zero =>
    have : e = 0 := by simpa using h
    simp [powMod, this]
  | succ k ih =>
    have h2 : (powMod n k (b * b % n) (e / 2) : ZMod n) = (b : ZMod n) ^ (2 * (e / 2)) := by
      rw [ih _ _ (by rw [Nat.pow_succ] at h; omega), ZMod.natCast_mod, Nat.cast_mul, ← sq, ← pow_mul]
    have he := Nat.div_add_mod e 2
    simp only [powMod]
    split
    · next h1 =>
      rw [ZMod.natCast_mod, Nat.cast_mul, h2, ← pow_succ']
      congr 1
      omega
    · rw [h2]
      congr 1
      omega

/-- The Lucas test: `a` has order p − 1, where `qs` are the prime factors of p − 1 with repetition. -/
theorem prime_of_lucas (p a : Nat) (qs : List Nat) (hp : 1 < p) (hq : ∀ q ∈ qs, q.Prime)
    (hprod : qs.prod = p - 1) (hk : p < 2 ^ 256) (h1 : powMod p 256 a (p - 1) = 1)
    (h2 : ∀ q ∈ qs, powMod p 256 a ((p - 1) / q) < p ∧ powMod p 256 a ((p - 1) / q) ≠ 1) :
    p.Prime := by
  refine lucas_primality p (a : ZMod p) ?_ fun q hqp hqd => ?_
  · rw [← powMod_cast p 256 a _ (by omega), h1, Nat.cast_one]
  · rw [← hprod, hqp.prime.dvd_prod_iff] at hqd
    obtain ⟨r, hr, hqr⟩ := hqd
    have : q = r := (Nat.prime_dvd_prime_iff_eq hqp (hq r hr)).1 hqr
    subst this
    rw [← powMod_cast p 256 a _ (lt_of_le_of_lt (Nat.div_le_self _ _) (by omega))]
    intro h
    have h3 := (ZMod.natCast_eq_natCast_iff' _ 1 p).1 (by rw [h, Nat.cast_one])
    rw [Nat.mod_eq_of_lt (h2 q hr).1, Nat.mod_eq_of_lt hp] at h3
    exact (h2 q hr).2 h3

theorem prime_317577 : Nat.Prime 31757755568855353 := by
  refine prime_of_lucas _ 10
    [2, 2, 2, 3, 31, 107, 223, 4153, 430751]
    (by decide +kernel) ?_ (by decide +kernel) (by decide +kernel) (by decide +kernel) (by decide +kernel)
  intro q hq
  simp only [List.mem_cons, List.not_mem_nil, or_false] at hq
  rcases hq with rfl | rfl | rfl | rfl | rfl | rfl | rfl | rfl | rfl
  · norm_num
  · norm_num
  · norm_num
  · norm_num
  · norm_num
  · norm_num
  · norm_num
  · norm_num
  · norm_num

theorem prime_277332 : Nat.Prime 2773320623 := by
  refine prime_of_lucas _ 5
    [2, 2437, 569003]
    (by decide +kernel) ?_ (by decide +kernel) (by decide +kernel) (by decide +kernel) (by decide +kernel)
  intro q hq
  simp only [List.mem_cons, List.not_mem_nil, or_false] at hq
  rcases hq with rfl | rfl | rfl
  · norm_num
  · norm_num
  · norm_num

theorem prime_721063 : Nat.Prime 72106336199 := by
  refine prime_of_lucas _ 7
    [2, 13, 2773320623]
    (by decide +kernel) ?_ (by decide +kernel) (by decide +kernel) (by decide +kernel) (by decide +kernel)
  intro q hq
  simp only [List.mem_cons, List.not_mem_nil, or_false] at hq
  rcases hq with rfl | rfl | rfl
  · norm_num
  · norm_num
  · exact prime_277332

theorem prime_191951 : Nat.Prime 1919519569386763 := by
  refine prime_of_lucas _ 2
    [2, 3, 7, 19, 47, 47, 127, 8574133]
    (by decide +kernel) ?_ (by decide +kernel) (by decide +kernel) (by decide +kernel) (by decide +kernel)
  intro q hq
  simp only [List.mem_cons, List.not_mem_nil, or_false] at hq
  rcases hq with rfl | rfl | rfl | rfl | rfl | rfl | rfl | rfl
  · norm_num
  · norm_num
  · norm_num
  · norm_num
  · norm_num
  · norm_num
  · norm_num
  · norm_num

theorem prime_754457 : Nat.Prime 75445702479781427272750846543864801 := by
  refine prime_of_lucas _ 7
    [2, 2, 2, 2, 2, 3, 3, 5, 5, 75707, 72106336199, 1919519569386763]
    (by decide +kernel) ?_ (by decide +kernel) (by decide +kernel) (by decide +kernel) (by decide +kernel)
  intro q hq
  simp only [List.mem_cons, List.not_mem_nil, or_false] at hq
  rcases hq with rfl | rfl | rfl | rfl | rfl | rfl | rfl | rfl | rfl | rfl | rfl | rfl
  · norm_num
  · norm_num
  · norm_num
  · norm_num
  · norm_num
  · norm_num
  · norm_num
  · norm_num
  · norm_num
  · norm_num
  · exact prime_721063
  · exact prime_191951

theorem prime_740582 : Nat.Prime 74058212732561358302231226437062788676166966415465897661863160754340907 := by
  refine prime_of_lucas _ 2
    [2, 3, 353, 57467, 132049, 1923133, 31757755568855353, 75445702479781427272750846543864801]
    (by decide +kernel) ?_ (by decide +kernel) (by decide +kernel) (by decide +kernel) (by decide +kernel)
  intro q hq
  simp only [List.mem_cons, List.not_mem_nil, or_false] at hq
  rcases hq with rfl | rfl | rfl | rfl | rfl | rfl | rfl | rfl
  · norm_num
  · norm_num
  · norm_num
  · norm_num
  · norm_num
  · norm_num
  · exact prime_317577
  · exact prime_754457

theorem fieldP_prime : Nat.Prime fieldP := by
  refine prime_of_lucas _ 2
    [2, 2, 3, 65147, 74058212732561358302231226437062788676166966415465897661863160754340907]
    (by decide +kernel) ?_ (by decide +kernel) (by decide +kernel) (by decide +kernel) (by decide +kernel)
  intro q hq
  simp only [List.mem_cons, List.not_mem_nil, or_false] at hq
  rcases hq with rfl | rfl | rfl | rfl | rfl
  · norm_num
  · norm_num
  · norm_num
  · norm_num
  · exact prime_740582

end Sys2Proof.Machine
end

