-- ==== Sys2Proof/Laws/SqrtRatio.lean ====
section
/-! SUPPORT. The procedure of 41_field.md R181 gives the case table of R180. -/

namespace Sys2Proof.Machine

theorem gf_one_ne_neg_one : (1 : Gf) ≠ -1 := by
  have h : gf feOne ≠ gf feMinusOne := fun e => absurd (gf_injective e) (by decide +kernel)
  simpa using h

theorem gf_two_ne_zero : (2 : Gf) ≠ 0 := fun h =>
  gf_one_ne_neg_one (by linear_combination h)

/-- A non-zero value is a square exactly when its power (p − 1)/2 is 1. -/
theorem gf_isSquare_iff [Fact (Nat.Prime fieldP)] {w : Gf} (hw : w ≠ 0) :
    IsSquare w ↔ (w ^ (2 ^ 253 - 5)) ^ 2 = 1 := by
  rw [ZMod.euler_criterion fieldP hw, ← pow_mul,
    show fieldP / 2 = (2 ^ 253 - 5) * 2 by rw [fieldP_eq]; norm_num]

/-- The fourth roots of unity. -/
theorem gf_fourth_root [Fact (Nat.Prime fieldP)] {w : Gf} (hw : w ≠ 0) :
    w ^ (2 ^ 253 - 5) = 1 ∨ w ^ (2 ^ 253 - 5) = -1 ∨ w ^ (2 ^ 253 - 5) = gf feSqrtM1 ∨
      w ^ (2 ^ 253 - 5) = -gf feSqrtM1 := by
  have h4 : (w ^ (2 ^ 253 - 5)) ^ 4 = 1 := by
    rw [← pow_mul, show (2 ^ 253 - 5) * 4 = fieldP - 1 by rw [fieldP_eq]; norm_num]
    exact ZMod.pow_card_sub_one_eq_one hw
  generalize w ^ (2 ^ 253 - 5) = z at h4 ⊢
  have hi := gf_feSqrtM1_sq
  have h : (z - 1) * (z + 1) * ((z - gf feSqrtM1) * (z + gf feSqrtM1)) = 0 := by
    linear_combination h4 - (z ^ 2 - 1) * hi
  rcases mul_eq_zero.1 h with h | h <;> rcases mul_eq_zero.1 h with h | h
  · exact .inl (by linear_combination h)
  · exact .inr (.inl (by linear_combination h))
  · exact .inr (.inr (.inl (by linear_combination h)))
  · exact .inr (.inr (.inr (by linear_combination h)))

/-- u/v is a square exactly when u·v^7 is. -/
theorem gf_ratio_square [Fact (Nat.Prime fieldP)] {u v : Gf} (hv : v ≠ 0) :
    (∃ x, v * x ^ 2 = u) ↔ IsSquare (u * v ^ 7) := by
  constructor
  · rintro ⟨x, rfl⟩
    exact ⟨v ^ 4 * x, by ring⟩
  · rintro ⟨y, hy⟩
    refine ⟨y / v ^ 4, ?_⟩
    field_simp
    linear_combination -hy

/-- The case table of R180. -/
theorem sqrtRatio_spec (u v : Fe) :
    (sqrtRatioM1 u v).2.val % 2 = 0 ∧
    (gf v = 0 → gf (sqrtRatioM1 u v).2 = 0 ∧ ((sqrtRatioM1 u v).1 = true ↔ gf u = 0)) ∧
    (gf v ≠ 0 →
      ((sqrtRatioM1 u v).1 = true ↔ ∃ x : Gf, gf v * x ^ 2 = gf u) ∧
      ((sqrtRatioM1 u v).1 = true → gf v * gf (sqrtRatioM1 u v).2 ^ 2 = gf u) ∧
      ((sqrtRatioM1 u v).1 = false →
        gf v * gf (sqrtRatioM1 u v).2 ^ 2 = gf feSqrtM1 * gf u)) := by
  have : Fact (Nat.Prime fieldP) := ⟨fieldP_prime⟩
  have hi := gf_feSqrtM1_sq
  have h12 := gf_one_ne_neg_one
  generalize hx : fmul (fmul u (fmul (fsq v) v))
    (fpowp58 (fmul u (fmul (fsq (fmul (fsq v) v)) v))) = x
  have hr1 : (sqrtRatioM1 u v).1 = true ↔
      gf v * gf x ^ 2 = gf u ∨ gf v * gf x ^ 2 = -gf u := by
    simp only [sqrtRatioM1, hx, Bool.or_eq_true, feq_iff, gf_fmul, gf_fsq, gf_fneg]
  have hr2 : ∃ b, (sqrtRatioM1 u v).2 = ctabs (fsel x (fmul feSqrtM1 x) b) ∧
      (b = true ↔ gf v * gf x ^ 2 = -gf u ∨ gf v * gf x ^ 2 = -gf u * gf feSqrtM1) := by
    refine ⟨feq (fmul v (fsq x)) (fneg u) || feq (fmul v (fsq x)) (fmul (fneg u) feSqrtM1),
      by simp only [sqrtRatioM1, hx], ?_⟩
    simp only [Bool.or_eq_true, feq_iff, gf_fmul, gf_fsq, gf_fneg]
  obtain ⟨b, hr2, hb⟩ := hr2
  have hsq : gf (sqrtRatioM1 u v).2 ^ 2 = gf (fsel x (fmul feSqrtM1 x) b) ^ 2 := by
    rw [hr2, gf_ctabs_sq]
  have hxv : gf x = gf u * gf v ^ 3 * (gf u * gf v ^ 7) ^ (2 ^ 252 - 3) := by
    rw [← hx]
    simp only [gf_fmul, gf_fsq, gf_fpowp58]
    ring
  generalize gf u = U at *
  generalize gf v = V at *
  refine ⟨?_, fun hV => ?_, fun hV => ?_⟩
  · have := isneg_ctabs (fsel x (fmul feSqrtM1 x) b)
    rw [hr2]
    have h := mt isneg_iff.2 (by rw [this]; simp)
    omega
  · have hx0 : gf x = 0 := by rw [hxv, hV]; ring
    refine ⟨?_, ?_⟩
    · have : gf (sqrtRatioM1 u v).2 ^ 2 = 0 := by
        rw [hsq]
        cases b
        · rw [fsel_false, hx0]; ring
        · rw [fsel_true, gf_fmul, hx0]; ring
      exact pow_eq_zero_iff (two_ne_zero) |>.1 this
    · rw [hr1, hV]
      constructor
      · rintro (h | h)
        · linear_combination -h
        · linear_combination h
      · intro h
        left
        linear_combination -h
  · have hchk : V * gf x ^ 2 = U * (U * V ^ 7) ^ (2 ^ 253 - 5) := by
      have : (U * V ^ 7) ^ (2 ^ 253 - 5) = ((U * V ^ 7) ^ (2 ^ 252 - 3)) ^ 2 * (U * V ^ 7) := by
        rw [← pow_mul, ← pow_succ]
        norm_num only
      rw [hxv, this]
      ring
    by_cases hU : U = 0
    · have hc : V * gf x ^ 2 = 0 := by rw [hchk, hU]; ring
      have hx0 : gf x = 0 := by
        rcases mul_eq_zero.1 hc with h | h
        · exact absurd h hV
        · exact pow_eq_zero_iff (two_ne_zero) |>.1 h
      have ht : (sqrtRatioM1 u v).1 = true := hr1.2 (.inl (by rw [hc, hU]))
      have h0 : gf (sqrtRatioM1 u v).2 ^ 2 = 0 := by
        rw [hsq]
        cases b
        · rw [fsel_false, hx0]; ring
        · rw [fsel_true, gf_fmul, hx0]; ring
      refine ⟨⟨fun _ => ⟨0, by rw [hU]; ring⟩, fun _ => ht⟩, fun _ => ?_, fun h => ?_⟩
      · rw [h0, hU]; ring
      · rw [ht] at h; exact absurd h (by simp)
    · have hw : U * V ^ 7 ≠ 0 := mul_ne_zero hU (pow_ne_zero _ hV)
      have hroot := gf_fourth_root hw
      have hsqr := (gf_ratio_square (u := U) hV).trans (gf_isSquare_iff hw)
      have hcancel : ∀ a c : Gf, U * a = U * c ↔ a = c := fun a c => mul_right_inj' hU
      generalize (U * V ^ 7) ^ (2 ^ 253 - 5) = z at *
      have e1 : V * gf x ^ 2 = U ↔ z = 1 := by
        rw [hchk, ← hcancel z 1, mul_one]
      have e2 : V * gf x ^ 2 = -U ↔ z = -1 := by
        rw [hchk, ← hcancel z (-1), mul_neg_one]
      have e3 : V * gf x ^ 2 = -U * gf feSqrtM1 ↔ z = -gf feSqrtM1 := by
        rw [hchk, ← hcancel z (-gf feSqrtM1), mul_neg, neg_mul]
      rw [e1, e2] at hr1
      rw [e2, e3] at hb
      have hr : (sqrtRatioM1 u v).1 = true ↔ z ^ 2 = 1 := by
        rw [hr1]
        constructor
        · rintro (h | h) <;> rw [h] <;> ring
        · intro h
          rcases hroot with h1 | h1 | h1 | h1
          · exact .inl h1
          · exact .inr h1
          · rw [h1, hi] at h; exact absurd h.symm h12
          · rw [h1, neg_sq, hi] at h; exact absurd h.symm h12
      have hval : b = true → V * gf (sqrtRatioM1 u v).2 ^ 2 = -(U * z) := by
        intro h
        rw [hsq, h, fsel_true, gf_fmul]
        linear_combination (-1 : Gf) * hchk + V * gf x ^ 2 * hi
      have hval' : b = false → V * gf (sqrtRatioM1 u v).2 ^ 2 = U * z := by
        intro h
        rw [hsq, h, fsel_false, hchk]
      refine ⟨hr.trans hsqr.symm, fun h => ?_, fun h => ?_⟩
      · rcases hr1.1 h with h1 | h1
        · have hbf : b = false := by
            rw [← Bool.not_eq_true, hb, not_or, h1]
            refine ⟨h12, fun e => h12 ?_⟩
            have : (1 : Gf) ^ 2 = (-gf feSqrtM1) ^ 2 := by rw [← e]
            rw [neg_sq, hi] at this
            linear_combination this
          rw [hval' hbf, h1, mul_one]
        · rw [hval (hb.2 (.inl h1)), h1]; ring
      · have hn := fun e => (Bool.eq_false_iff.1 h) (hr1.2 e)
        rcases hroot with h1 | h1 | h1 | h1
        · exact absurd (.inl h1) hn
        · exact absurd (.inr h1) hn
        · have hbf : b = false := by
            rw [← Bool.not_eq_true, hb, not_or, h1]
            refine ⟨fun e => ?_, fun e => ?_⟩
            · rw [e] at hi; exact h12 (by linear_combination hi)
            · have h2 : 2 * gf feSqrtM1 = 0 := by linear_combination e
              rcases mul_eq_zero.1 h2 with h3 | h3
              · exact gf_two_ne_zero h3
              · rw [h3] at hi
                exact gf_one_ne_neg_one (by linear_combination (2 : Gf) * hi)
          rw [hval' hbf, h1]; ring
        · rw [hval (hb.2 (.inr h1)), h1]; ring

/-- invsqrt by the table of R180: 0 for 0, a root of 1/x for a square, of SQRT_M1/x for any other x. -/
theorem invsqrt_spec (x : Fe) :
    (invsqrt x).2.val % 2 = 0 ∧
    (gf x = 0 → gf (invsqrt x).2 = 0) ∧
    (∀ w : Gf, w ≠ 0 → gf x = w ^ 2 → gf (invsqrt x).2 ^ 2 * gf x = 1) ∧
    ((¬ ∃ w : Gf, gf x = w ^ 2) → gf (invsqrt x).2 ^ 2 * gf x = gf feSqrtM1) := by
  have : Fact (Nat.Prime fieldP) := ⟨fieldP_prime⟩
  obtain ⟨h1, h2, h3⟩ := sqrtRatio_spec feOne x
  simp only [gf_feOne, mul_one] at h2 h3
  refine ⟨h1, fun h => (h2 h).1, fun w hw hx => ?_, fun hn => ?_⟩
  · obtain ⟨hs, hr, -⟩ := h3 (by rw [hx]; exact pow_ne_zero 2 hw)
    rw [invsqrt, mul_comm]
    refine hr (hs.2 ⟨w⁻¹, ?_⟩)
    rw [hx, ← mul_pow, mul_inv_cancel₀ hw, one_pow]
  · have h0 : gf x ≠ 0 := fun h => hn ⟨0, by rw [h, zero_pow two_ne_zero]⟩
    obtain ⟨hs, -, hr⟩ := h3 h0
    rw [invsqrt, mul_comm]
    refine hr (Bool.eq_false_iff.2 fun ht => hn ?_)
    obtain ⟨w, hw⟩ := hs.1 ht
    have hw0 : w ≠ 0 := by
      rintro rfl
      simp at hw
    exact ⟨w⁻¹, by rw [inv_pow]; exact eq_inv_of_mul_eq_one_left hw⟩

end Sys2Proof.Machine
end

