-- ==== Sys2Proof/Laws/Curve.lean ====
section
/-! SUPPORT. The curve of 43_point.md R230 over GF(p): d is not a square, so the denominators of the addition
law never vanish, and the law stays on the curve; and each point formula as polynomials in GF(p). -/

namespace Sys2Proof.Machine

/-! ## The addition law -/

theorem dGf_pow : (dGf ^ (2 ^ 253 - 5)) ^ 2 = -1 := by
  have h : fsq (fmul (fsq (fpowp58 feD)) feD) = feMinusOne := by decide +kernel
  have h := congrArg gf h
  rw [gf_fsq, gf_fmul, gf_fsq, gf_fpowp58, gf_feD, gf_feMinusOne, ← pow_mul, ← pow_succ] at h
  rw [← h]
  norm_num only

theorem dGf_ne_zero : dGf ≠ 0 := by
  intro h
  have := dGf_pow
  rw [h, zero_pow (by norm_num), zero_pow (by norm_num)] at this
  exact gf_two_ne_zero (by linear_combination (2 : Gf) * this)

/-- d is not a square (R230). -/
theorem dGf_not_square (y : Gf) : y ^ 2 ≠ dGf := by
  have : Fact (Nat.Prime fieldP) := ⟨fieldP_prime⟩
  intro h
  have h1 := (gf_isSquare_iff dGf_ne_zero).1 ⟨y, by rw [← h, sq]⟩
  rw [dGf_pow] at h1
  exact gf_one_ne_neg_one h1.symm

/-- For two points of the curve, d·x1·x2·y1·y2 is neither 1 nor −1 (R230: the denominators never vanish). -/
theorem curve_product_sq_ne_one {x1 y1 x2 y2 : Gf} (h1 : OnCurve x1 y1) (h2 : OnCurve x2 y2) :
    (dGf * x1 * x2 * y1 * y2) ^ 2 ≠ 1 := by
  have : Fact (Nat.Prime fieldP) := ⟨fieldP_prime⟩
  intro he
  unfold OnCurve at h1 h2
  have hi := gf_feSqrtM1_sq
  generalize gf feSqrtM1 = i at hi
  have hne : x1 ≠ 0 ∧ y1 ≠ 0 ∧ y2 ≠ 0 := by
    refine ⟨fun h => ?_, fun h => ?_, fun h => ?_⟩ <;> rw [h] at he <;>
      exact gf_two_ne_zero (by linear_combination (-2 : Gf) * he)
  obtain ⟨hx1, hy1, hy2⟩ := hne
  have key : ∀ σ : Gf, σ ^ 2 = 1 →
      (i * x1 + σ * (dGf * x1 * x2 * y1 * y2) * y1) ^ 2 =
        dGf * (x1 * y1 * (i * x2 + σ * y2)) ^ 2 := by
    intro σ hσ
    linear_combination (x1 ^ 2 - dGf * x1 ^ 2 * y1 ^ 2 * x2 ^ 2) * hi +
      ((dGf * x1 * x2 * y1 * y2) ^ 2 * y1 ^ 2 - dGf * x1 ^ 2 * y1 ^ 2 * y2 ^ 2) * hσ +
      (y1 ^ 2 - 1) * he + h1 - dGf * x1 ^ 2 * y1 ^ 2 * h2
  have nz : ∀ σ : Gf, σ ^ 2 = 1 → i * x2 + σ * y2 = 0 := by
    intro σ hσ
    by_contra hn
    refine dGf_not_square ((i * x1 + σ * (dGf * x1 * x2 * y1 * y2) * y1) /
      (x1 * y1 * (i * x2 + σ * y2))) ?_
    rw [div_pow, key σ hσ, mul_div_assoc, div_self (pow_ne_zero _ (mul_ne_zero (mul_ne_zero hx1 hy1) hn)),
      mul_one]
  have hp := nz 1 (by ring)
  have hm := nz (-1) (by ring)
  have : 2 * y2 = 0 := by linear_combination hp - hm
  rcases mul_eq_zero.1 this with h | h
  · exact gf_two_ne_zero h
  · exact hy2 h

theorem curve_denominators {x1 y1 x2 y2 : Gf} (h1 : OnCurve x1 y1) (h2 : OnCurve x2 y2) :
    1 + dGf * x1 * x2 * y1 * y2 ≠ 0 ∧ 1 - dGf * x1 * x2 * y1 * y2 ≠ 0 := by
  have h := curve_product_sq_ne_one h1 h2
  constructor <;> intro e <;> apply h
  · linear_combination (dGf * x1 * x2 * y1 * y2 - 1) * e
  · linear_combination (-(dGf * x1 * x2 * y1 * y2) - 1) * e

/-- The sum of two points of the curve is a point of the curve. -/
theorem curve_add_closed {x1 y1 x2 y2 x y : Gf} (h1 : OnCurve x1 y1) (h2 : OnCurve x2 y2)
    (hx : x * (1 + dGf * x1 * x2 * y1 * y2) = x1 * y2 + y1 * x2)
    (hy : y * (1 - dGf * x1 * x2 * y1 * y2) = y1 * y2 + x1 * x2) : OnCurve x y := by
  have : Fact (Nat.Prime fieldP) := ⟨fieldP_prime⟩
  obtain ⟨hp, hm⟩ := curve_denominators h1 h2
  unfold OnCurve at *
  set e := dGf * x1 * x2 * y1 * y2 with he
  have hA : x ^ 2 * (1 + e) ^ 2 = (x1 * y2 + y1 * x2) ^ 2 := by rw [← hx]; ring
  have hB : y ^ 2 * (1 - e) ^ 2 = (y1 * y2 + x1 * x2) ^ 2 := by rw [← hy]; ring
  have hAB : dGf * (x ^ 2 * y ^ 2) * ((1 + e) ^ 2 * (1 - e) ^ 2) =
      dGf * ((x1 * y2 + y1 * x2) ^ 2 * (y1 * y2 + x1 * x2) ^ 2) := by
    rw [← hA, ← hB]; ring
  have hid : -(x1 * y2 + y1 * x2) ^ 2 * (1 - e) ^ 2 + (y1 * y2 + x1 * x2) ^ 2 * (1 + e) ^ 2 =
      (1 + e) ^ 2 * (1 - e) ^ 2 +
        dGf * ((x1 * y2 + y1 * x2) ^ 2 * (y1 * y2 + x1 * x2) ^ 2) := by
    rw [he]
    linear_combination (1 + (dGf * x1 * x2 * y1 * y2) ^ 2) *
        (h1 * (y2 ^ 2 - x2 ^ 2) + (1 + dGf * x1 ^ 2 * y1 ^ 2) * h2) -
      dGf * x1 ^ 2 * y1 ^ 2 * (y2 ^ 2 - x2 ^ 2 + 1 + dGf * x2 ^ 2 * y2 ^ 2) * h2 -
      dGf * x2 ^ 2 * y2 ^ 2 * (y1 ^ 2 - x1 ^ 2 + 1 + dGf * x1 ^ 2 * y1 ^ 2) * h1
  refine mul_right_cancel₀ (b := (1 + e) ^ 2 * (1 - e) ^ 2)
    (mul_ne_zero (pow_ne_zero _ hp) (pow_ne_zero _ hm)) ?_
  linear_combination hid - (1 - e) ^ 2 * hA + (1 + e) ^ 2 * hB - hAB

theorem onCurve_neg {x y : Gf} (h : OnCurve x y) : OnCurve (-x) y := by
  unfold OnCurve at *
  linear_combination h

theorem onCurve_identity : OnCurve 0 1 := by
  unfold OnCurve
  ring

/-! ## A completed point of the addition law represents the sum -/

/-- The slots (E·F, H·G, G·F, E·H) of comp_to_ext on the completed point of an addition, where the four values
carry a common factor k. -/
theorem represents_of_completed {q : Ext} {k x1 y1 x2 y2 : Gf} (hk : k ≠ 0) (h1 : OnCurve x1 y1)
    (h2 : OnCurve x2 y2)
    (hX : gf q.X = k * (x1 * y2 + y1 * x2) * (k * (1 - dGf * x1 * x2 * y1 * y2)))
    (hY : gf q.Y = k * (y1 * y2 + x1 * x2) * (k * (1 + dGf * x1 * x2 * y1 * y2)))
    (hZ : gf q.Z = k * (1 + dGf * x1 * x2 * y1 * y2) * (k * (1 - dGf * x1 * x2 * y1 * y2)))
    (hT : gf q.T = k * (x1 * y2 + y1 * x2) * (k * (y1 * y2 + x1 * x2))) :
    ∃ x y, Represents q x y ∧
      x * (1 + dGf * x1 * x2 * y1 * y2) = x1 * y2 + y1 * x2 ∧
      y * (1 - dGf * x1 * x2 * y1 * y2) = y1 * y2 + x1 * x2 := by
  have : Fact (Nat.Prime fieldP) := ⟨fieldP_prime⟩
  obtain ⟨hp, hm⟩ := curve_denominators h1 h2
  have hx : (x1 * y2 + y1 * x2) / (1 + dGf * x1 * x2 * y1 * y2) *
      (1 + dGf * x1 * x2 * y1 * y2) = x1 * y2 + y1 * x2 := div_mul_cancel₀ _ hp
  have hy : (y1 * y2 + x1 * x2) / (1 - dGf * x1 * x2 * y1 * y2) *
      (1 - dGf * x1 * x2 * y1 * y2) = y1 * y2 + x1 * x2 := div_mul_cancel₀ _ hm
  refine ⟨_, _, ⟨curve_add_closed h1 h2 hx hy, ?_, ?_, ?_, ?_⟩, hx, hy⟩
  · rw [hZ]
    exact mul_ne_zero (mul_ne_zero hk hp) (mul_ne_zero hk hm)
  · rw [hX, hZ]
    linear_combination -k ^ 2 * (1 - dGf * x1 * x2 * y1 * y2) * hx
  · rw [hY, hZ]
    linear_combination -k ^ 2 * (1 + dGf * x1 * x2 * y1 * y2) * hy
  · rw [hX, hY, hZ, hT]
    ring

/-- T of a content that represents (x, y) is xyZ. -/
theorem Represents.t_eq {q : Ext} {x y : Gf} (h : Represents q x y) :
    gf q.T = x * y * gf q.Z := by
  have : Fact (Nat.Prime fieldP) := ⟨fieldP_prime⟩
  refine mul_left_cancel₀ h.zNonzero ?_
  rw [← h.ht, h.hx, h.hy]
  ring

/-- A content represents at most one point. -/
theorem Represents.unique {q : Ext} {x y x' y' : Gf} (h : Represents q x y)
    (h' : Represents q x' y') : x = x' ∧ y = y' := by
  have : Fact (Nat.Prime fieldP) := ⟨fieldP_prime⟩
  exact ⟨mul_right_cancel₀ h.zNonzero (h.hx.symm.trans h'.hx),
    mul_right_cancel₀ h.zNonzero (h.hy.symm.trans h'.hy)⟩

/-- Contents with the same values are the same. -/
theorem ext_of_gf {a b : Ext} (hX : gf a.X = gf b.X) (hY : gf a.Y = gf b.Y) (hZ : gf a.Z = gf b.Z)
    (hT : gf a.T = gf b.T) : a = b := by
  cases a
  cases b
  simp only [gf_inj] at *
  subst_vars
  rfl

/-- ed_add computes the addition law (43_point.md R230, R260). -/
theorem represents_edAdd {p q : Ext} {x1 y1 x2 y2 : Gf} (h1 : Represents p x1 y1)
    (h2 : Represents q x2 y2) :
    ∃ x y, Represents (edAdd p q) x y ∧
      x * (1 + dGf * x1 * x2 * y1 * y2) = x1 * y2 + y1 * x2 ∧
      y * (1 - dGf * x1 * x2 * y1 * y2) = y1 * y2 + x1 * x2 := by
  have : Fact (Nat.Prime fieldP) := ⟨fieldP_prime⟩
  have t1 := h1.t_eq
  have t2 := h2.t_eq
  refine represents_of_completed (k := 2 * gf p.Z * gf q.Z)
    (mul_ne_zero (mul_ne_zero gf_two_ne_zero h1.zNonzero) h2.zNonzero) h1.curve h2.curve
    ?_ ?_ ?_ ?_ <;>
  · simp only [edAdd, compToExt, extAddPn, extToPn, gf_fadd, gf_fsub, gf_fmul, gf_feD2, t1, t2, h1.hx,
      h1.hy, h2.hx, h2.hy]
    ring

/-- ed_dbl computes the double (R230, R262). -/
theorem represents_edDbl {p : Ext} {x1 y1 : Gf} (h1 : Represents p x1 y1) :
    ∃ x y, Represents (edDbl p) x y ∧
      x * (1 + dGf * x1 * x1 * y1 * y1) = x1 * y1 + y1 * x1 ∧
      y * (1 - dGf * x1 * x1 * y1 * y1) = y1 * y1 + x1 * x1 := by
  have : Fact (Nat.Prime fieldP) := ⟨fieldP_prime⟩
  have c := h1.curve
  unfold OnCurve at c
  refine represents_of_completed (k := gf p.Z ^ 2) (pow_ne_zero _ h1.zNonzero) h1.curve h1.curve
    ?_ ?_ ?_ ?_ <;>
    simp only [edDbl, compToExt, projDbl, extToProj, gf_fadd, gf_fsub, gf_fmul, gf_fsq, gf_fsq2, h1.hx,
      h1.hy]
  · linear_combination (-2 * x1 * y1 * gf p.Z ^ 4) * c
  · linear_combination ((y1 ^ 2 + x1 ^ 2) * gf p.Z ^ 4) * c
  · linear_combination (gf p.Z ^ 4 * (2 - (-x1 ^ 2 + y1 ^ 2)) -
      gf p.Z ^ 4 * (1 + dGf * x1 ^ 2 * y1 ^ 2)) * c
  · ring

theorem represents_extNeg {q : Ext} {x y : Gf} (h : Represents q x y) :
    Represents (extNeg q) (-x) y where
  curve := onCurve_neg h.curve
  zNonzero := h.zNonzero
  hx := by simp only [extNeg, gf_fneg, h.hx]; ring
  hy := h.hy
  ht := by simp only [extNeg, gf_fneg]; linear_combination -h.ht

/-- ed_sub is ed_add of the negation (R246, R261). -/
theorem edSub_eq_edAdd_neg (p q : Ext) : edSub p q = edAdd p (extNeg q) := by
  apply ext_of_gf <;>
    simp only [edSub, edAdd, compToExt, extAddPn, extSubPn, extToPn, extNeg, gf_fadd, gf_fsub, gf_fneg,
      gf_fmul, gf_feD2] <;> ring

end Sys2Proof.Machine
end

