-- ==== Sys2Proof/Laws/Memory.lean ====
section
/-! SUPPORT. The laws of BUF and DIG: reading after writing, and that every memory operation keeps the
canonical form and the windows. -/

namespace Sys2Proof.Machine

/-! ## One byte -/

theorem memRead_memWrite_ne (m : List Host.Cell) (a x : Nat) (b : Byte) (h : x ≠ a) :
    memRead (memWrite m a b) x = memRead m x := by
  induction m with
  | nil => simp only [memWrite]; split <;> simp [memRead, Ne.symm h]
  | cons c rest ih =>
    simp only [memWrite]
    split
    · simp [memRead, ih]
    · split
      · next hc =>
        split <;> simp [memRead, hc, Ne.symm h]
      · split <;> simp [memRead, Ne.symm h]

theorem memRead_of_lt {m : List Host.Cell} {lo x : Nat} (hm : memWfFrom lo m = true) (h : x < lo) :
    memRead m x = 0 := by
  induction m generalizing lo with
  | nil => rfl
  | cons c rest ih =>
    simp only [memWfFrom, Bool.and_eq_true, decide_eq_true_eq] at hm
    have : c.1 ≠ x := by omega
    simp only [memRead, this, if_false]
    exact ih hm.2 (by omega)

theorem memWfFrom_mono {m : List Host.Cell} {lo lo' : Nat} (h : lo' ≤ lo)
    (hm : memWfFrom lo m = true) : memWfFrom lo' m = true := by
  cases m with
  | nil => rfl
  | cons c rest =>
    simp only [memWfFrom, Bool.and_eq_true, decide_eq_true_eq] at hm ⊢
    exact ⟨⟨by omega, hm.1.2⟩, hm.2⟩

theorem memRead_memWrite_self {m : List Host.Cell} {lo : Nat} (hm : memWfFrom lo m = true) (a : Nat)
    (b : Byte) : memRead (memWrite m a b) a = b := by
  induction m generalizing lo with
  | nil =>
    simp only [memWrite]
    split
    · next hb => rw [hb]; rfl
    · simp [memRead]
  | cons c rest ih =>
    have hr := hm
    simp only [memWfFrom, Bool.and_eq_true, decide_eq_true_eq] at hr
    simp only [memWrite]
    split
    · next h => simp [memRead, Nat.ne_of_lt h, ih hr.2]
    · split
      · next h =>
        split
        · next hb => rw [hb, ← h]; exact memRead_of_lt hr.2 (by omega)
        · simp [memRead]
      · split
        · next hb =>
          have h1 : c.1 ≠ a := by assumption
          simp only [memRead, h1, if_false, hb]
          exact memRead_of_lt hr.2 (by omega)
        · simp [memRead]

theorem memWfFrom_memWrite {m : List Host.Cell} {lo : Nat} (hm : memWfFrom lo m = true) {a : Nat}
    (ha : lo ≤ a) (b : Byte) : memWfFrom lo (memWrite m a b) = true := by
  induction m generalizing lo with
  | nil =>
    simp only [memWrite]
    split
    · rfl
    · next hb => simpa [memWfFrom, ha] using hb
  | cons c rest ih =>
    have hr := hm
    simp only [memWfFrom, Bool.and_eq_true, decide_eq_true_eq] at hr
    simp only [memWrite]
    split
    · next h =>
      simp only [memWfFrom, Bool.and_eq_true, decide_eq_true_eq]
      exact ⟨hr.1, ih hr.2 (by omega)⟩
    · split
      · next h =>
        split
        · exact memWfFrom_mono (by omega) hr.2
        · next hb =>
          simp only [memWfFrom, Bool.and_eq_true, decide_eq_true_eq]
          exact ⟨⟨ha, by simpa using hb⟩, h ▸ hr.2⟩
      · split
        · exact hm
        · next hb =>
          simp only [memWfFrom, Bool.and_eq_true, decide_eq_true_eq]
          exact ⟨⟨ha, by simpa using hb⟩, ⟨by omega, hr.1.2⟩, hr.2⟩

theorem wf_memWrite {m : List Host.Cell} (hm : Memory.wf m = true) (a : Nat) (b : Byte) :
    Memory.wf (memWrite m a b) = true := memWfFrom_memWrite hm (Nat.zero_le a) b

theorem wf_nil : Memory.wf [] = true := rfl

theorem mem_memWrite {m : List Host.Cell} {a : Nat} {b : Byte} {c : Host.Cell}
    (h : c ∈ memWrite m a b) : c ∈ m ∨ c.1 = a := by
  induction m with
  | nil =>
    simp only [memWrite] at h
    split at h
    · exact absurd h (by simp)
    · exact .inr (by rw [List.mem_singleton.1 h])
  | cons e rest ih =>
    simp only [memWrite] at h
    split at h
    · rcases List.mem_cons.1 h with h | h
      · exact .inl (by simp [h])
      · exact (ih h).imp (List.mem_cons_of_mem _) id
    · split at h
      · split at h
        · exact .inl (List.mem_cons_of_mem _ h)
        · rcases List.mem_cons.1 h with h | h
          · exact .inr (by rw [h])
          · exact .inl (List.mem_cons_of_mem _ h)
      · split at h
        · exact .inl h
        · rcases List.mem_cons.1 h with h | h
          · exact .inr (by rw [h])
          · exact .inl h

/-! ## MemRead and MemWrite of n bytes -/

theorem readLE_lt (m : List Host.Cell) (a n : Nat) : readLE m a n < 256 ^ n := by
  induction n generalizing a with
  | zero => simp [readLE]
  | succ n ih =>
    have h1 := ih (a + 1)
    have h2 := (memRead m a).isLt
    simp only [readLE, Nat.pow_succ]
    omega

/-- A read of n + k bytes is the read of the low n and the high k (20_memory.md R76). -/
theorem readLE_add (m : List Host.Cell) (a n k : Nat) :
    readLE m a (n + k) = readLE m a n + 256 ^ n * readLE m (a + n) k := by
  induction n generalizing a with
  | zero => simp [readLE]
  | succ n ih =>
    rw [Nat.add_right_comm, readLE, ih (a + 1), readLE, Nat.pow_succ]
    have : a + 1 + n = a + (n + 1) := by omega
    rw [this]
    ring

theorem readLE_congr {m m' : List Host.Cell} {a n : Nat}
    (h : ∀ x, a ≤ x → x < a + n → memRead m' x = memRead m x) : readLE m' a n = readLE m a n := by
  induction n generalizing a with
  | zero => rfl
  | succ n ih =>
    rw [readLE, readLE, h a (by omega) (by omega), ih fun x h1 h2 => h x (by omega) (by omega)]

/-- Byte j of a read is the byte at that offset. -/
theorem readLE_byte (m : List Host.Cell) (a n j : Nat) (h : j < n) :
    readLE m a n / 256 ^ j % 256 = (memRead m (a + j)).toNat := by
  induction n generalizing a j with
  | zero => omega
  | succ n ih =>
    have hb := (memRead m a).isLt
    cases j with
    | zero => simp only [readLE, Nat.pow_zero, Nat.add_zero]; omega
    | succ j =>
      have : readLE m a (n + 1) / 256 ^ (j + 1) = readLE m (a + 1) n / 256 ^ j := by
        rw [Nat.pow_succ', ← Nat.div_div_eq_div_mul, readLE]
        congr 1
        omega
      rw [this, ih (a + 1) j (by omega)]
      congr 2
      omega

theorem memRead_writeLE_out (m : List Host.Cell) (a n v x : Nat) (h : x < a ∨ a + n ≤ x) :
    memRead (writeLE m a n v) x = memRead m x := by
  induction n generalizing m a v with
  | zero => rfl
  | succ n ih =>
    rw [writeLE, ih _ _ _ (by omega), memRead_memWrite_ne _ _ _ _ (by omega)]

theorem wf_writeLE {m : List Host.Cell} (hm : Memory.wf m = true) (a n v : Nat) :
    Memory.wf (writeLE m a n v) = true := by
  induction n generalizing m a v with
  | zero => exact hm
  | succ n ih => exact ih (wf_memWrite hm a _) _ _

theorem memRead_writeLE {m : List Host.Cell} (hm : Memory.wf m = true) (a n v j : Nat) (h : j < n) :
    memRead (writeLE m a n v) (a + j) = BitVec.ofNat 8 (v / 256 ^ j % 256) := by
  induction n generalizing m a v j with
  | zero => omega
  | succ n ih =>
    rw [writeLE]
    cases j with
    | zero =>
      rw [memRead_writeLE_out _ _ _ _ _ (by omega), Nat.add_zero, memRead_memWrite_self hm]
      simp
    | succ j =>
      have := ih (wf_memWrite hm a (BitVec.ofNat 8 (v % 256))) (a + 1) (v / 256) j (by omega)
      rw [show a + (j + 1) = a + 1 + j by omega, this, Nat.pow_succ', Nat.div_div_eq_div_mul]

/-- A read after a write to the same place gives the value written. -/
theorem readLE_writeLE {m : List Host.Cell} (hm : Memory.wf m = true) (a n v : Nat) :
    readLE (writeLE m a n v) a n = v % 256 ^ n := by
  induction n generalizing m a v with
  | zero => simp [readLE, Nat.mod_one]
  | succ n ih =>
    rw [writeLE, readLE, ih (wf_memWrite hm a _), memRead_writeLE_out _ _ _ _ _ (by omega),
      memRead_memWrite_self hm, BitVec.toNat_ofNat, show 2 ^ 8 = 256 by rfl,
      show 256 ^ (n + 1) = 256 * 256 ^ n by ring, Nat.mod_mul, Nat.mod_mod]

theorem readLE_writeLE_out (m : List Host.Cell) (a n v b k : Nat) (h : b + k ≤ a ∨ a + n ≤ b) :
    readLE (writeLE m a n v) b k = readLE m b k :=
  readLE_congr fun x h1 h2 => memRead_writeLE_out m a n v x (by omega)

theorem mem_writeLE {m : List Host.Cell} {a n v : Nat} {c : Host.Cell} (h : c ∈ writeLE m a n v) :
    c ∈ m ∨ (a ≤ c.1 ∧ c.1 < a + n) := by
  induction n generalizing m a v with
  | zero => exact .inl h
  | succ n ih =>
    rcases ih h with h | h
    · exact (mem_memWrite h).imp id fun e => by omega
    · exact .inr (by omega)

/-! ## Single bytes, as the recodings write DIG -/

theorem memRead_writeBytes_out (m : List Host.Cell) (a x : Nat) (l : List Byte)
    (h : x < a ∨ a + l.length ≤ x) : memRead (writeBytes m a l) x = memRead m x := by
  induction l generalizing m a with
  | nil => rfl
  | cons b rest ih =>
    simp only [List.length_cons] at h
    rw [writeBytes, ih _ _ (by omega), memRead_memWrite_ne _ _ _ _ (by omega)]

theorem wf_writeBytes {m : List Host.Cell} (hm : Memory.wf m = true) (a : Nat) (l : List Byte) :
    Memory.wf (writeBytes m a l) = true := by
  induction l generalizing m a with
  | nil => exact hm
  | cons b rest ih => exact ih (wf_memWrite hm a b) _

theorem memRead_writeBytes {m : List Host.Cell} (hm : Memory.wf m = true) (a : Nat) (l : List Byte)
    (j : Nat) (h : j < l.length) : memRead (writeBytes m a l) (a + j) = l[j] := by
  induction l generalizing m a j with
  | nil => simp at h
  | cons b rest ih =>
    rw [writeBytes]
    cases j with
    | zero =>
      rw [memRead_writeBytes_out _ _ _ _ (by omega), Nat.add_zero, memRead_memWrite_self hm]
      rfl
    | succ j =>
      rw [show a + (j + 1) = a + 1 + j by omega,
        ih (wf_memWrite hm a b) (a + 1) j (by simpa using h)]
      rfl

theorem mem_writeBytes {m : List Host.Cell} {a : Nat} {l : List Byte} {c : Host.Cell}
    (h : c ∈ writeBytes m a l) : c ∈ m ∨ (a ≤ c.1 ∧ c.1 < a + l.length) := by
  induction l generalizing m a with
  | nil => exact .inl h
  | cons b rest ih =>
    simp only [List.length_cons]
    rcases ih h with h | h
    · exact (mem_memWrite h).imp id fun e => by omega
    · exact .inr (by omega)

theorem digBytes_length (e : List Int) (h : e.length ≤ 256) : (digBytes e).length = 256 := by
  simp [digBytes]
  omega

end Sys2Proof.Machine
end

