-- ==== Sys2Proof/Laws/State.lean ====
section
/-! SUPPORT. The small lemmas of the state: what each update leaves in each field, and reading a register after
a write. Every lemma is true by rfl or by one case split, so no later proof unfolds a record update. -/

namespace Sys2Proof.Machine

/-! ## setF -/

@[simp] theorem setF_f (s : State) (r : Reg) (x : Fe) : (State.setF s r x).f = s.f.set r x := rfl
@[simp] theorem setF_sc (s : State) (r : Reg) (x : Fe) : (State.setF s r x).sc = s.sc := rfl
@[simp] theorem setF_p (s : State) (r : Reg) (x : Fe) : (State.setF s r x).p = s.p := rfl
@[simp] theorem setF_k (s : State) (r : Reg) (x : Fe) : (State.setF s r x).k = s.k := rfl
@[simp] theorem setF_cmd (s : State) (r : Reg) (x : Fe) : (State.setF s r x).cmd = s.cmd := rfl
@[simp] theorem setF_err (s : State) (r : Reg) (x : Fe) : (State.setF s r x).err = s.err := rfl
@[simp] theorem setF_errKind (s : State) (r : Reg) (x : Fe) : (State.setF s r x).errKind = s.errKind := rfl
@[simp] theorem setF_errCause (s : State) (r : Reg) (x : Fe) : (State.setF s r x).errCause = s.errCause := rfl
@[simp] theorem setF_ovf (s : State) (r : Reg) (x : Fe) : (State.setF s r x).ovf = s.ovf := rfl
@[simp] theorem setF_disc (s : State) (r : Reg) (x : Fe) : (State.setF s r x).disc = s.disc := rfl
@[simp] theorem setF_errOp (s : State) (r : Reg) (x : Fe) : (State.setF s r x).errOp = s.errOp := rfl
@[simp] theorem setF_errCmd (s : State) (r : Reg) (x : Fe) : (State.setF s r x).errCmd = s.errCmd := rfl
@[simp] theorem setF_cmdCnt (s : State) (r : Reg) (x : Fe) : (State.setF s r x).cmdCnt = s.cmdCnt := rfl
@[simp] theorem setF_mem (s : State) (r : Reg) (x : Fe) : (State.setF s r x).mem = s.mem := rfl
@[simp] theorem setF_lut (s : State) (r : Reg) (x : Fe) : (State.setF s r x).lut = s.lut := rfl
@[simp] theorem setF_nlut (s : State) (r : Reg) (x : Fe) : (State.setF s r x).nlut = s.nlut := rfl
@[simp] theorem setF_bt (s : State) (r : Reg) (x : Fe) : (State.setF s r x).bt = s.bt := rfl
@[simp] theorem setF_phase (s : State) (r : Reg) (x : Fe) : (State.setF s r x).phase = s.phase := rfl
@[simp] theorem setF_pending (s : State) (r : Reg) (x : Fe) : (State.setF s r x).pending = s.pending := rfl
@[simp] theorem setF_rdata (s : State) (r : Reg) (x : Fe) : (State.setF s r x).rdata = s.rdata := rfl
@[simp] theorem setF_draws (s : State) (r : Reg) (x : Fe) : (State.setF s r x).draws = s.draws := rfl

/-! ## setS -/

@[simp] theorem setS_f (s : State) (r : Reg) (n : Scalar) : (State.setS s r n).f = s.f := rfl
@[simp] theorem setS_sc (s : State) (r : Reg) (n : Scalar) : (State.setS s r n).sc = s.sc.set r n := rfl
@[simp] theorem setS_p (s : State) (r : Reg) (n : Scalar) : (State.setS s r n).p = s.p := rfl
@[simp] theorem setS_k (s : State) (r : Reg) (n : Scalar) : (State.setS s r n).k = s.k := rfl
@[simp] theorem setS_cmd (s : State) (r : Reg) (n : Scalar) : (State.setS s r n).cmd = s.cmd := rfl
@[simp] theorem setS_err (s : State) (r : Reg) (n : Scalar) : (State.setS s r n).err = s.err := rfl
@[simp] theorem setS_errKind (s : State) (r : Reg) (n : Scalar) : (State.setS s r n).errKind = s.errKind := rfl
@[simp] theorem setS_errCause (s : State) (r : Reg) (n : Scalar) : (State.setS s r n).errCause = s.errCause := rfl
@[simp] theorem setS_ovf (s : State) (r : Reg) (n : Scalar) : (State.setS s r n).ovf = s.ovf := rfl
@[simp] theorem setS_disc (s : State) (r : Reg) (n : Scalar) : (State.setS s r n).disc = s.disc := rfl
@[simp] theorem setS_errOp (s : State) (r : Reg) (n : Scalar) : (State.setS s r n).errOp = s.errOp := rfl
@[simp] theorem setS_errCmd (s : State) (r : Reg) (n : Scalar) : (State.setS s r n).errCmd = s.errCmd := rfl
@[simp] theorem setS_cmdCnt (s : State) (r : Reg) (n : Scalar) : (State.setS s r n).cmdCnt = s.cmdCnt := rfl
@[simp] theorem setS_mem (s : State) (r : Reg) (n : Scalar) : (State.setS s r n).mem = s.mem := rfl
@[simp] theorem setS_lut (s : State) (r : Reg) (n : Scalar) : (State.setS s r n).lut = s.lut := rfl
@[simp] theorem setS_nlut (s : State) (r : Reg) (n : Scalar) : (State.setS s r n).nlut = s.nlut := rfl
@[simp] theorem setS_bt (s : State) (r : Reg) (n : Scalar) : (State.setS s r n).bt = s.bt := rfl
@[simp] theorem setS_phase (s : State) (r : Reg) (n : Scalar) : (State.setS s r n).phase = s.phase := rfl
@[simp] theorem setS_pending (s : State) (r : Reg) (n : Scalar) : (State.setS s r n).pending = s.pending := rfl
@[simp] theorem setS_rdata (s : State) (r : Reg) (n : Scalar) : (State.setS s r n).rdata = s.rdata := rfl
@[simp] theorem setS_draws (s : State) (r : Reg) (n : Scalar) : (State.setS s r n).draws = s.draws := rfl

/-! ## setP -/

@[simp] theorem setP_f (s : State) (r : Reg) (q : Point) : (State.setP s r q).f = s.f := rfl
@[simp] theorem setP_sc (s : State) (r : Reg) (q : Point) : (State.setP s r q).sc = s.sc := rfl
@[simp] theorem setP_p (s : State) (r : Reg) (q : Point) : (State.setP s r q).p = s.p.set r q := rfl
@[simp] theorem setP_k (s : State) (r : Reg) (q : Point) : (State.setP s r q).k = s.k := rfl
@[simp] theorem setP_cmd (s : State) (r : Reg) (q : Point) : (State.setP s r q).cmd = s.cmd := rfl
@[simp] theorem setP_err (s : State) (r : Reg) (q : Point) : (State.setP s r q).err = s.err := rfl
@[simp] theorem setP_errKind (s : State) (r : Reg) (q : Point) : (State.setP s r q).errKind = s.errKind := rfl
@[simp] theorem setP_errCause (s : State) (r : Reg) (q : Point) : (State.setP s r q).errCause = s.errCause := rfl
@[simp] theorem setP_ovf (s : State) (r : Reg) (q : Point) : (State.setP s r q).ovf = s.ovf := rfl
@[simp] theorem setP_disc (s : State) (r : Reg) (q : Point) : (State.setP s r q).disc = s.disc := rfl
@[simp] theorem setP_errOp (s : State) (r : Reg) (q : Point) : (State.setP s r q).errOp = s.errOp := rfl
@[simp] theorem setP_errCmd (s : State) (r : Reg) (q : Point) : (State.setP s r q).errCmd = s.errCmd := rfl
@[simp] theorem setP_cmdCnt (s : State) (r : Reg) (q : Point) : (State.setP s r q).cmdCnt = s.cmdCnt := rfl
@[simp] theorem setP_mem (s : State) (r : Reg) (q : Point) : (State.setP s r q).mem = s.mem := rfl
@[simp] theorem setP_lut (s : State) (r : Reg) (q : Point) : (State.setP s r q).lut = s.lut := rfl
@[simp] theorem setP_nlut (s : State) (r : Reg) (q : Point) : (State.setP s r q).nlut = s.nlut := rfl
@[simp] theorem setP_bt (s : State) (r : Reg) (q : Point) : (State.setP s r q).bt = s.bt := rfl
@[simp] theorem setP_phase (s : State) (r : Reg) (q : Point) : (State.setP s r q).phase = s.phase := rfl
@[simp] theorem setP_pending (s : State) (r : Reg) (q : Point) : (State.setP s r q).pending = s.pending := rfl
@[simp] theorem setP_rdata (s : State) (r : Reg) (q : Point) : (State.setP s r q).rdata = s.rdata := rfl
@[simp] theorem setP_draws (s : State) (r : Reg) (q : Point) : (State.setP s r q).draws = s.draws := rfl

/-! ## setK -/

@[simp] theorem setK_f (s : State) (r : Reg) (c : Bool) : (State.setK s r c).f = s.f := rfl
@[simp] theorem setK_sc (s : State) (r : Reg) (c : Bool) : (State.setK s r c).sc = s.sc := rfl
@[simp] theorem setK_p (s : State) (r : Reg) (c : Bool) : (State.setK s r c).p = s.p := rfl
@[simp] theorem setK_k (s : State) (r : Reg) (c : Bool) : (State.setK s r c).k = s.k.set r c := rfl
@[simp] theorem setK_cmd (s : State) (r : Reg) (c : Bool) : (State.setK s r c).cmd = s.cmd := rfl
@[simp] theorem setK_err (s : State) (r : Reg) (c : Bool) : (State.setK s r c).err = s.err := rfl
@[simp] theorem setK_errKind (s : State) (r : Reg) (c : Bool) : (State.setK s r c).errKind = s.errKind := rfl
@[simp] theorem setK_errCause (s : State) (r : Reg) (c : Bool) : (State.setK s r c).errCause = s.errCause := rfl
@[simp] theorem setK_ovf (s : State) (r : Reg) (c : Bool) : (State.setK s r c).ovf = s.ovf := rfl
@[simp] theorem setK_disc (s : State) (r : Reg) (c : Bool) : (State.setK s r c).disc = s.disc := rfl
@[simp] theorem setK_errOp (s : State) (r : Reg) (c : Bool) : (State.setK s r c).errOp = s.errOp := rfl
@[simp] theorem setK_errCmd (s : State) (r : Reg) (c : Bool) : (State.setK s r c).errCmd = s.errCmd := rfl
@[simp] theorem setK_cmdCnt (s : State) (r : Reg) (c : Bool) : (State.setK s r c).cmdCnt = s.cmdCnt := rfl
@[simp] theorem setK_mem (s : State) (r : Reg) (c : Bool) : (State.setK s r c).mem = s.mem := rfl
@[simp] theorem setK_lut (s : State) (r : Reg) (c : Bool) : (State.setK s r c).lut = s.lut := rfl
@[simp] theorem setK_nlut (s : State) (r : Reg) (c : Bool) : (State.setK s r c).nlut = s.nlut := rfl
@[simp] theorem setK_bt (s : State) (r : Reg) (c : Bool) : (State.setK s r c).bt = s.bt := rfl
@[simp] theorem setK_phase (s : State) (r : Reg) (c : Bool) : (State.setK s r c).phase = s.phase := rfl
@[simp] theorem setK_pending (s : State) (r : Reg) (c : Bool) : (State.setK s r c).pending = s.pending := rfl
@[simp] theorem setK_rdata (s : State) (r : Reg) (c : Bool) : (State.setK s r c).rdata = s.rdata := rfl
@[simp] theorem setK_draws (s : State) (r : Reg) (c : Bool) : (State.setK s r c).draws = s.draws := rfl

/-! ## writeHalf -/

@[simp] theorem writeHalf_f (s : State) (h : HalfField) (v : Nat) : (State.writeHalf s h v).f = s.f := by simp only [State.writeHalf]
@[simp] theorem writeHalf_sc (s : State) (h : HalfField) (v : Nat) : (State.writeHalf s h v).sc = s.sc := by simp only [State.writeHalf]
@[simp] theorem writeHalf_p (s : State) (h : HalfField) (v : Nat) : (State.writeHalf s h v).p = s.p := by simp only [State.writeHalf]
@[simp] theorem writeHalf_k (s : State) (h : HalfField) (v : Nat) : (State.writeHalf s h v).k = s.k := by simp only [State.writeHalf]
@[simp] theorem writeHalf_cmd (s : State) (h : HalfField) (v : Nat) : (State.writeHalf s h v).cmd = s.cmd := by simp only [State.writeHalf]
@[simp] theorem writeHalf_err (s : State) (h : HalfField) (v : Nat) : (State.writeHalf s h v).err = s.err := by simp only [State.writeHalf]
@[simp] theorem writeHalf_errKind (s : State) (h : HalfField) (v : Nat) : (State.writeHalf s h v).errKind = s.errKind := by simp only [State.writeHalf]
@[simp] theorem writeHalf_errCause (s : State) (h : HalfField) (v : Nat) : (State.writeHalf s h v).errCause = s.errCause := by simp only [State.writeHalf]
@[simp] theorem writeHalf_ovf (s : State) (h : HalfField) (v : Nat) : (State.writeHalf s h v).ovf = s.ovf := by simp only [State.writeHalf]
@[simp] theorem writeHalf_disc (s : State) (h : HalfField) (v : Nat) : (State.writeHalf s h v).disc = s.disc := by simp only [State.writeHalf]
@[simp] theorem writeHalf_errOp (s : State) (h : HalfField) (v : Nat) : (State.writeHalf s h v).errOp = s.errOp := by simp only [State.writeHalf]
@[simp] theorem writeHalf_errCmd (s : State) (h : HalfField) (v : Nat) : (State.writeHalf s h v).errCmd = s.errCmd := by simp only [State.writeHalf]
@[simp] theorem writeHalf_cmdCnt (s : State) (h : HalfField) (v : Nat) : (State.writeHalf s h v).cmdCnt = s.cmdCnt := by simp only [State.writeHalf]
@[simp] theorem writeHalf_mem (s : State) (h : HalfField) (v : Nat) : (State.writeHalf s h v).mem = writeLE s.mem (halfBase h) 32 v := by simp only [State.writeHalf]
@[simp] theorem writeHalf_lut (s : State) (h : HalfField) (v : Nat) : (State.writeHalf s h v).lut = s.lut := by simp only [State.writeHalf]
@[simp] theorem writeHalf_nlut (s : State) (h : HalfField) (v : Nat) : (State.writeHalf s h v).nlut = s.nlut := by simp only [State.writeHalf]
@[simp] theorem writeHalf_bt (s : State) (h : HalfField) (v : Nat) : (State.writeHalf s h v).bt = s.bt := by simp only [State.writeHalf]
@[simp] theorem writeHalf_phase (s : State) (h : HalfField) (v : Nat) : (State.writeHalf s h v).phase = s.phase := by simp only [State.writeHalf]
@[simp] theorem writeHalf_pending (s : State) (h : HalfField) (v : Nat) : (State.writeHalf s h v).pending = s.pending := by simp only [State.writeHalf]
@[simp] theorem writeHalf_rdata (s : State) (h : HalfField) (v : Nat) : (State.writeHalf s h v).rdata = s.rdata := by simp only [State.writeHalf]
@[simp] theorem writeHalf_draws (s : State) (h : HalfField) (v : Nat) : (State.writeHalf s h v).draws = s.draws := by simp only [State.writeHalf]

/-! ## writeDig -/

@[simp] theorem writeDig_f (s : State) (e : List Int) : (State.writeDig s e).f = s.f := rfl
@[simp] theorem writeDig_sc (s : State) (e : List Int) : (State.writeDig s e).sc = s.sc := rfl
@[simp] theorem writeDig_p (s : State) (e : List Int) : (State.writeDig s e).p = s.p := rfl
@[simp] theorem writeDig_k (s : State) (e : List Int) : (State.writeDig s e).k = s.k := rfl
@[simp] theorem writeDig_cmd (s : State) (e : List Int) : (State.writeDig s e).cmd = s.cmd := rfl
@[simp] theorem writeDig_err (s : State) (e : List Int) : (State.writeDig s e).err = s.err := rfl
@[simp] theorem writeDig_errKind (s : State) (e : List Int) : (State.writeDig s e).errKind = s.errKind := rfl
@[simp] theorem writeDig_errCause (s : State) (e : List Int) : (State.writeDig s e).errCause = s.errCause := rfl
@[simp] theorem writeDig_ovf (s : State) (e : List Int) : (State.writeDig s e).ovf = s.ovf := rfl
@[simp] theorem writeDig_disc (s : State) (e : List Int) : (State.writeDig s e).disc = s.disc := rfl
@[simp] theorem writeDig_errOp (s : State) (e : List Int) : (State.writeDig s e).errOp = s.errOp := rfl
@[simp] theorem writeDig_errCmd (s : State) (e : List Int) : (State.writeDig s e).errCmd = s.errCmd := rfl
@[simp] theorem writeDig_cmdCnt (s : State) (e : List Int) : (State.writeDig s e).cmdCnt = s.cmdCnt := rfl
@[simp] theorem writeDig_mem (s : State) (e : List Int) : (State.writeDig s e).mem = writeBytes s.mem digBase (digBytes e) := rfl
@[simp] theorem writeDig_lut (s : State) (e : List Int) : (State.writeDig s e).lut = s.lut := rfl
@[simp] theorem writeDig_nlut (s : State) (e : List Int) : (State.writeDig s e).nlut = s.nlut := rfl
@[simp] theorem writeDig_bt (s : State) (e : List Int) : (State.writeDig s e).bt = s.bt := rfl
@[simp] theorem writeDig_phase (s : State) (e : List Int) : (State.writeDig s e).phase = s.phase := rfl
@[simp] theorem writeDig_pending (s : State) (e : List Int) : (State.writeDig s e).pending = s.pending := rfl
@[simp] theorem writeDig_rdata (s : State) (e : List Int) : (State.writeDig s e).rdata = s.rdata := rfl
@[simp] theorem writeDig_draws (s : State) (e : List Int) : (State.writeDig s e).draws = s.draws := rfl

/-! ## commit -/

@[simp] theorem commit_f (s : State) : (commit s).f = s.f := rfl
@[simp] theorem commit_sc (s : State) : (commit s).sc = s.sc := rfl
@[simp] theorem commit_p (s : State) : (commit s).p = s.p := rfl
@[simp] theorem commit_k (s : State) : (commit s).k = s.k := rfl
@[simp] theorem commit_cmd (s : State) : (commit s).cmd = s.cmd := rfl
@[simp] theorem commit_err (s : State) : (commit s).err = s.err := rfl
@[simp] theorem commit_errKind (s : State) : (commit s).errKind = s.errKind := rfl
@[simp] theorem commit_errCause (s : State) : (commit s).errCause = s.errCause := rfl
@[simp] theorem commit_ovf (s : State) : (commit s).ovf = s.ovf := rfl
@[simp] theorem commit_disc (s : State) : (commit s).disc = s.disc := rfl
@[simp] theorem commit_errOp (s : State) : (commit s).errOp = s.errOp := rfl
@[simp] theorem commit_errCmd (s : State) : (commit s).errCmd = s.errCmd := rfl
@[simp] theorem commit_cmdCnt (s : State) : (commit s).cmdCnt = s.cmdCnt + 1 := rfl
@[simp] theorem commit_mem (s : State) : (commit s).mem = s.mem := rfl
@[simp] theorem commit_lut (s : State) : (commit s).lut = s.lut := rfl
@[simp] theorem commit_nlut (s : State) : (commit s).nlut = s.nlut := rfl
@[simp] theorem commit_bt (s : State) : (commit s).bt = s.bt := rfl
@[simp] theorem commit_phase (s : State) : (commit s).phase = .idle := rfl
@[simp] theorem commit_pending (s : State) : (commit s).pending = s.pending := rfl
@[simp] theorem commit_rdata (s : State) : (commit s).rdata = s.rdata := rfl
@[simp] theorem commit_draws (s : State) : (commit s).draws = s.draws := rfl

/-! ## raiseError -/

@[simp] theorem raiseError_f (s : State) (w : Word) (e : ErrorCause) : (raiseError w e s).f = s.f := rfl
@[simp] theorem raiseError_sc (s : State) (w : Word) (e : ErrorCause) : (raiseError w e s).sc = s.sc := rfl
@[simp] theorem raiseError_p (s : State) (w : Word) (e : ErrorCause) : (raiseError w e s).p = s.p := rfl
@[simp] theorem raiseError_k (s : State) (w : Word) (e : ErrorCause) : (raiseError w e s).k = s.k := rfl
@[simp] theorem raiseError_cmd (s : State) (w : Word) (e : ErrorCause) : (raiseError w e s).cmd = s.cmd := rfl
@[simp] theorem raiseError_err (s : State) (w : Word) (e : ErrorCause) : (raiseError w e s).err = true := rfl
@[simp] theorem raiseError_errKind (s : State) (w : Word) (e : ErrorCause) : (raiseError w e s).errKind = errorKind e := rfl
@[simp] theorem raiseError_errCause (s : State) (w : Word) (e : ErrorCause) : (raiseError w e s).errCause = errorCode e := rfl
@[simp] theorem raiseError_ovf (s : State) (w : Word) (e : ErrorCause) : (raiseError w e s).ovf = s.ovf := rfl
@[simp] theorem raiseError_disc (s : State) (w : Word) (e : ErrorCause) : (raiseError w e s).disc = s.disc := rfl
@[simp] theorem raiseError_errOp (s : State) (w : Word) (e : ErrorCause) : (raiseError w e s).errOp = w.setWidth 8 := rfl
@[simp] theorem raiseError_errCmd (s : State) (w : Word) (e : ErrorCause) : (raiseError w e s).errCmd = w := rfl
@[simp] theorem raiseError_cmdCnt (s : State) (w : Word) (e : ErrorCause) : (raiseError w e s).cmdCnt = s.cmdCnt := rfl
@[simp] theorem raiseError_mem (s : State) (w : Word) (e : ErrorCause) : (raiseError w e s).mem = s.mem := rfl
@[simp] theorem raiseError_lut (s : State) (w : Word) (e : ErrorCause) : (raiseError w e s).lut = s.lut := rfl
@[simp] theorem raiseError_nlut (s : State) (w : Word) (e : ErrorCause) : (raiseError w e s).nlut = s.nlut := rfl
@[simp] theorem raiseError_bt (s : State) (w : Word) (e : ErrorCause) : (raiseError w e s).bt = s.bt := rfl
@[simp] theorem raiseError_phase (s : State) (w : Word) (e : ErrorCause) : (raiseError w e s).phase = .idle := rfl
@[simp] theorem raiseError_pending (s : State) (w : Word) (e : ErrorCause) : (raiseError w e s).pending = s.pending := rfl
@[simp] theorem raiseError_rdata (s : State) (w : Word) (e : ErrorCause) : (raiseError w e s).rdata = s.rdata := rfl
@[simp] theorem raiseError_draws (s : State) (w : Word) (e : ErrorCause) : (raiseError w e s).draws = s.draws := rfl

/-! ## clearErrors -/

@[simp] theorem clearErrors_f (s : State) : (clearErrors s).f = s.f := rfl
@[simp] theorem clearErrors_sc (s : State) : (clearErrors s).sc = s.sc := rfl
@[simp] theorem clearErrors_p (s : State) : (clearErrors s).p = s.p := rfl
@[simp] theorem clearErrors_k (s : State) : (clearErrors s).k = s.k := rfl
@[simp] theorem clearErrors_cmd (s : State) : (clearErrors s).cmd = s.cmd := rfl
@[simp] theorem clearErrors_err (s : State) : (clearErrors s).err = false := rfl
@[simp] theorem clearErrors_errKind (s : State) : (clearErrors s).errKind = 0 := rfl
@[simp] theorem clearErrors_errCause (s : State) : (clearErrors s).errCause = 0 := rfl
@[simp] theorem clearErrors_ovf (s : State) : (clearErrors s).ovf = false := rfl
@[simp] theorem clearErrors_disc (s : State) : (clearErrors s).disc = false := rfl
@[simp] theorem clearErrors_errOp (s : State) : (clearErrors s).errOp = 0 := rfl
@[simp] theorem clearErrors_errCmd (s : State) : (clearErrors s).errCmd = 0 := rfl
@[simp] theorem clearErrors_cmdCnt (s : State) : (clearErrors s).cmdCnt = s.cmdCnt := rfl
@[simp] theorem clearErrors_mem (s : State) : (clearErrors s).mem = s.mem := rfl
@[simp] theorem clearErrors_lut (s : State) : (clearErrors s).lut = s.lut := rfl
@[simp] theorem clearErrors_nlut (s : State) : (clearErrors s).nlut = s.nlut := rfl
@[simp] theorem clearErrors_bt (s : State) : (clearErrors s).bt = s.bt := rfl
@[simp] theorem clearErrors_phase (s : State) : (clearErrors s).phase = s.phase := rfl
@[simp] theorem clearErrors_pending (s : State) : (clearErrors s).pending = s.pending := rfl
@[simp] theorem clearErrors_rdata (s : State) : (clearErrors s).rdata = s.rdata := rfl
@[simp] theorem clearErrors_draws (s : State) : (clearErrors s).draws = s.draws := rfl

/-! ## endInit -/

@[simp] theorem endInit_f (s : State) : (endInit s).f = s.f := rfl
@[simp] theorem endInit_sc (s : State) : (endInit s).sc = s.sc := rfl
@[simp] theorem endInit_p (s : State) : (endInit s).p = s.p := rfl
@[simp] theorem endInit_k (s : State) : (endInit s).k = s.k := rfl
@[simp] theorem endInit_cmd (s : State) : (endInit s).cmd = s.cmd := rfl
@[simp] theorem endInit_err (s : State) : (endInit s).err = s.err := rfl
@[simp] theorem endInit_errKind (s : State) : (endInit s).errKind = s.errKind := rfl
@[simp] theorem endInit_errCause (s : State) : (endInit s).errCause = s.errCause := rfl
@[simp] theorem endInit_ovf (s : State) : (endInit s).ovf = s.ovf := rfl
@[simp] theorem endInit_disc (s : State) : (endInit s).disc = s.disc := rfl
@[simp] theorem endInit_errOp (s : State) : (endInit s).errOp = s.errOp := rfl
@[simp] theorem endInit_errCmd (s : State) : (endInit s).errCmd = s.errCmd := rfl
@[simp] theorem endInit_cmdCnt (s : State) : (endInit s).cmdCnt = s.cmdCnt := rfl
@[simp] theorem endInit_mem (s : State) : (endInit s).mem = s.mem := rfl
@[simp] theorem endInit_lut (s : State) : (endInit s).lut = s.lut := rfl
@[simp] theorem endInit_nlut (s : State) : (endInit s).nlut = s.nlut := rfl
@[simp] theorem endInit_bt (s : State) : (endInit s).bt = btOfBasepoint := rfl
@[simp] theorem endInit_phase (s : State) : (endInit s).phase = .idle := rfl
@[simp] theorem endInit_pending (s : State) : (endInit s).pending = s.pending := rfl
@[simp] theorem endInit_rdata (s : State) : (endInit s).rdata = s.rdata := rfl
@[simp] theorem endInit_draws (s : State) : (endInit s).draws = s.draws := rfl

/-! ## accept -/

@[simp] theorem accept_f (s : State) (w : Word) : (accept w s).f = s.f := rfl
@[simp] theorem accept_sc (s : State) (w : Word) : (accept w s).sc = s.sc := rfl
@[simp] theorem accept_p (s : State) (w : Word) : (accept w s).p = s.p := rfl
@[simp] theorem accept_k (s : State) (w : Word) : (accept w s).k = s.k := rfl
@[simp] theorem accept_cmd (s : State) (w : Word) : (accept w s).cmd = w := rfl
@[simp] theorem accept_err (s : State) (w : Word) : (accept w s).err = s.err := rfl
@[simp] theorem accept_errKind (s : State) (w : Word) : (accept w s).errKind = s.errKind := rfl
@[simp] theorem accept_errCause (s : State) (w : Word) : (accept w s).errCause = s.errCause := rfl
@[simp] theorem accept_ovf (s : State) (w : Word) : (accept w s).ovf = s.ovf := rfl
@[simp] theorem accept_disc (s : State) (w : Word) : (accept w s).disc = s.disc := rfl
@[simp] theorem accept_errOp (s : State) (w : Word) : (accept w s).errOp = s.errOp := rfl
@[simp] theorem accept_errCmd (s : State) (w : Word) : (accept w s).errCmd = s.errCmd := rfl
@[simp] theorem accept_cmdCnt (s : State) (w : Word) : (accept w s).cmdCnt = s.cmdCnt := rfl
@[simp] theorem accept_mem (s : State) (w : Word) : (accept w s).mem = s.mem := rfl
@[simp] theorem accept_lut (s : State) (w : Word) : (accept w s).lut = s.lut := rfl
@[simp] theorem accept_nlut (s : State) (w : Word) : (accept w s).nlut = s.nlut := rfl
@[simp] theorem accept_bt (s : State) (w : Word) : (accept w s).bt = s.bt := rfl
@[simp] theorem accept_phase (s : State) (w : Word) : (accept w s).phase = .exec w := rfl
@[simp] theorem accept_pending (s : State) (w : Word) : (accept w s).pending = s.pending := rfl
@[simp] theorem accept_rdata (s : State) (w : Word) : (accept w s).rdata = s.rdata := rfl
@[simp] theorem accept_draws (s : State) (w : Word) : (accept w s).draws = s.draws := rfl

/-! ## resetCore -/

@[simp] theorem resetCore_f (s : State) : (resetCore s).f = State.reset.f := rfl
@[simp] theorem resetCore_sc (s : State) : (resetCore s).sc = State.reset.sc := rfl
@[simp] theorem resetCore_p (s : State) : (resetCore s).p = State.reset.p := rfl
@[simp] theorem resetCore_k (s : State) : (resetCore s).k = State.reset.k := rfl
@[simp] theorem resetCore_cmd (s : State) : (resetCore s).cmd = State.reset.cmd := rfl
@[simp] theorem resetCore_err (s : State) : (resetCore s).err = State.reset.err := rfl
@[simp] theorem resetCore_errKind (s : State) : (resetCore s).errKind = State.reset.errKind := rfl
@[simp] theorem resetCore_errCause (s : State) : (resetCore s).errCause = State.reset.errCause := rfl
@[simp] theorem resetCore_ovf (s : State) : (resetCore s).ovf = State.reset.ovf := rfl
@[simp] theorem resetCore_disc (s : State) : (resetCore s).disc = State.reset.disc := rfl
@[simp] theorem resetCore_errOp (s : State) : (resetCore s).errOp = State.reset.errOp := rfl
@[simp] theorem resetCore_errCmd (s : State) : (resetCore s).errCmd = State.reset.errCmd := rfl
@[simp] theorem resetCore_cmdCnt (s : State) : (resetCore s).cmdCnt = State.reset.cmdCnt := rfl
@[simp] theorem resetCore_mem (s : State) : (resetCore s).mem = State.reset.mem := rfl
@[simp] theorem resetCore_lut (s : State) : (resetCore s).lut = State.reset.lut := rfl
@[simp] theorem resetCore_nlut (s : State) : (resetCore s).nlut = State.reset.nlut := rfl
@[simp] theorem resetCore_bt (s : State) : (resetCore s).bt = State.reset.bt := rfl
@[simp] theorem resetCore_phase (s : State) : (resetCore s).phase = State.reset.phase := rfl
@[simp] theorem resetCore_pending (s : State) : (resetCore s).pending = s.pending := rfl
@[simp] theorem resetCore_rdata (s : State) : (resetCore s).rdata = s.rdata := rfl
@[simp] theorem resetCore_draws (s : State) : (resetCore s).draws = s.draws := rfl

/-! ## Reading a register after a write -/

theorem getF_setF (s : State) (d r : Reg) (x : Fe) :
    (s.setF d x).getF r = if r = d then x else s.getF r := by
  simp [State.setF, State.getF, Vector.get_eq_getElem, Vector.getElem_set, Fin.ext_iff,
    eq_comm]

@[simp] theorem getF_setF_self (s : State) (d : Reg) (x : Fe) : (s.setF d x).getF d = x := by
  simp [getF_setF]

theorem getS_setS (s : State) (d r : Reg) (x : Scalar) :
    (s.setS d x).getS r = if r = d then x else s.getS r := by
  simp [State.setS, State.getS, Vector.get_eq_getElem, Vector.getElem_set, Fin.ext_iff,
    eq_comm]

@[simp] theorem getS_setS_self (s : State) (d : Reg) (x : Scalar) : (s.setS d x).getS d = x := by
  simp [getS_setS]

theorem getP_setP (s : State) (d r : Reg) (x : Point) :
    (s.setP d x).getP r = if r = d then x else s.getP r := by
  simp [State.setP, State.getP, Vector.get_eq_getElem, Vector.getElem_set, Fin.ext_iff,
    eq_comm]

@[simp] theorem getP_setP_self (s : State) (d : Reg) (x : Point) : (s.setP d x).getP d = x := by
  simp [getP_setP]

theorem getK_setK (s : State) (d r : Reg) (x : Bool) :
    (s.setK d x).getK r = if r = d then x else s.getK r := by
  simp [State.setK, State.getK, Vector.get_eq_getElem, Vector.getElem_set, Fin.ext_iff,
    eq_comm]

@[simp] theorem getK_setK_self (s : State) (d : Reg) (x : Bool) : (s.setK d x).getK d = x := by
  simp [getK_setK]

@[simp] theorem setS_getF (s : State) (r : Reg) (n : Scalar) (i : Reg) : (State.setS s r n).getF i = s.getF i := rfl
@[simp] theorem setP_getF (s : State) (r : Reg) (q : Point) (i : Reg) : (State.setP s r q).getF i = s.getF i := rfl
@[simp] theorem setK_getF (s : State) (r : Reg) (c : Bool) (i : Reg) : (State.setK s r c).getF i = s.getF i := rfl
@[simp] theorem writeHalf_getF (s : State) (h : HalfField) (v : Nat) (i : Reg) : (State.writeHalf s h v).getF i = s.getF i := by unfold State.writeHalf State.getF; rfl
@[simp] theorem writeDig_getF (s : State) (e : List Int) (i : Reg) : (State.writeDig s e).getF i = s.getF i := rfl
@[simp] theorem commit_getF (s : State) (i : Reg) : (commit s).getF i = s.getF i := rfl
@[simp] theorem raiseError_getF (s : State) (w : Word) (e : ErrorCause) (i : Reg) : (raiseError w e s).getF i = s.getF i := rfl
@[simp] theorem clearErrors_getF (s : State) (i : Reg) : (clearErrors s).getF i = s.getF i := rfl
@[simp] theorem endInit_getF (s : State) (i : Reg) : (endInit s).getF i = s.getF i := rfl
@[simp] theorem accept_getF (s : State) (w : Word) (i : Reg) : (accept w s).getF i = s.getF i := rfl
@[simp] theorem setF_getS (s : State) (r : Reg) (x : Fe) (i : Reg) : (State.setF s r x).getS i = s.getS i := rfl
@[simp] theorem setP_getS (s : State) (r : Reg) (q : Point) (i : Reg) : (State.setP s r q).getS i = s.getS i := rfl
@[simp] theorem setK_getS (s : State) (r : Reg) (c : Bool) (i : Reg) : (State.setK s r c).getS i = s.getS i := rfl
@[simp] theorem writeHalf_getS (s : State) (h : HalfField) (v : Nat) (i : Reg) : (State.writeHalf s h v).getS i = s.getS i := by unfold State.writeHalf State.getS; rfl
@[simp] theorem writeDig_getS (s : State) (e : List Int) (i : Reg) : (State.writeDig s e).getS i = s.getS i := rfl
@[simp] theorem commit_getS (s : State) (i : Reg) : (commit s).getS i = s.getS i := rfl
@[simp] theorem raiseError_getS (s : State) (w : Word) (e : ErrorCause) (i : Reg) : (raiseError w e s).getS i = s.getS i := rfl
@[simp] theorem clearErrors_getS (s : State) (i : Reg) : (clearErrors s).getS i = s.getS i := rfl
@[simp] theorem endInit_getS (s : State) (i : Reg) : (endInit s).getS i = s.getS i := rfl
@[simp] theorem accept_getS (s : State) (w : Word) (i : Reg) : (accept w s).getS i = s.getS i := rfl
@[simp] theorem setF_getP (s : State) (r : Reg) (x : Fe) (i : Reg) : (State.setF s r x).getP i = s.getP i := rfl
@[simp] theorem setS_getP (s : State) (r : Reg) (n : Scalar) (i : Reg) : (State.setS s r n).getP i = s.getP i := rfl
@[simp] theorem setK_getP (s : State) (r : Reg) (c : Bool) (i : Reg) : (State.setK s r c).getP i = s.getP i := rfl
@[simp] theorem writeHalf_getP (s : State) (h : HalfField) (v : Nat) (i : Reg) : (State.writeHalf s h v).getP i = s.getP i := by unfold State.writeHalf State.getP; rfl
@[simp] theorem writeDig_getP (s : State) (e : List Int) (i : Reg) : (State.writeDig s e).getP i = s.getP i := rfl
@[simp] theorem commit_getP (s : State) (i : Reg) : (commit s).getP i = s.getP i := rfl
@[simp] theorem raiseError_getP (s : State) (w : Word) (e : ErrorCause) (i : Reg) : (raiseError w e s).getP i = s.getP i := rfl
@[simp] theorem clearErrors_getP (s : State) (i : Reg) : (clearErrors s).getP i = s.getP i := rfl
@[simp] theorem endInit_getP (s : State) (i : Reg) : (endInit s).getP i = s.getP i := rfl
@[simp] theorem accept_getP (s : State) (w : Word) (i : Reg) : (accept w s).getP i = s.getP i := rfl
@[simp] theorem setF_getK (s : State) (r : Reg) (x : Fe) (i : Reg) : (State.setF s r x).getK i = s.getK i := rfl
@[simp] theorem setS_getK (s : State) (r : Reg) (n : Scalar) (i : Reg) : (State.setS s r n).getK i = s.getK i := rfl
@[simp] theorem setP_getK (s : State) (r : Reg) (q : Point) (i : Reg) : (State.setP s r q).getK i = s.getK i := rfl
@[simp] theorem writeHalf_getK (s : State) (h : HalfField) (v : Nat) (i : Reg) : (State.writeHalf s h v).getK i = s.getK i := by unfold State.writeHalf State.getK; rfl
@[simp] theorem writeDig_getK (s : State) (e : List Int) (i : Reg) : (State.writeDig s e).getK i = s.getK i := rfl
@[simp] theorem commit_getK (s : State) (i : Reg) : (commit s).getK i = s.getK i := rfl
@[simp] theorem raiseError_getK (s : State) (w : Word) (e : ErrorCause) (i : Reg) : (raiseError w e s).getK i = s.getK i := rfl
@[simp] theorem clearErrors_getK (s : State) (i : Reg) : (clearErrors s).getK i = s.getK i := rfl
@[simp] theorem endInit_getK (s : State) (i : Reg) : (endInit s).getK i = s.getK i := rfl
@[simp] theorem accept_getK (s : State) (w : Word) (i : Reg) : (accept w s).getK i = s.getK i := rfl

end Sys2Proof.Machine
end

