-- ==== Sys2Proof/Laws/Ops.lean ====
section
/-! SUPPORT. What each shared operation can do: the checks, the completion and the error path; and the frame of
each way a command writes its result. Provers cite these instead of unfolding the operations. -/

namespace Sys2Proof.Machine

/-! ## The end of a command -/

theorem finish_ok (i : Instr) (s t : State) : finish i s (.ok t) = .next (commit t) := rfl

theorem finish_error (i : Instr) (s : State) (e : ErrorCause) :
    finish i s (.error e) = .next (raiseError (encode i) e s) := rfl

/-- A command ends in one of two ways: a commit of its results, or the error path. -/
theorem finish_cases {i : Instr} {s t : State} {r : Result} (h : finish i s r = .next t) :
    (∃ u, r = .ok u ∧ t = commit u) ∨ (∃ e, r = .error e ∧ t = raiseError (encode i) e s) := by
  cases r with
  | ok u => exact .inl ⟨u, rfl, (Host.Outcome.next.inj h).symm⟩
  | error e => exact .inr ⟨e, rfl, (Host.Outcome.next.inj h).symm⟩

/-- The end of a command is always a next state. -/
theorem finish_next (i : Instr) (s : State) (r : Result) : ∃ t, finish i s r = .next t := by
  cases r <;> exact ⟨_, rfl⟩

theorem raiseError_eq_errorRecorded (w : Word) (e : ErrorCause) (s : State) :
    raiseError w e s = errorRecorded w (errorKind e, errorCode e) s := rfl

/-! ## The checks -/

theorem require_true (e : ErrorCause) (k : Result) : require true e k = k := rfl

theorem require_false (e : ErrorCause) (k : Result) : require false e k = .error e := rfl

theorem needHalf_eq (h : HalfField) (k : Result) :
    needHalf h k = if h.val ≤ 1 then k else .error .field := by
  simp [needHalf, require]

theorem needAtMost_eq (imm : Byte) (n : Nat) (k : Result) :
    needAtMost imm n k = if imm.toNat ≤ n then k else .error .field := by
  simp [needAtMost, require]

theorem needTag_eq (q : Point) (t : Tag) (k : Result) :
    needTag q t k = if q.tag = t then k else .error .tag := by
  simp [needTag, require]

theorem needExponent_eq (imm : Byte) (k : Result) :
    needExponent imm k = if imm.toNat ≠ 0 then k else .error .exponent := by
  simp [needExponent, require]

theorem needOdd_eq (imm : Byte) (k : Result) :
    needOdd imm k = if imm.toNat ≤ 15 ∧ imm.toNat % 2 = 1 then k else .error .index := by
  simp [needOdd, require]

theorem needDig8_eq (imm : Byte) (k : Int → Result) :
    needDig8 imm k =
      if -8 ≤ imm.toInt ∧ imm.toInt ≤ 8 then k imm.toInt else .error .index := by
  by_cases h : -8 ≤ imm.toInt <;> by_cases h' : imm.toInt ≤ 8 <;>
    simp [needDig8, require, sint8, h, h']

theorem needSubTable_eq (t : Byte) (k : Fin 32 → Result) :
    needSubTable t k = if h : t.toNat < 32 then k ⟨t.toNat, h⟩ else .error .index := rfl

/-! ## The frame of a completion, by the way the result is written -/

theorem completes_commit_self (s : State) : Completes {} s (commit s) where
  frame := by constructor <;> intros <;> rfl
  cmdCnt := rfl
  phase := rfl

theorem completes_setF (s : State) (d : Reg) (x : Fe) :
    Completes { f := [d] } s (commit (s.setF d x)) where
  frame :=
    { f := fun r hr => by simp [getF_setF, List.mem_singleton.not.1 hr]
      sc := fun _ _ => rfl, p := fun _ _ => rfl, k := fun _ _ => rfl, bytes := fun _ _ => rfl
      lut := fun _ => rfl, nlut := fun _ => rfl, bt := fun _ => rfl
      cmd := rfl, err := rfl, errKind := rfl, errCause := rfl, ovf := rfl, disc := rfl
      errOp := rfl, errCmd := rfl, pending := rfl, rdata := rfl, draws := rfl }
  cmdCnt := rfl
  phase := rfl

theorem completes_setS (s : State) (d : Reg) (x : Scalar) :
    Completes { sc := [d] } s (commit (s.setS d x)) where
  frame :=
    { f := fun _ _ => rfl
      sc := fun r hr => by simp [getS_setS, List.mem_singleton.not.1 hr]
      p := fun _ _ => rfl, k := fun _ _ => rfl, bytes := fun _ _ => rfl
      lut := fun _ => rfl, nlut := fun _ => rfl, bt := fun _ => rfl
      cmd := rfl, err := rfl, errKind := rfl, errCause := rfl, ovf := rfl, disc := rfl
      errOp := rfl, errCmd := rfl, pending := rfl, rdata := rfl, draws := rfl }
  cmdCnt := rfl
  phase := rfl

theorem completes_setP (s : State) (d : Reg) (x : Point) :
    Completes { p := [d] } s (commit (s.setP d x)) where
  frame :=
    { f := fun _ _ => rfl, sc := fun _ _ => rfl
      p := fun r hr => by simp [getP_setP, List.mem_singleton.not.1 hr]
      k := fun _ _ => rfl, bytes := fun _ _ => rfl
      lut := fun _ => rfl, nlut := fun _ => rfl, bt := fun _ => rfl
      cmd := rfl, err := rfl, errKind := rfl, errCause := rfl, ovf := rfl, disc := rfl
      errOp := rfl, errCmd := rfl, pending := rfl, rdata := rfl, draws := rfl }
  cmdCnt := rfl
  phase := rfl

theorem completes_setK (s : State) (d : Reg) (c : Bool) :
    Completes { k := [d] } s (commit (s.setK d c)) where
  frame :=
    { f := fun _ _ => rfl, sc := fun _ _ => rfl, p := fun _ _ => rfl
      k := fun r hr => by simp [getK_setK, List.mem_singleton.not.1 hr]
      bytes := fun _ _ => rfl
      lut := fun _ => rfl, nlut := fun _ => rfl, bt := fun _ => rfl
      cmd := rfl, err := rfl, errKind := rfl, errCause := rfl, ovf := rfl, disc := rfl
      errOp := rfl, errCmd := rfl, pending := rfl, rdata := rfl, draws := rfl }
  cmdCnt := rfl
  phase := rfl

theorem completes_setF_setK (s : State) (d c : Reg) (x : Fe) (b : Bool) :
    Completes { f := [d], k := [c] } s (commit ((s.setF d x).setK c b)) where
  frame :=
    { f := fun r hr => by simp [getF_setF, List.mem_singleton.not.1 hr]
      sc := fun _ _ => rfl, p := fun _ _ => rfl
      k := fun r hr => by simp [getK_setK, List.mem_singleton.not.1 hr]
      bytes := fun _ _ => rfl
      lut := fun _ => rfl, nlut := fun _ => rfl, bt := fun _ => rfl
      cmd := rfl, err := rfl, errKind := rfl, errCause := rfl, ovf := rfl, disc := rfl
      errOp := rfl, errCmd := rfl, pending := rfl, rdata := rfl, draws := rfl }
  cmdCnt := rfl
  phase := rfl

/-- A change of BUF and DIG alone, which keeps every byte outside the runs `l`. -/
theorem completes_mem (s : State) (m : List Host.Cell) (l : List (Nat × Nat))
    (h : ∀ a, (∀ q ∈ l, a < q.1 ∨ q.1 + q.2 ≤ a) → memRead m a = memRead s.mem a) :
    Completes { bytes := l } s (commit { s with mem := m }) where
  frame :=
    { f := fun _ _ => rfl, sc := fun _ _ => rfl, p := fun _ _ => rfl, k := fun _ _ => rfl
      bytes := h
      lut := fun _ => rfl, nlut := fun _ => rfl, bt := fun _ => rfl
      cmd := rfl, err := rfl, errKind := rfl, errCause := rfl, ovf := rfl, disc := rfl
      errOp := rfl, errCmd := rfl, pending := rfl, rdata := rfl, draws := rfl }
  cmdCnt := rfl
  phase := rfl

theorem completes_writeHalf (s : State) (h : HalfField) (v : Nat) :
    Completes { bytes := [halfBytes h] } s (commit (s.writeHalf h v)) := by
  unfold State.writeHalf
  refine completes_mem s _ _ fun a ha => memRead_writeLE_out _ _ _ _ _ ?_
  have := ha _ (List.mem_singleton.2 rfl)
  simpa [halfBase, halfBytes, bufBase] using this

theorem completes_writeDig (s : State) (e : List Int) (he : e.length ≤ 256) :
    Completes { bytes := [digRun] } s (commit (s.writeDig e)) := by
  refine completes_mem s _ _ fun a ha => memRead_writeBytes_out _ _ _ _ ?_
  have := ha _ (List.mem_singleton.2 rfl)
  rw [digBytes_length e he]
  simpa [digRun, digBase] using this

theorem completes_lut (s : State) (l : Vector Pn 8) :
    Completes { lut := true } s (commit { s with lut := l }) where
  frame := by constructor <;> intros <;> first | rfl | contradiction
  cmdCnt := rfl
  phase := rfl

theorem completes_nlut (s : State) (l : Vector Pn 8) :
    Completes { nlut := true } s (commit { s with nlut := l }) where
  frame := by constructor <;> intros <;> first | rfl | contradiction
  cmdCnt := rfl
  phase := rfl

theorem completes_bt (s : State) (b : Vector (Vector An 8) 32) :
    Completes { bt := true } s (commit { s with bt := b }) where
  frame := by constructor <;> intros <;> first | rfl | contradiction
  cmdCnt := rfl
  phase := rfl

/-- A command that passes its checks and commits `u` runs. -/
theorem runs_of_finish {i : Instr} {s u : State} {w : Writes} {post : State → Prop} {r : Result}
    (he : exec i s = finish i s r) (hr : r = .ok u) (hc : Completes w s (commit u))
    (hp : post (commit u)) : Runs i s w post :=
  ⟨commit u, by rw [he, hr]; rfl, hc, hp⟩

/-- A command whose checks pass and which writes one field register runs. -/
theorem runs_setF {i : Instr} {s : State} {d : Reg} {x : Fe} {post : State → Prop}
    (he : exec i s = finish i s (.ok (s.setF d x))) (hp : post (commit (s.setF d x))) :
    Runs i s { f := [d] } post := runs_of_finish he rfl (completes_setF _ _ _) hp

theorem runs_setS {i : Instr} {s : State} {d : Reg} {x : Scalar} {post : State → Prop}
    (he : exec i s = finish i s (.ok (s.setS d x))) (hp : post (commit (s.setS d x))) :
    Runs i s { sc := [d] } post := runs_of_finish he rfl (completes_setS _ _ _) hp

theorem runs_setP {i : Instr} {s : State} {d : Reg} {x : Point} {post : State → Prop}
    (he : exec i s = finish i s (.ok (s.setP d x))) (hp : post (commit (s.setP d x))) :
    Runs i s { p := [d] } post := runs_of_finish he rfl (completes_setP _ _ _) hp

theorem runs_setK {i : Instr} {s : State} {d : Reg} {x : Bool} {post : State → Prop}
    (he : exec i s = finish i s (.ok (s.setK d x))) (hp : post (commit (s.setK d x))) :
    Runs i s { k := [d] } post := runs_of_finish he rfl (completes_setK _ _ _) hp

/-- A command whose checks pass and which stores into a half of BUF runs. -/
theorem runs_writeHalf {i : Instr} {s : State} {h : HalfField} {v : Nat} {post : State → Prop}
    (he : exec i s = finish i s (.ok (s.writeHalf h v))) (hp : post (commit (s.writeHalf h v))) :
    Runs i s { bytes := [(0x100 + 32 * h.val, 32)] } post :=
  runs_of_finish he rfl (completes_writeHalf _ _ _) hp

/-- What a store into a half of BUF leaves there. -/
theorem readHalf_commit_writeHalf {s : State} (hm : Memory.wf s.mem = true) (h : HalfField) {v : Nat}
    (hv : v < 2 ^ 256) : (commit (s.writeHalf h v)).readHalf h = v := by
  simp only [State.readHalf, commit_mem, State.writeHalf]
  rw [readLE_writeLE hm, Nat.mod_eq_of_lt (lt_of_lt_of_eq hv (by norm_num))]

theorem readHalf_lt (s : State) (h : HalfField) : s.readHalf h < 2 ^ 256 :=
  lt_of_lt_of_eq (readLE_lt s.mem (halfBase h) 32) (by norm_num)

theorem raises_of_finish {i : Instr} {s : State} {e : ErrorCause} {r : Result}
    (he : exec i s = finish i s r) (hr : r = .error e) :
    Raises i s (errorKind e, errorCode e) := by
  rw [Raises, he, hr]; rfl

end Sys2Proof.Machine
end

