-- ==== Sys2Proof/Laws/Codec.lean ====
section
/-! SUPPORT. The 32-byte encodings of points: which strings ED_DECODE and RI_DECODE accept, what they find, and
what ED_ENCODE stores. -/

namespace Sys2Proof.Machine

/-! ## Inverse, sign and bytes -/

theorem gf_finv_mul_self {x : Fe} (h : gf x ≠ 0) : gf (finv x) * gf x = 1 := by
  have : Fact (Nat.Prime fieldP) := ⟨fieldP_prime⟩
  rw [gf_finv, ← pow_succ]
  have := ZMod.pow_card_sub_one_eq_one h
  rwa [show fieldP - 1 = 2 ^ 255 - 21 + 1 by rw [fieldP_eq]; norm_num] at this

theorem gf_finv_of_zero {x : Fe} (h : gf x = 0) : gf (finv x) = 0 := by
  rw [gf_finv, h, zero_pow (by norm_num)]

theorem isneg_toNat (x : Fe) : (isneg x).toNat = x.val % 2 := by
  simp only [isneg]
  rcases Nat.mod_two_eq_zero_or_one x.val with h | h <;> rw [h] <;> rfl

/-- Negating a non-zero value flips its sign. -/
theorem fneg_parity {x : Fe} (h : gf x ≠ 0) : (fneg x).val % 2 = 1 ↔ x.val % 2 = 0 := by
  have hx : x.val ≠ 0 := fun e => h (gf_eq_zero.2 e)
  have := x.isLt
  rw [val_fneg hx]
  have hp : fieldP % 2 = 1 := by decide +kernel
  omega

/-- A value is determined by its square and its sign. -/
theorem eq_of_sq_of_parity {x y : Fe} (h : gf x ^ 2 = gf y ^ 2) (hp : x.val % 2 = y.val % 2) :
    x = y := by
  have : Fact (Nat.Prime fieldP) := ⟨fieldP_prime⟩
  rcases sq_eq_sq_iff_eq_or_eq_neg.1 h with h | h
  · exact gf_injective h
  · by_cases h0 : gf y = 0
    · exact gf_injective (by rw [h, h0, neg_zero])
    · have hx : x = fneg y := gf_injective (by rw [h, gf_fneg])
      have := fneg_parity h0
      rw [← hx] at this
      omega

theorem gf_feFromBytes (b : Nat) : gf (feFromBytes b) = ((b % 2 ^ 255 : Nat) : Gf) := gf_ofNat _

theorem testBit_255 {n : Nat} (h : n < 2 ^ 256) : n.testBit 255 = true ↔ 2 ^ 255 ≤ n := by
  rw [Nat.testBit_eq_decide_div_mod_eq]
  simp only [decide_eq_true_eq]
  omega

/-! ## ED_DECODE (R264) -/

/-- The denominator d·y² + 1 of the decompression never vanishes. -/
theorem decode_denominator (y : Gf) : y ^ 2 * dGf + 1 ≠ 0 := by
  have : Fact (Nat.Prime fieldP) := ⟨fieldP_prime⟩
  intro h
  have hy : y ≠ 0 := by rintro rfl; simp at h
  refine dGf_not_square (gf feSqrtM1 / y) ?_
  rw [div_pow, gf_feSqrtM1_sq, div_eq_iff (pow_ne_zero _ hy)]
  linear_combination -h

theorem onCurve_iff (x y : Gf) : OnCurve x y ↔ (y ^ 2 * dGf + 1) * x ^ 2 = y ^ 2 - 1 := by
  unfold OnCurve
  constructor <;> intro h <;> linear_combination -h

theorem edDecompress_some {b : Nat} {y : Gf} (hy : y = ((b % 2 ^ 255 : Nat) : Gf))
    (h : ∃ x, OnCurve x y) :
    ∃ X Y : Fe, edDecompress b = some ⟨X, Y, feOne, fmul X Y⟩ ∧ gf Y = y ∧ OnCurve (gf X) y ∧
      (gf X ≠ 0 → (X.val % 2 = 1 ↔ b.testBit 255 = true)) := by
  obtain ⟨s1, -, s2⟩ := sqrtRatio_spec (fsub (fsq (feFromBytes b)) feOne)
    (fadd (fmul (fsq (feFromBytes b)) feD) feOne)
  simp only [gf_fsub, gf_fadd, gf_fmul, gf_fsq, gf_feFromBytes, gf_feOne, gf_feD, ← hy] at s2
  obtain ⟨s2, s3, -⟩ := s2 (decode_denominator y)
  have hw := s2.2 (h.imp fun x hx => (onCurve_iff x y).1 hx)
  refine ⟨_, feFromBytes b, by simp only [edDecompress, hw, if_true]; rfl,
    by rw [gf_feFromBytes, hy], ?_, ?_⟩
  · rw [onCurve_iff, ← s3 hw]
    split
    · rw [gf_fneg, neg_sq]
    · with_reducible rfl
  · intro h0
    generalize (sqrtRatioM1 (fsub (fsq (feFromBytes b)) feOne)
      (fadd (fmul (fsq (feFromBytes b)) feD) feOne)).2 = r at *
    cases hb : b.testBit 255
    · simp only [Bool.false_eq_true, if_false, iff_false]
      omega
    · rw [hb] at h0
      simp only [if_true, gf_fneg, neg_ne_zero] at h0
      simp only [if_true, iff_true]
      rw [fneg_parity h0]
      exact s1

theorem edDecompress_none {b : Nat} {y : Gf} (hy : y = ((b % 2 ^ 255 : Nat) : Gf))
    (h : ¬ ∃ x, OnCurve x y) : edDecompress b = none := by
  obtain ⟨-, -, s2⟩ := sqrtRatio_spec (fsub (fsq (feFromBytes b)) feOne)
    (fadd (fmul (fsq (feFromBytes b)) feD) feOne)
  simp only [gf_fsub, gf_fadd, gf_fmul, gf_fsq, gf_feFromBytes, gf_feOne, gf_feD, ← hy] at s2
  obtain ⟨s2, -, -⟩ := s2 (decode_denominator y)
  have hw : ¬ _ := mt s2.1 fun hx => h (hx.imp fun x hx => (onCurve_iff x y).2 hx)
  simp only [edDecompress, hw, if_false]

/-! ## ED_ENCODE (R265) -/

/-- ED_ENCODE of any content with Z ≠ 0, on the curve or not. -/
theorem edCompress_eq {p : Ext} {x y : Gf} (hz : gf p.Z ≠ 0) (hx : x * gf p.Z = gf p.X)
    (hy : y * gf p.Z = gf p.Y) : edCompress p = ZMod.val y + ZMod.val x % 2 * 2 ^ 255 := by
  have hi := gf_finv_mul_self hz
  have hx : gf (fmul p.X (finv p.Z)) = x := by
    rw [gf_fmul, ← hx]
    linear_combination x * hi
  have hy : gf (fmul p.Y (finv p.Z)) = y := by
    rw [gf_fmul, ← hy]
    linear_combination y * hi
  simp only [edCompress, feToBytes]
  rw [← hx, ← hy, zmodVal_gf, zmodVal_gf, isneg_toNat]

theorem edCompress_of_zero {p : Ext} (h : gf p.Z = 0) : edCompress p = 0 := by
  have hz := gf_finv_of_zero h
  have h1 : (fmul p.X (finv p.Z)).val = 0 := gf_eq_zero.1 (by rw [gf_fmul, hz, mul_zero])
  have h2 : (fmul p.Y (finv p.Z)).val = 0 := gf_eq_zero.1 (by rw [gf_fmul, hz, mul_zero])
  simp only [edCompress, feToBytes, isneg_toNat, h1, h2, Nat.zero_mod, Nat.zero_mul, Nat.add_zero]

theorem edCompress_lt (p : Ext) : edCompress p < 2 ^ 256 := by
  simp only [edCompress, feToBytes]
  have := (fmul p.Y (finv p.Z)).isLt
  have hp := fieldP_eq
  have : (isneg (fmul p.X (finv p.Z))).toNat ≤ 1 := Bool.toNat_le _
  omega

theorem Represents.edCompress_eq {p : Ext} {x y : Gf} (h : Represents p x y) :
    edCompress p = ZMod.val y + ZMod.val x % 2 * 2 ^ 255 :=
  Sys2Proof.Machine.edCompress_eq h.zNonzero h.hx.symm h.hy.symm

theorem ctabs_even (x : Fe) : (ctabs x).val % 2 = 0 := by
  have h := isneg_toNat (ctabs x)
  rw [isneg_ctabs] at h
  exact h.symm

theorem gf_ctabs_eq_or_neg (x : Fe) : gf (ctabs x) = gf x ∨ gf (ctabs x) = -gf x := by
  have : Fact (Nat.Prime fieldP) := ⟨fieldP_prime⟩
  exact sq_eq_sq_iff_eq_or_eq_neg.1 (gf_ctabs_sq x)

/-- An element of GF(p) is determined by its square and its sign. -/
theorem gf_eq_of_sq_of_parity {x : Fe} {y : Gf} (h : gf x ^ 2 = y ^ 2)
    (hp : x.val % 2 = ZMod.val y % 2) : gf x = y := by
  have : Fact (Nat.Prime fieldP) := ⟨fieldP_prime⟩
  have hy : gf (Fe.ofNat (ZMod.val y)) = y := by rw [gf_ofNat, ZMod.natCast_zmod_val]
  rw [← hy] at h
  rw [← hy, eq_of_sq_of_parity h (by rw [hp, ← zmodVal_gf, hy])]

/-! ## RI_DECODE (R340) -/

/-- The point (x, y) that a Ristretto string σ stands for, up to the sign of x. -/
structure RiPoint (σ x y : Gf) : Prop where
  hy : y * (1 + σ ^ 2) = 1 - σ ^ 2
  hx : (-dGf * (1 - σ ^ 2) ^ 2 - (1 + σ ^ 2) ^ 2) * x ^ 2 = 4 * σ ^ 2

theorem RiPoint.denominators {σ x y : Gf} (h : RiPoint σ x y) :
    1 + σ ^ 2 ≠ 0 ∧ -dGf * (1 - σ ^ 2) ^ 2 - (1 + σ ^ 2) ^ 2 ≠ 0 := by
  have : Fact (Nat.Prime fieldP) := ⟨fieldP_prime⟩
  have h2 := gf_two_ne_zero
  constructor <;> intro e
  · have := h.hy
    rw [e, mul_zero] at this
    exact h2 (by linear_combination e - this)
  · have h4 := h.hx
    rw [e, zero_mul] at h4
    have hσ : σ = 0 := by
      by_contra hn
      exact mul_ne_zero (mul_ne_zero h2 h2) (pow_ne_zero 2 hn) (by linear_combination -h4)
    rw [hσ] at e
    refine dGf_not_square (gf feSqrtM1) ?_
    rw [gf_feSqrtM1_sq]
    linear_combination e

theorem gf_feSqrtAdMinusOne_sq : gf feSqrtAdMinusOne ^ 2 = -dGf - 1 := by
  have h : fsq feSqrtAdMinusOne = fsub (fneg feD) feOne := by decide +kernel
  rw [← gf_fsq, h, gf_fsub, gf_fneg, gf_feD, gf_feOne]

/-- The radicand of the decoding is a non-zero square where a point exists. -/
theorem RiPoint.radicand {σ x y : Gf} (h : RiPoint σ x y) :
    ∃ w : Gf, (-dGf * (1 - σ ^ 2) ^ 2 - (1 + σ ^ 2) ^ 2) * (1 + σ ^ 2) ^ 2 * w ^ 2 = 1 := by
  have : Fact (Nat.Prime fieldP) := ⟨fieldP_prime⟩
  obtain ⟨h1, h2⟩ := h.denominators
  have hx := h.hx
  generalize hv : -dGf * (1 - σ ^ 2) ^ 2 - (1 + σ ^ 2) ^ 2 = v at *
  generalize hu : 1 + σ ^ 2 = u at *
  obtain ⟨z, hz⟩ : ∃ z, v * z ^ 2 = 1 := by
    by_cases hσ : σ = 0
    · refine ⟨1 / gf feSqrtAdMinusOne, ?_⟩
      have hv' : v = gf feSqrtAdMinusOne ^ 2 := by
        rw [gf_feSqrtAdMinusOne_sq, ← hv, ← hu, hσ]
        ring
      rw [div_pow, ← hv', one_pow, mul_one_div_cancel h2]
    · refine ⟨x / (2 * σ), ?_⟩
      rw [div_pow, mul_div_assoc', hx, div_eq_one_iff_eq (pow_ne_zero _ (mul_ne_zero gf_two_ne_zero hσ))]
      ring
  refine ⟨z / u, ?_⟩
  rw [div_pow]
  field_simp
  linear_combination hz

theorem RiPoint.onCurve {σ x y : Gf} (h : RiPoint σ x y) : OnCurve x y := by
  have : Fact (Nat.Prime fieldP) := ⟨fieldP_prime⟩
  obtain ⟨h1, h2⟩ := h.denominators
  have hx := h.hx
  have hy := h.hy
  unfold OnCurve
  refine mul_left_cancel₀ (mul_ne_zero h2 (pow_ne_zero 2 h1)) ?_
  have hyy : y ^ 2 * (1 + σ ^ 2) ^ 2 = (1 - σ ^ 2) ^ 2 := by rw [← hy]; ring
  linear_combination (-(1 + σ ^ 2) ^ 2 - dGf * (1 - σ ^ 2) ^ 2) * hx +
    (-dGf * (1 - σ ^ 2) ^ 2 - (1 + σ ^ 2) ^ 2) * (1 - dGf * x ^ 2) * hyy

theorem RiPoint.unique {σ x y x' y' : Gf} (h : RiPoint σ x y) (h' : RiPoint σ x' y') :
    x ^ 2 = x' ^ 2 ∧ y = y' := by
  have : Fact (Nat.Prime fieldP) := ⟨fieldP_prime⟩
  obtain ⟨h1, h2⟩ := h.denominators
  exact ⟨mul_left_cancel₀ h2 (h.hx.trans h'.hx.symm), mul_right_cancel₀ h1 (h.hy.trans h'.hy.symm)⟩

theorem riDecompress_noncanonical {b : Nat} (h : fieldP ≤ b ∨ b % 2 = 1) :
    riDecompress b = .noncanonicalOrNeg := by
  unfold riDecompress
  rw [if_pos]
  by_cases hc : feToBytes (feFromBytes b) = b
  · right
    rw [isneg_iff]
    have h1 : (feFromBytes b).val = b := hc
    have := (feFromBytes b).isLt
    omega
  · exact .inl hc

/-- What the decoding computes on a canonical, non-negative string: it fails at the square root exactly where
no point exists, and otherwise finds one with x non-negative. -/
theorem riDecompress_canonical {b : Nat} {σ : Gf} (hb : b < fieldP) (he : b % 2 = 0)
    (hσ : σ = ((b : Nat) : Gf)) :
    (riDecompress b = .invalid ∧ ¬ ∃ x y, RiPoint σ x y) ∨
    ∃ X Y : Fe, RiPoint σ (gf X) (gf Y) ∧ X.val % 2 = 0 ∧
      riDecompress b =
        if (fmul X Y).val % 2 = 1 ∨ gf Y = 0 then .invalid else .element ⟨X, Y, feOne, fmul X Y⟩ := by
  have : Fact (Nat.Prime fieldP) := ⟨fieldP_prime⟩
  have hc : (feFromBytes b).val = b := by
    have hp := fieldP_eq
    show b % 2 ^ 255 % fieldP = b
    rw [Nat.mod_eq_of_lt (by omega : b < 2 ^ 255), Nat.mod_eq_of_lt hb]
  have hg : gf (feFromBytes b) = σ := by rw [gf, hc, hσ]
  have hn : ¬ (feToBytes (feFromBytes b) ≠ b ∨ isneg (feFromBytes b) = true) := by
    rw [isneg_iff]
    simp only [feToBytes]
    omega
  unfold riDecompress
  rw [if_neg hn]
  generalize feFromBytes b = s at *
  simp only []
  have hr := sqrtRatio_spec feOne (fmul (fsub (fneg (fmul feD (fsq (fsub feOne (fsq s)))))
    (fsq (fadd feOne (fsq s)))) (fsq (fadd feOne (fsq s))))
  obtain ⟨-, hr0, hr1⟩ := hr
  change (_ → _ ∧ ((invsqrt _).1 = true ↔ _)) at hr0
  change (_ → ((invsqrt _).1 = true ↔ _) ∧ ((invsqrt _).1 = true → _ * gf (invsqrt _).2 ^ 2 = _) ∧ _) at hr1
  generalize invsqrt (fmul (fsub (fneg (fmul feD (fsq (fsub feOne (fsq s))))) (fsq (fadd feOne (fsq s))))
    (fsq (fadd feOne (fsq s)))) = r at *
  have hV : gf (fmul (fsub (fneg (fmul feD (fsq (fsub feOne (fsq s)))))
    (fsq (fadd feOne (fsq s)))) (fsq (fadd feOne (fsq s)))) =
    (-dGf * (1 - σ ^ 2) ^ 2 - (1 + σ ^ 2) ^ 2) * (1 + σ ^ 2) ^ 2 := by
    simp only [gf_fmul, gf_fsub, gf_fneg, gf_fsq, gf_fadd, gf_feOne, gf_feD, hg]
    ring
  rw [hV, gf_feOne] at hr0 hr1
  rcases Bool.eq_false_or_eq_true r.1 with h1 | h1
  · right
    have hne : (-dGf * (1 - σ ^ 2) ^ 2 - (1 + σ ^ 2) ^ 2) * (1 + σ ^ 2) ^ 2 ≠ 0 := fun e =>
      one_ne_zero ((hr0 e).2.1 h1)
    have hI := (hr1 hne).2.1 h1
    refine ⟨ctabs (fmul (fadd s s) (fmul r.2 (fadd feOne (fsq s)))),
      fmul (fsub feOne (fsq s)) (fmul (fmul r.2 (fmul r.2 (fadd feOne (fsq s))))
        (fsub (fneg (fmul feD (fsq (fsub feOne (fsq s))))) (fsq (fadd feOne (fsq s))))),
      ⟨?_, ?_⟩, ?_, ?_⟩
    · simp only [gf_fmul, gf_fsub, gf_fneg, gf_fsq, gf_fadd, gf_feOne, gf_feD, hg]
      linear_combination (1 - σ ^ 2) * hI
    · rw [gf_ctabs_sq]
      simp only [gf_fmul, gf_fsq, gf_fadd, gf_feOne, hg]
      linear_combination 4 * σ ^ 2 * hI
    · exact ctabs_even _
    · simp only [h1, isneg_iff, feq_iff, gf_feZero, Bool.true_eq_false, false_or]
  · left
    refine ⟨by rw [if_pos (.inl h1)], ?_⟩
    rintro ⟨x, y, hxy⟩
    obtain ⟨w, hw⟩ := hxy.radicand
    have hne : (-dGf * (1 - σ ^ 2) ^ 2 - (1 + σ ^ 2) ^ 2) * (1 + σ ^ 2) ^ 2 ≠ 0 :=
      mul_ne_zero hxy.denominators.2 (pow_ne_zero _ hxy.denominators.1)
    rw [(hr1 hne).1.2 ⟨w, hw⟩] at h1
    exact Bool.noConfusion h1

/-! ## RI_MAP (R343) -/

theorem gf_feOneMinusDSq : gf feOneMinusDSq = 1 - dGf ^ 2 := by
  have h : feOneMinusDSq = fsub feOne (fsq feD) := by decide +kernel
  rw [h, gf_fsub, gf_fsq, gf_feOne, gf_feD]

theorem gf_feDMinusOneSq : gf feDMinusOneSq = (dGf - 1) ^ 2 := by
  have h : feDMinusOneSq = fsq (fsub feD feOne) := by decide +kernel
  rw [h, gf_fsq, gf_fsub, gf_feOne, gf_feD]

theorem gf_feSqrtM1 :
    gf feSqrtM1 = 0x2b8324804fc1df0b2b4d00993dfbd7a72f431806ad2fe478c4ee1b274a0ea0b0 := by
  rw [feSqrtM1, gf_ofNat]
  exact Nat.cast_ofNat

theorem gf_feSqrtAdMinusOne :
    gf feSqrtAdMinusOne = 0x376931bf2b8348ac0f3cfcc931f5d1fdaf9d8e0c1b7854bd7e97f6a0497b2e1b := by
  rw [feSqrtAdMinusOne, gf_ofNat]
  exact Nat.cast_ofNat

/-- The numerator and the denominator of the map are never both 0. -/
theorem elligator_numerator_ne_zero {r : Gf} (h : (-1 - dGf * r) * (r + dGf) = 0) :
    (r + 1) * (1 - dGf ^ 2) ≠ 0 := by
  have : Fact (Nat.Prime fieldP) := ⟨fieldP_prime⟩
  have e1 : (1 : Gf) - dGf ^ 2 ≠ 0 := by
    rw [← gf_feOneMinusDSq]
    intro h
    exact absurd (gf_eq_zero.1 h) (by decide +kernel)
  have e2 : dGf - 1 ≠ 0 := fun h => e1 (by linear_combination (-dGf - 1) * h)
  intro hn
  have hr : r = -1 := by linear_combination (mul_eq_zero.1 hn).resolve_right e1
  rw [hr] at h
  exact mul_ne_zero e2 e2 (by linear_combination h)

theorem gf_feInvsqrtAMinusD :
    gf feInvsqrtAMinusD = 0x786c8905cfaffca216c27b91fe01d8409d2f16175a4172be99c8fdaa805d40ea := by
  rw [feInvsqrtAMinusD, gf_ofNat]
  exact Nat.cast_ofNat

/-! ## RI_ENCODE (R341) -/

/-- The sign test of a slot, as a test of its representative. -/
theorem isneg_eq (x : Fe) : isneg x = decide (ZMod.val (gf x) % 2 = 1) := by
  rw [Bool.eq_iff_iff, isneg_iff, decide_eq_true_eq, zmodVal_gf]

theorem gf_fsel (x y : Fe) (b : Bool) : gf (fsel x y b) = if b then gf y else gf x := by
  cases b <;> rfl

theorem riCompress_even (p : Ext) : riCompress p % 2 = 0 := ctabs_even _

theorem riCompress_lt (p : Ext) : riCompress p < fieldP := Fin.isLt _

/-- The stored value of RI_ENCODE in GF(p), up to its sign, by the formulas of R341. -/
theorem riCompress_cast (p : Ext) {X Y Z T I zInv X' Y' den Y'' : Gf} (hX : X = gf p.X) (hY : Y = gf p.Y)
    (hZ : Z = gf p.Z) (hT : T = gf p.T)
    (hI : I = gf (invsqrt (fmul (fmul (fadd p.Z p.Y) (fsub p.Z p.Y)) (fsq (fmul p.X p.Y)))).2)
    (hz : zInv = I * ((Z + Y) * (Z - Y)) * (I * (X * Y) * T))
    (hX' : X' = if ZMod.val (T * zInv) % 2 = 1 then gf feSqrtM1 * Y else X)
    (hY' : Y' = if ZMod.val (T * zInv) % 2 = 1 then gf feSqrtM1 * X else Y)
    (hd : den = if ZMod.val (T * zInv) % 2 = 1 then I * ((Z + Y) * (Z - Y)) * gf feInvsqrtAMinusD
      else I * (X * Y))
    (hY'' : Y'' = if ZMod.val (X' * zInv) % 2 = 1 then -Y' else Y') :
    (riCompress p : Gf) = den * (Z - Y'') ∨ (riCompress p : Gf) = -(den * (Z - Y'')) := by
  unfold riCompress
  refine (gf_ctabs_eq_or_neg _).imp (fun h => h.trans ?_) fun h => h.trans (congrArg _ ?_) <;>
  · simp only [gf_fmul, gf_fsub, gf_fadd, gf_fneg, gf_fsel, isneg_eq, ← hX, ← hY, ← hZ, ← hT, ← hI,
      decide_eq_true_eq, mul_comm _ (gf feSqrtM1)]
    subst hd hY'' hX' hY' hz
    rfl

end Sys2Proof.Machine
end

