-- ==== Sys2Proof/Laws/Decode.lean ====
section
/-! SUPPORT. Each field of a packed word is the value packed into it (30_encoding.md R101, R112). -/

namespace Sys2Proof

theorem toNat_packWord {op d a b c imm : Nat} (h0 : op < 256) (h1 : d < 16)
    (h2 : a < 16) (h3 : b < 16) (h4 : c < 16) (h5 : imm < 256) :
    (packWord op d a b c imm).toNat = 
      op + d * 2 ^ 8 + a * 2 ^ 12 + b * 2 ^ 16 + c * 2 ^ 20 + imm * 2 ^ 24 := by
  rw [packWord, BitVec.toNat_ofNat, Nat.mod_eq_of_lt]; omega


theorem fieldOp_packWord {op d a b c imm : Nat} (h0 : op < 256) (h1 : d < 16)
    (h2 : a < 16) (h3 : b < 16) (h4 : c < 16) (h5 : imm < 256) :
    fieldOp (packWord op d a b c imm) = op := by
  rw [fieldOp, toNat_packWord h0 h1 h2 h3 h4 h5]; omega

theorem fieldD_packWord {op d a b c imm : Nat} (h0 : op < 256) (h1 : d < 16)
    (h2 : a < 16) (h3 : b < 16) (h4 : c < 16) (h5 : imm < 256) :
    fieldD (packWord op d a b c imm) = ⟨d, h1⟩ := by
  apply Fin.ext; simp only [fieldD]; rw [toNat_packWord h0 h1 h2 h3 h4 h5]; omega

theorem fieldA_packWord {op d a b c imm : Nat} (h0 : op < 256) (h1 : d < 16)
    (h2 : a < 16) (h3 : b < 16) (h4 : c < 16) (h5 : imm < 256) :
    fieldA (packWord op d a b c imm) = ⟨a, h2⟩ := by
  apply Fin.ext; simp only [fieldA]; rw [toNat_packWord h0 h1 h2 h3 h4 h5]; omega

theorem fieldB_packWord {op d a b c imm : Nat} (h0 : op < 256) (h1 : d < 16)
    (h2 : a < 16) (h3 : b < 16) (h4 : c < 16) (h5 : imm < 256) :
    fieldB (packWord op d a b c imm) = ⟨b, h3⟩ := by
  apply Fin.ext; simp only [fieldB]; rw [toNat_packWord h0 h1 h2 h3 h4 h5]; omega

theorem fieldC_packWord {op d a b c imm : Nat} (h0 : op < 256) (h1 : d < 16)
    (h2 : a < 16) (h3 : b < 16) (h4 : c < 16) (h5 : imm < 256) :
    fieldC (packWord op d a b c imm) = ⟨c, h4⟩ := by
  apply Fin.ext; simp only [fieldC]; rw [toNat_packWord h0 h1 h2 h3 h4 h5]; omega

theorem fieldImm_packWord {op d a b c imm : Nat} (h0 : op < 256) (h1 : d < 16)
    (h2 : a < 16) (h3 : b < 16) (h4 : c < 16) (h5 : imm < 256) :
    fieldImm (packWord op d a b c imm) = BitVec.ofNat 8 imm := by
  simp only [fieldImm]; rw [toNat_packWord h0 h1 h2 h3 h4 h5]; congr 1; omega

theorem fieldT_packWord {op d a b c imm : Nat} (h0 : op < 256) (h1 : d < 16)
    (h2 : a < 16) (h3 : b < 16) (h4 : c < 16) (h5 : imm < 256) :
    fieldT (packWord op d a b c imm) = BitVec.ofNat 8 (b + 16 * c) := by
  simp only [fieldT]; rw [toNat_packWord h0 h1 h2 h3 h4 h5]; congr 1; omega

/-- A word is its op and its five operand fields. -/
theorem packWord_fields (w : Word) :
    packWord (fieldOp w) (fieldD w).val (fieldA w).val (fieldB w).val (fieldC w).val
      (fieldImm w).toNat = w := by
  apply BitVec.eq_of_toNat_eq
  have := w.isLt
  simp only [packWord, fieldOp, fieldD, fieldA, fieldB, fieldC, fieldImm, BitVec.toNat_ofNat]
  omega

theorem unusedZero_ok {l : List Nat} {i j : Instr} (h : unusedZero l i = .ok j) :
    i = j ∧ ∀ x ∈ l, x = 0 := by
  unfold unusedZero at h
  split at h
  · next hl => exact ⟨Except.ok.inj h, fun x hx => by simpa using List.all_eq_true.1 hl x hx⟩
  · cases h

end Sys2Proof
end

