-- ==== Sys2Proof/Laws/Digits.lean ====
section
/-! SUPPORT. The digit recodings of 42_scalar.md: how many digits they give, what the digits sum to, and which
values they take; and Montgomery reduction. -/

namespace Sys2Proof.Machine

/-- The value of a list of digits, lowest first, in a base. -/
def digitsValue (base : Int) : List Int → Int
  | [] => 0
  | e :: rest => e + base * digitsValue base rest

/-! ## radix16 (R222) -/

theorem radix16From_length (k n c : Nat) : (radix16From k n c).length = k + 1 := by
  induction k generalizing n c with
  | zero => rfl
  | succ k ih => simp only [radix16From, List.length_cons, ih]

theorem radix16_length (n : Nat) : (radix16 n).length = 64 := radix16From_length 63 n 0

theorem radix16From_value (k n c : Nat) (h : n < 16 ^ (k + 1)) :
    digitsValue 16 (radix16From k n c) = (n + c : Int) := by
  induction k generalizing n c with
  | zero =>
    have : n % 16 = n := Nat.mod_eq_of_lt (by simpa using h)
    simp [radix16From, digitsValue]
    omega
  | succ k ih =>
    have hn : n / 16 < 16 ^ (k + 1) := Nat.div_lt_of_lt_mul (by rw [← pow_succ']; exact h)
    simp only [radix16From, digitsValue]
    rw [ih _ _ hn]
    push_cast
    omega

/-- Every digit but the top one lies in −8 to 7; with a carry of at most 1 and a top nibble of at most 7 the top
one lies in 0 to 8. -/
theorem radix16From_range (k n c : Nat) (hc : c ≤ 1) (h : n < 8 * 16 ^ k) :
    (∀ i, i < k → ∀ e, (radix16From k n c)[i]? = some e → -8 ≤ e ∧ e ≤ 7) ∧
      ∀ e, (radix16From k n c)[k]? = some e → 0 ≤ e ∧ e ≤ 8 := by
  induction k generalizing n c with
  | zero =>
    refine ⟨fun i hi => absurd hi (Nat.not_lt_zero i), fun e he => ?_⟩
    simp only [radix16From, List.getElem?_cons_zero, Option.some.injEq] at he
    omega
  | succ k ih =>
    have hn : n / 16 < 8 * 16 ^ k :=
      Nat.div_lt_of_lt_mul (by rw [show 16 * (8 * 16 ^ k) = 8 * 16 ^ (k + 1) by ring]; exact h)
    obtain ⟨h1, h2⟩ := ih (n / 16) ((n % 16 + c + 8) / 16) (by omega) hn
    refine ⟨fun i hi e he => ?_, fun e he => ?_⟩
    · cases i with
      | zero =>
        simp only [radix16From, List.getElem?_cons_zero, Option.some.injEq] at he
        omega
      | succ i => exact h1 i (by omega) e (by simpa [radix16From] using he)
    · exact h2 e (by simpa [radix16From] using he)

/-! ## naf5 (R224) -/

theorem naf5From_length (left skip n c : Nat) : (naf5From left skip n c).length = left := by
  induction left generalizing skip n c with
  | zero => rfl
  | succ left ih =>
    cases skip with
    | zero =>
      simp only [naf5From]
      split
      · simp [ih]
      · split <;> simp [ih]
    | succ skip => simp [naf5From, ih]

theorem naf5_length (n : Nat) : (naf5 n).length = 256 := naf5From_length 256 0 n 0

/-- The digits of naf5 from one position on stand for the scalar shifted down to that position, less the bits
under the zeros that follow a digit, plus the pending carry. -/
theorem naf5From_value (left skip n c : Nat) (hc : c ≤ 1)
    (h : 2 * (2 ^ skip * (n / 2 ^ skip + c)) ≤ 2 ^ left) :
    digitsValue 2 (naf5From left skip n c) = 2 ^ skip * (n / 2 ^ skip + c : Nat) := by
  induction left generalizing skip n c with
  | zero =>
    have : 2 ^ skip * (n / 2 ^ skip + c) = 0 := by omega
    simp only [naf5From, digitsValue]
    exact_mod_cast this.symm
  | succ left ih =>
    cases skip with
    | succ skip =>
      have e : n / 2 ^ (skip + 1) = n / 2 / 2 ^ skip := by rw [pow_succ', Nat.div_div_eq_div_mul]
      rw [e, pow_succ' 2 skip, pow_succ' 2 left] at h
      simp only [naf5From, digitsValue]
      rw [ih _ _ _ hc (by rw [mul_assoc] at h; omega), e]
      push_cast
      ring
    | zero =>
      simp only [pow_zero, Nat.div_one, one_mul] at h ⊢
      rw [pow_succ'] at h
      simp only [naf5From]
      split
      · simp only [digitsValue]
        rw [ih 0 _ _ hc (by simp only [pow_zero, Nat.div_one, one_mul]; omega)]
        simp only [pow_zero, Nat.div_one, one_mul]
        push_cast
        omega
      · split
        · simp only [digitsValue]
          rw [ih 4 _ _ (by omega) (by norm_num only; omega)]
          norm_num only
          push_cast
          omega
        · simp only [digitsValue]
          have hl : 2 * (16 * (n / 2 / 16 + 1)) ≤ 2 ^ left := by
            rcases Nat.lt_or_ge left 5 with hl | hl
            · have : 2 ^ left ≤ 2 ^ 4 := Nat.pow_le_pow_right (by omega) (by omega)
              omega
            · obtain ⟨m, rfl⟩ := Nat.exists_eq_add_of_le hl
              rw [pow_add] at h ⊢
              generalize 2 ^ m = z at *
              omega
          rw [ih 4 _ _ (by omega) (by norm_num only; exact hl)]
          norm_num only
          push_cast
          omega

/-- Every digit of naf5 is 0 or odd and below 16 in size; the positions that are skipped hold 0; and two
non-zero digits are at least 5 positions apart. -/
theorem naf5From_digits (left skip n c : Nat) (hc : c ≤ 1) :
    (∀ i e, (naf5From left skip n c)[i]? = some e →
      e = 0 ∨ (e % 2 = 1 ∧ -16 < e ∧ e < 16 ∧ skip ≤ i)) ∧
    ∀ (i j : Nat) (e e' : Int), i < j → (naf5From left skip n c)[i]? = some e →
      (naf5From left skip n c)[j]? = some e' → e ≠ 0 → e' ≠ 0 → i + 5 ≤ j := by
  induction left generalizing skip n c with
  | zero => simp [naf5From]
  | succ left ih =>
    -- a digit `e0` in front of digits that start with `k` zeros, where a non-zero `e0` needs k = 4
    have step : ∀ (e0 : Int) (k n' c' : Nat), c' ≤ 1 → skip ≤ k + 1 →
        (e0 = 0 ∨ (e0 % 2 = 1 ∧ -16 < e0 ∧ e0 < 16 ∧ skip ≤ 0 ∧ k = 4)) →
        naf5From (left + 1) skip n c = e0 :: naf5From left k n' c' →
        (∀ i e, (naf5From (left + 1) skip n c)[i]? = some e →
          e = 0 ∨ (e % 2 = 1 ∧ -16 < e ∧ e < 16 ∧ skip ≤ i)) ∧
        ∀ (i j : Nat) (e e' : Int), i < j → (naf5From (left + 1) skip n c)[i]? = some e →
          (naf5From (left + 1) skip n c)[j]? = some e' → e ≠ 0 → e' ≠ 0 → i + 5 ≤ j := by
      intro e0 k n' c' hc' hk he0 heq
      obtain ⟨h1, h2⟩ := ih k n' c' hc'
      rw [heq]
      refine ⟨fun i e he => ?_, fun i j e e' hij he he' hne hne' => ?_⟩
      · cases i with
        | zero =>
          simp only [List.getElem?_cons_zero, Option.some.injEq] at he
          subst he
          exact he0.imp id fun h => ⟨h.1, h.2.1, h.2.2.1, h.2.2.2.1⟩
        | succ i =>
          have := h1 i e (by simpa using he)
          exact this.imp id fun h => ⟨h.1, h.2.1, h.2.2.1, by omega⟩
      · obtain ⟨j, rfl⟩ : ∃ k, j = k + 1 := ⟨j - 1, by omega⟩
        cases i with
        | zero =>
          simp only [List.getElem?_cons_zero, Option.some.injEq] at he
          subst he
          have h4 := (he0.resolve_left hne).2.2.2.2
          have := (h1 j e' (by simpa using he')).resolve_left hne'
          omega
        | succ i =>
          have := h2 i j e e' (by omega) (by simpa using he) (by simpa using he') hne hne'
          omega
    cases skip with
    | succ skip => exact step 0 skip (n / 2) c hc (by omega) (.inl rfl) rfl
    | zero =>
      by_cases hw : (c + n % 32) % 2 = 0
      · exact step 0 0 (n / 2) c hc (by omega) (.inl rfl) (by simp only [naf5From, hw, if_true])
      · by_cases hw' : c + n % 32 < 16
        · exact step (c + n % 32 : Nat) 4 (n / 2) 0 (by omega) (by omega)
            (.inr ⟨by omega, by omega, by omega, by omega, rfl⟩)
            (by simp only [naf5From, hw, hw', if_true, if_false])
        · exact step ((c + n % 32 : Nat) - 32) 4 (n / 2) 1 (by omega) (by omega)
            (.inr ⟨by omega, by omega, by omega, by omega, rfl⟩)
            (by simp only [naf5From, hw, hw', if_false])

/-! ## montgomery_reduce and Montgomery form (R204, R205, R206) -/

theorem lFactor_spec : (1 + lFactor * groupL) % 2 ^ 29 = 0 := by decide +kernel

theorem montRInv_spec : montRInv * 2 ^ 261 % groupL = 1 := by decide +kernel

theorem groupL_pos : 0 < groupL := by decide +kernel

theorem montR_coprime : Nat.Coprime (2 ^ 261) groupL := by decide +kernel

theorem montRModL_eq : montRModL = 2 ^ 261 % groupL := by decide +kernel

theorem montRR_eq : montRR = 2 ^ 522 % groupL := by decide +kernel

theorem montgomeryReduce_lt (T : Nat) : montgomeryReduce T < groupL := Nat.mod_lt _ groupL_pos

/-- Times R, the reduction is the number reduced. -/
theorem montgomeryReduce_mul (T : Nat) : montgomeryReduce T * 2 ^ 261 % groupL = T % groupL := by
  rw [montgomeryReduce, Nat.mod_mul_mod, mul_right_comm, Nat.mul_mod, montRInv_spec, one_mul,
    Nat.mod_mod]

theorem toMontgomery_eq (x : Nat) : toMontgomery x = x * 2 ^ 261 % groupL := by
  have h : montRInv * montRR % groupL = 2 ^ 261 % groupL := by decide +kernel
  rw [toMontgomery, montgomeryReduce, ← mul_assoc, Nat.mul_mod, h, ← Nat.mul_mod, mul_comm]

theorem montgomeryProduct_eq (x y : Nat) : montgomeryProduct x y = x * y % groupL := by
  have h : montRInv * montRR * montRInv % groupL = 1 := by decide +kernel
  rw [montgomeryProduct, montgomeryReduce, montgomeryReduce, ← mul_assoc, Nat.mul_mod_mod, ← mul_assoc,
    Nat.mul_mod, h, one_mul, Nat.mod_mod]

/-- SC_MUL's value is the product as two Montgomery reductions (R206, R219). -/
theorem scMulMod_eq_montgomeryProduct (x y : Scalar) :
    (scMulMod x y).val = montgomeryProduct x.val y.val := by
  rw [montgomeryProduct_eq]
  exact Nat.mod_eq_of_lt (lt_trans (Nat.mod_lt _ groupL_pos) (by decide +kernel))

/-- The product of two stored scalars is a number the procedure of R205 reduces. -/
theorem montgomery_domain {x y : Nat} (hx : x < 2 ^ 255) (hy : y < 2 ^ 255) :
    x * y < 2 ^ 261 * groupL :=
  lt_trans (Nat.mul_lt_mul'' hx hy) (by decide +kernel)

/-- One step of the loop, at weight `p` and with limbs below `b`, where `b` divides 1 + F·L. -/
theorem limb_step {b L F p acc : Nat} (hb : 0 < b) (hp : 0 < p) (h : (1 + F * L) % b = 0)
    (ha : acc % p = 0) :
    (acc + p * (L * (F * (acc / p % b) % b))) % (p * b) = 0 ∧
      (acc + p * (L * (F * (acc / p % b) % b))) % L = acc % L ∧
      acc + p * (L * (F * (acc / p % b) % b)) + p * L ≤ acc + p * b * L := by
  obtain ⟨q, rfl⟩ : p ∣ acc := Nat.dvd_of_mod_eq_zero ha
  rw [Nat.mul_div_cancel_left _ hp]
  refine ⟨?_, ?_, ?_⟩
  · have h0 : (q + L * (F * (q % b) % b)) % b = 0 := by
      rw [Nat.add_mod, Nat.mul_mod_mod, ← mul_assoc, Nat.mul_mod_mod, ← Nat.add_mod,
        show q + L * F * q = (1 + F * L) * q by ring, Nat.mul_mod, h, zero_mul, Nat.zero_mod]
    rw [← mul_add, Nat.mul_mod_mul_left, h0, mul_zero]
  · rw [show p * (L * (F * (q % b) % b)) = L * (p * (F * (q % b) % b)) by ring,
      Nat.add_mul_mod_self_left]
  · have := Nat.mul_le_mul_right (p * L) (Nat.succ_le_of_lt (Nat.mod_lt (F * (q % b)) hb))
    calc _ = p * q + (F * (q % b) % b + 1) * (p * L) := by ring
      _ ≤ p * q + b * (p * L) := Nat.add_le_add_left this _
      _ = _ := by ring

theorem montgomeryStep_eq (i acc : Nat) :
    montgomeryStep i acc =
      acc + 2 ^ (29 * i) * (groupL * (lFactor * (acc / 2 ^ (29 * i) % 2 ^ 29) % 2 ^ 29)) := rfl

/-- The loop makes the limbs it has passed zero, keeps the value mod ℓ and adds less than ℓ at the weight it
has reached. -/
theorem montgomerySteps_spec (k i acc : Nat) (h : acc % 2 ^ (29 * i) = 0) :
    montgomerySteps k i acc % 2 ^ (29 * (i + k)) = 0 ∧
      montgomerySteps k i acc % groupL = acc % groupL ∧
      montgomerySteps k i acc + 2 ^ (29 * i) * groupL ≤ acc + 2 ^ (29 * (i + k)) * groupL := by
  induction k generalizing i acc with
  | zero => exact ⟨h, rfl, le_rfl⟩
  | succ k ih =>
    obtain ⟨a, b, c⟩ := limb_step (b := 2 ^ 29) (by norm_num) (Nat.two_pow_pos _) lFactor_spec h
    rw [← montgomeryStep_eq] at a b c
    rw [show 2 ^ (29 * i) * 2 ^ 29 = 2 ^ (29 * (i + 1)) by rw [← pow_add, mul_add, mul_one]] at a c
    obtain ⟨a', b', c'⟩ := ih (i + 1) _ a
    rw [show i + (k + 1) = i + 1 + k by omega, montgomerySteps]
    exact ⟨a', b'.trans b, by omega⟩

/-! ## DIG (R49) -/

/-- A digit between −128 and 127 reads back from its byte. -/
theorem toInt_digitByte {e : Int} (h1 : -128 ≤ e) (h2 : e ≤ 127) : (digitByte e).toInt = e := by
  simp only [digitByte, BitVec.toInt_ofInt]
  exact Int.bmod_eq_of_le (by omega) (by omega)

theorem digAt_writeDig {s : State} (hm : Memory.wf s.mem = true) {e : List Int} (hl : e.length ≤ 256)
    (hr : ∀ x ∈ e, -128 ≤ x ∧ x ≤ 127) {i : Nat} (hi : i < 256) :
    digAt (commit (s.writeDig e)) i = e[i]?.getD 0 := by
  have hL := digBytes_length e hl
  have := memRead_writeBytes hm digBase (digBytes e) i (by rw [hL]; exact hi)
  simp only [digAt, commit_mem, State.writeDig]
  rw [show 0x200 + i = digBase + i from rfl, this]
  simp only [digBytes]
  by_cases h : i < e.length
  · rw [List.getElem_append_left (by simpa using h), List.getElem_map, List.getElem?_eq_getElem h]
    have := hr e[i] (List.getElem_mem h)
    exact toInt_digitByte this.1 this.2
  · rw [List.getElem_append_right (by simpa using h), List.getElem_replicate,
      List.getElem?_eq_none (by omega)]
    rfl

theorem digitsValue_append (base : Int) (l : List Int) (x : Int) :
    digitsValue base (l ++ [x]) = digitsValue base l + x * base ^ l.length := by
  induction l with
  | nil => simp [digitsValue]
  | cons a l ih => simp only [List.cons_append, digitsValue, ih, List.length_cons, pow_succ]; ring

/-- The sum over DIG of a recoding is the value of its digits. -/
theorem digitSum_eq_digitsValue {s : State} {base : Int} (e : List Int)
    (h : ∀ i, i < e.length → digAt s i = e[i]?.getD 0) :
    digitSum s base e.length = digitsValue base e := by
  have key : ∀ n, n ≤ e.length → digitSum s base n = digitsValue base (e.take n) := by
    intro n hn
    induction n with
    | zero => rfl
    | succ n ih =>
      rw [digitSum, ih (by omega), h n (by omega), List.getElem?_eq_getElem (by omega),
        List.take_succ_eq_append_getElem (by omega), digitsValue_append, List.length_take,
        min_eq_left (by omega)]
      rfl
  rw [key _ le_rfl, List.take_length]

/-- A command that passes its checks and writes its digits to DIG runs. -/
theorem runs_writeDig {i : Instr} {s : State} {e : List Int} {post : State → Prop}
    (hl : e.length ≤ 256) (he : exec i s = finish i s (.ok (s.writeDig e)))
    (hp : post (commit (s.writeDig e))) : Runs i s { bytes := [(0x200, 256)] } post :=
  runs_of_finish he rfl (completes_writeDig _ _ hl) hp

end Sys2Proof.Machine
end

