-- ==== Sys2Proof/Laws/Exec.lean ====
section
/-! SUPPORT. What a command can do, said once: it commits a state that differs from the old one in its
destinations alone, or it takes the error path. Every fact about all commands is derived from `exec_form`
without unfolding the meanings again. -/

namespace Sys2Proof.Machine

/-- The ways a command writes its results, beside the destinations `writesOf` gives it. -/
inductive WriteForm (s : State) : Writes → State → Prop where
  | nothing : WriteForm s {} s
  | f (d : Reg) (x : Fe) : WriteForm s { f := [d] } (s.setF d x)
  | sc (d : Reg) (x : Scalar) : WriteForm s { sc := [d] } (s.setS d x)
  | p (d : Reg) (x : Point) : WriteForm s { p := [d] } (s.setP d x)
  | k (d : Reg) (x : Bool) : WriteForm s { k := [d] } (s.setK d x)
  | fk (d c : Reg) (x : Fe) (b : Bool) : WriteForm s { f := [d], k := [c] } ((s.setF d x).setK c b)
  | half (h : HalfField) (v : Nat) (hh : h.val ≤ 1) :
    WriteForm s { bytes := [halfBytes h] } (s.writeHalf h v)
  | dig (e : List Int) (he : e.length ≤ 256) : WriteForm s { bytes := [digRun] } (s.writeDig e)
  | lut (l : Vector Pn 8) : WriteForm s { lut := true } { s with lut := l }
  | nlut (l : Vector Pn 8) : WriteForm s { nlut := true } { s with nlut := l }
  | bt (b : Vector (Vector An 8) 32) : WriteForm s { bt := true } { s with bt := b }

theorem WriteForm.completes {s u : State} {w : Writes} (h : WriteForm s w u) :
    Completes w s (commit u) := by
  cases h with
  | nothing => exact completes_commit_self _
  | f d x => exact completes_setF _ _ _
  | sc d x => exact completes_setS _ _ _
  | p d x => exact completes_setP _ _ _
  | k d x => exact completes_setK _ _ _
  | fk d c x b => exact completes_setF_setK _ _ _ _ _
  | half h v hh => exact completes_writeHalf _ _ _
  | dig e he => exact completes_writeDig _ _ he
  | lut l => exact completes_lut _ _
  | nlut l => exact completes_nlut _ _
  | bt b => exact completes_bt _ _

/-! ## The results of a meaning, check by check -/

/-- A result that, if it is one, writes `w` and nothing else. -/
def Writing (s : State) (w : Writes) (r : Result) : Prop := ∀ u, r = .ok u → WriteForm s w u

theorem writing_ok {s u : State} {w : Writes} (h : WriteForm s w u) : Writing s w (.ok u) :=
  fun _ e => Except.ok.inj e ▸ h

theorem writing_error {s : State} {w : Writes} (e : ErrorCause) : Writing s w (.error e) :=
  fun _ h => nomatch h

theorem writing_require {s : State} {w : Writes} {c : Bool} {e : ErrorCause} {r : Result}
    (h : c = true → Writing s w r) : Writing s w (require c e r) := by
  cases c with
  | true => exact h rfl
  | false => exact writing_error e

theorem writing_needHalf {s : State} {w : Writes} {h : HalfField} {r : Result}
    (hr : h.val ≤ 1 → Writing s w r) : Writing s w (needHalf h r) :=
  writing_require fun hc => hr (of_decide_eq_true hc)

theorem writing_needTag {s : State} {w : Writes} {q : Point} {t : Tag} {r : Result}
    (hr : Writing s w r) : Writing s w (needTag q t r) := writing_require fun _ => hr

theorem writing_needAtMost {s : State} {w : Writes} {imm : Byte} {n : Nat} {r : Result}
    (hr : Writing s w r) : Writing s w (needAtMost imm n r) := writing_require fun _ => hr

theorem writing_needOdd {s : State} {w : Writes} {imm : Byte} {r : Result}
    (hr : Writing s w r) : Writing s w (needOdd imm r) := writing_require fun _ => hr

theorem writing_needExponent {s : State} {w : Writes} {imm : Byte} {r : Result}
    (hr : Writing s w r) : Writing s w (needExponent imm r) := writing_require fun _ => hr

theorem writing_needDig8 {s : State} {w : Writes} {imm : Byte} {k : Int → Result}
    (hr : ∀ x, Writing s w (k x)) : Writing s w (needDig8 imm k) := writing_require fun _ => hr _

theorem writing_needSubTable {s : State} {w : Writes} {t : Byte} {k : Fin 32 → Result}
    (hr : ∀ i, Writing s w (k i)) : Writing s w (needSubTable t k) := by
  rw [needSubTable_eq]
  split
  · exact hr _
  · exact writing_error _

/-- A meaning is the end of one result. -/
def ExecForm (i : Instr) (s : State) : Prop :=
  ∃ r, exec i s = finish i s r ∧ Writing s (writesOf i) r

theorem execForm_f {i : Instr} {s : State} {d : Reg} {x : Fe}
    (he : exec i s = finish i s (.ok (s.setF d x))) (hw : writesOf i = { f := [d] }) :
    ExecForm i s := ⟨_, he, hw ▸ writing_ok (.f d x)⟩

theorem execForm_sc {i : Instr} {s : State} {d : Reg} {x : Scalar}
    (he : exec i s = finish i s (.ok (s.setS d x))) (hw : writesOf i = { sc := [d] }) :
    ExecForm i s := ⟨_, he, hw ▸ writing_ok (.sc d x)⟩

theorem execForm_p {i : Instr} {s : State} {d : Reg} {x : Point}
    (he : exec i s = finish i s (.ok (s.setP d x))) (hw : writesOf i = { p := [d] }) :
    ExecForm i s := ⟨_, he, hw ▸ writing_ok (.p d x)⟩

theorem execForm_k {i : Instr} {s : State} {d : Reg} {x : Bool}
    (he : exec i s = finish i s (.ok (s.setK d x))) (hw : writesOf i = { k := [d] }) :
    ExecForm i s := ⟨_, he, hw ▸ writing_ok (.k d x)⟩

theorem execForm (i : Instr) (s : State) : ExecForm i s := by
  cases i with
  | nop => exact ⟨_, rfl, writing_ok .nothing⟩
  | kSet d imm => exact ⟨_, rfl, writing_needAtMost (writing_ok (.k _ _))⟩
  | kNot d a => exact execForm_k rfl rfl
  | kAnd d a b => exact execForm_k rfl rfl
  | kOr d a b => exact execForm_k rfl rfl
  | kXor d a b => exact execForm_k rfl rfl
  | bufEq d => exact execForm_k rfl rfl
  | bufBit d h imm => exact ⟨_, rfl, writing_needHalf fun _ => writing_ok (.k _ _)⟩
  | feLoad d h => exact ⟨_, rfl, writing_needHalf fun _ => writing_ok (.f _ _)⟩
  | feStore a h => exact ⟨_, rfl, writing_needHalf fun hh => writing_ok (.half _ _ hh)⟩
  | feMov d a => exact execForm_f rfl rfl
  | feConst d imm => exact ⟨_, rfl, writing_needAtMost (writing_ok (.f _ _))⟩
  | feAdd d a b => exact execForm_f rfl rfl
  | feSub d a b => exact execForm_f rfl rfl
  | feNeg d a => exact execForm_f rfl rfl
  | feMul d a b => exact execForm_f rfl rfl
  | feSq d a => exact execForm_f rfl rfl
  | feSq2 d a => exact execForm_f rfl rfl
  | feInv d a => exact execForm_f rfl rfl
  | fePowp58 d a => exact execForm_f rfl rfl
  | feSel d a b c => exact execForm_f rfl rfl
  | feIsneg d a => exact execForm_k rfl rfl
  | feIszero d a => exact execForm_k rfl rfl
  | feEq d a b => exact execForm_k rfl rfl
  | feCtabs d a => exact execForm_f rfl rfl
  | feSqrtratio d a b c => exact ⟨_, rfl, writing_ok (.fk _ _ _ _)⟩
  | scLoad d h =>
    refine ⟨_, rfl, writing_needHalf fun _ => writing_require fun _ => writing_require fun _ => ?_⟩
    exact writing_ok (.sc _ _)
  | scLoadbits d h => exact ⟨_, rfl, writing_needHalf fun _ => writing_ok (.sc _ _)⟩
  | scLoadwide d => exact execForm_sc rfl rfl
  | scStore a h => exact ⟨_, rfl, writing_needHalf fun hh => writing_ok (.half _ _ hh)⟩
  | scMov d a => exact execForm_sc rfl rfl
  | scConst d imm => exact ⟨_, rfl, writing_needAtMost (writing_ok (.sc _ _))⟩
  | scAdd d a b => exact execForm_sc rfl rfl
  | scSub d a b => exact execForm_sc rfl rfl
  | scMul d a b => exact execForm_sc rfl rfl
  | scMuladd d a b c => exact execForm_sc rfl rfl
  | scReduce d a => exact execForm_sc rfl rfl
  | scMontmul d a b => exact execForm_sc rfl rfl
  | scRadix16 a => exact ⟨_, rfl, writing_ok (.dig _ (by rw [radix16_length]; omega))⟩
  | scNaf5 a => exact ⟨_, rfl, writing_ok (.dig _ (by rw [naf5_length]))⟩
  | scEq d a b => exact execForm_k rfl rfl
  | ptConst d imm => exact ⟨_, rfl, writing_needAtMost (writing_ok (.p _ _))⟩
  | ptMov d a => exact execForm_p rfl rfl
  | ptGet d a imm => exact ⟨_, rfl, writing_needAtMost (writing_ok (.f _ _))⟩
  | ptSet d a imm => exact ⟨_, rfl, writing_needAtMost (writing_ok (.p _ _))⟩
  | ptSettag d imm => exact ⟨_, rfl, writing_needAtMost (writing_ok (.p _ _))⟩
  | ptSel d a b c => exact ⟨_, rfl, writing_needTag (writing_ok (.p _ _))⟩
  | ptNeg d a =>
    refine ⟨_, rfl, ?_⟩
    split <;> first | exact writing_ok (.p _ _) | exact writing_error _
  | extToProj d a => exact ⟨_, rfl, writing_needTag (writing_ok (.p _ _))⟩
  | extToPn d a => exact ⟨_, rfl, writing_needTag (writing_ok (.p _ _))⟩
  | extToAn d a => exact ⟨_, rfl, writing_needTag (writing_ok (.p _ _))⟩
  | projToExt d a => exact ⟨_, rfl, writing_needTag (writing_ok (.p _ _))⟩
  | compToProj d a => exact ⟨_, rfl, writing_needTag (writing_ok (.p _ _))⟩
  | compToExt d a => exact ⟨_, rfl, writing_needTag (writing_ok (.p _ _))⟩
  | pnToExt d a => exact ⟨_, rfl, writing_needTag (writing_ok (.p _ _))⟩
  | anToExt d a => exact ⟨_, rfl, writing_needTag (writing_ok (.p _ _))⟩
  | projDbl d a => exact ⟨_, rfl, writing_needTag (writing_ok (.p _ _))⟩
  | extAddPn d a b => exact ⟨_, rfl, writing_needTag (writing_needTag (writing_ok (.p _ _)))⟩
  | extSubPn d a b => exact ⟨_, rfl, writing_needTag (writing_needTag (writing_ok (.p _ _)))⟩
  | extAddAn d a b => exact ⟨_, rfl, writing_needTag (writing_needTag (writing_ok (.p _ _)))⟩
  | extSubAn d a b => exact ⟨_, rfl, writing_needTag (writing_needTag (writing_ok (.p _ _)))⟩
  | edAdd d a b => exact ⟨_, rfl, writing_needTag (writing_needTag (writing_ok (.p _ _)))⟩
  | edSub d a b => exact ⟨_, rfl, writing_needTag (writing_needTag (writing_ok (.p _ _)))⟩
  | edDbl d a => exact ⟨_, rfl, writing_needTag (writing_ok (.p _ _))⟩
  | edMulpow2 d a imm =>
    exact ⟨_, rfl, writing_needTag (writing_needExponent (writing_ok (.p _ _)))⟩
  | edDecode d h =>
    refine ⟨_, rfl, writing_needHalf fun _ => ?_⟩
    split <;> first | exact writing_ok (.p _ _) | exact writing_error _
  | edEncode a h =>
    exact ⟨_, rfl, writing_needHalf fun hh => writing_needTag (writing_ok (.half _ _ hh))⟩
  | edEq d a b => exact ⟨_, rfl, writing_needTag (writing_needTag (writing_ok (.k _ _)))⟩
  | edIsident d a => exact ⟨_, rfl, writing_needTag (writing_ok (.k _ _))⟩
  | edIssmall d a => exact ⟨_, rfl, writing_needTag (writing_ok (.k _ _))⟩
  | edIstf d a => exact ⟨_, rfl, writing_needTag (writing_ok (.k _ _))⟩
  | lutBuild a => exact ⟨_, rfl, writing_needTag (writing_ok (.lut _))⟩
  | lutSel d imm => exact ⟨_, rfl, writing_needDig8 fun _ => writing_ok (.p _ _)⟩
  | nlutBuild a => exact ⟨_, rfl, writing_needTag (writing_ok (.nlut _))⟩
  | nlutSel d imm => exact ⟨_, rfl, writing_needOdd (writing_ok (.p _ _))⟩
  | btBuild a => exact ⟨_, rfl, writing_needTag (writing_ok (.bt _))⟩
  | btSel d t imm =>
    exact ⟨_, rfl, writing_needSubTable fun _ => writing_needDig8 fun _ => writing_ok (.p _ _)⟩
  | edSmul d a b => exact ⟨_, rfl, writing_needTag (writing_ok (.p _ _))⟩
  | edBmul d a => exact execForm_p rfl rfl
  | edVtdbl d a b c => exact ⟨_, rfl, writing_needTag (writing_ok (.p _ _))⟩
  | riDecode d h =>
    refine ⟨_, rfl, writing_needHalf fun _ => ?_⟩
    split <;> first | exact writing_ok (.p _ _) | exact writing_error _
  | riEncode a h =>
    exact ⟨_, rfl, writing_needHalf fun hh => writing_needTag (writing_ok (.half _ _ hh))⟩
  | riEq d a b => exact ⟨_, rfl, writing_needTag (writing_needTag (writing_ok (.k _ _)))⟩
  | riMap d a => exact execForm_p rfl rfl
  | riFromuni d => exact execForm_p rfl rfl

/-- Every command, in every state, commits its destinations or takes the error path. -/
theorem exec_form (i : Instr) (s : State) :
    (∃ u, exec i s = .next (commit u) ∧ WriteForm s (writesOf i) u) ∨
      ∃ e, exec i s = .next (raiseError (encode i) e s) := by
  obtain ⟨r, he, hw⟩ := execForm i s
  cases r with
  | ok u => exact .inl ⟨u, he, hw u rfl⟩
  | error e => exact .inr ⟨e, he⟩

theorem exec_next (i : Instr) (s : State) : ∃ t, exec i s = .next t := by
  rcases exec_form i s with ⟨u, h, -⟩ | ⟨e, h⟩ <;> exact ⟨_, h⟩

end Sys2Proof.Machine
end

