-- ==== Sys2Proof/Laws/Step.lean ====
section
/-! SUPPORT. What a step can do, said once per kind of event: the host's writes and reads, the reset pin and the
sequencer's own step. -/

namespace Sys2Proof.Machine

theorem step_nil {s : State} (h : s.pending = []) : step s = coreStep s := by
  rw [step, h]

theorem step_cons {s : State} {e : HostEvent} {rest : List HostEvent} (h : s.pending = e :: rest) :
    step s = applyEvent e { s with pending := rest } := by
  rw [step, h]

theorem coreStep_init {s : State} (h : s.phase = .init) : coreStep s = .next (endInit s) := by
  rw [coreStep, h]

theorem coreStep_idle {s : State} (h : s.phase = .idle) : coreStep s = .next s := by
  rw [coreStep, h]

theorem coreStep_exec {s : State} {w : Word} (h : s.phase = .exec w) : coreStep s = runWord w s := by
  rw [coreStep, h]

theorem runWord_ok {s : State} {w : Word} {i : Instr} (h : decode w = .ok i) :
    runWord w s = exec i s := by
  rw [runWord, h]

theorem runWord_error {s : State} {w : Word} {e : DecodeError} (h : decode w = .error e) :
    runWord w s = .next (raiseError w (decodeCause e) s) := by
  rw [runWord, h]

/-- The sequencer's own step: INIT ends, IDLE holds, and an executing command commits or takes the error
path. -/
theorem coreStep_cases {s t : State} (h : coreStep s = .next t) :
    (s.phase = .init ∧ t = endInit s) ∨ (s.phase = .idle ∧ t = s) ∨
    (∃ w i u, s.phase = .exec w ∧ decode w = .ok i ∧ t = commit u ∧
      WriteForm s (writesOf i) u) ∨
    ∃ w v e, s.phase = .exec w ∧ t = raiseError v e s := by
  cases hp : s.phase with
  | init =>
    rw [coreStep_init hp] at h
    exact .inl ⟨rfl, (Host.Outcome.next.inj h).symm⟩
  | idle =>
    rw [coreStep_idle hp] at h
    exact .inr (.inl ⟨rfl, (Host.Outcome.next.inj h).symm⟩)
  | exec w =>
    rw [coreStep_exec hp] at h
    refine .inr (.inr ?_)
    cases hd : decode w with
    | error e =>
      rw [runWord_error hd] at h
      exact .inr ⟨w, _, _, rfl, (Host.Outcome.next.inj h).symm⟩
    | ok i =>
      rw [runWord_ok hd] at h
      rcases exec_form i s with ⟨u, he, hw⟩ | ⟨e, he⟩ <;> rw [he] at h
      · exact .inl ⟨w, i, u, rfl, hd, (Host.Outcome.next.inj h).symm, hw⟩
      · exact .inr ⟨w, _, _, rfl, (Host.Outcome.next.inj h).symm⟩

theorem coreStep_next (s : State) : ∃ t, coreStep s = .next t := by
  cases hp : s.phase with
  | init => exact ⟨_, coreStep_init hp⟩
  | idle => exact ⟨_, coreStep_idle hp⟩
  | exec w =>
    rw [coreStep_exec hp]
    cases hd : decode w with
    | error e => exact ⟨_, runWord_error hd⟩
    | ok i =>
      rw [runWord_ok hd]
      exact exec_next i s

/-- A host write does one of these things. -/
theorem hostWrite_cases (o : Offset) (v : Word) (s : State) :
    hostWrite o v s = s ∨
    (busy s = true ∧ hostWrite o v s = { s with ovf := true }) ∨
    (o = 0x000 ∧ busy s = false ∧ s.err = true ∧
      hostWrite o v s = { s with cmd := v, disc := true }) ∨
    (o = 0x000 ∧ busy s = false ∧ s.err = false ∧ hostWrite o v s = accept v s) ∨
    (o = 0x008 ∧ v.getLsbD 0 = true ∧ hostWrite o v s = resetCore s) ∨
    (o = 0x008 ∧ v.getLsbD 0 = false ∧ hostWrite o v s = clearErrors s) ∨
    (o.toNat % 4 = 0 ∧ inBuf o.toNat = true ∧ busy s = false ∧
      hostWrite o v s = { s with mem := writeLE s.mem o.toNat 4 v.toNat }) := by
  have ofNat_eq : ∀ n, n < 4096 → o.toNat = n → o = BitVec.ofNat 12 n := fun n hn h =>
    BitVec.eq_of_toNat_eq (by rw [BitVec.toNat_ofNat, Nat.mod_eq_of_lt hn, h])
  unfold hostWrite
  split
  · exact .inl rfl
  · next ha =>
    split
    · next h0 =>
      have ho := ofNat_eq _ (by omega) h0
      unfold writeCmd
      cases hb : busy s
      · cases he : s.err
        · exact .inr (.inr (.inr (.inl ⟨ho, rfl, rfl, rfl⟩)))
        · exact .inr (.inr (.inl ⟨ho, rfl, rfl, rfl⟩))
      · exact .inr (.inl ⟨rfl, rfl⟩)
    · split
      · next h8 =>
        have ho := ofNat_eq _ (by omega) h8
        unfold writeCtrl
        cases h0 : v.getLsbD 0
        · cases h1 : v.getLsbD 1
          · exact .inl rfl
          · exact .inr (.inr (.inr (.inr (.inr (.inl ⟨ho, rfl, rfl⟩)))))
        · exact .inr (.inr (.inr (.inr (.inl ⟨ho, rfl, rfl⟩))))
      · split
        · next hi =>
          unfold writeBufWord
          cases hb : busy s
          · exact .inr (.inr (.inr (.inr (.inr (.inr ⟨by omega, hi, rfl, rfl⟩)))))
          · exact .inr (.inl ⟨rfl, rfl⟩)
        · exact .inl rfl

theorem applyEvent_next (e : HostEvent) (s : State) : ∃ t, applyEvent e s = .next t := by
  cases e with
  | write o v => exact ⟨_, rfl⟩
  | read o => exact ⟨_, rfl⟩
  | resetPin => exact ⟨_, rfl⟩
  | coreStep => exact coreStep_next s

theorem step_next (s : State) : ∃ t, step s = .next t := by
  cases h : s.pending with
  | nil => rw [step_nil h]; exact coreStep_next s
  | cons e rest => rw [step_cons h]; exact applyEvent_next _ _

/-! ## Resets and runs -/

theorem vector_get_replicate {α : Type} {n : Nat} (x : α) (r : Fin n) :
    (Vector.replicate n x).get r = x := by
  show (Vector.replicate n x)[r.val] = x
  rw [Vector.getElem_replicate]

/-- A state whose registers, tables and host registers have their reset values is at reset (R410). -/
theorem atReset_of_fields {s : State} (f : s.f = State.reset.f) (sc : s.sc = State.reset.sc)
    (p : s.p = State.reset.p) (k : s.k = State.reset.k) (lut : s.lut = State.reset.lut)
    (nlut : s.nlut = State.reset.nlut) (cmd : s.cmd = 0) (err : s.err = false) (errKind : s.errKind = 0)
    (errCause : s.errCause = 0) (ovf : s.ovf = false) (disc : s.disc = false) (errOp : s.errOp = 0)
    (errCmd : s.errCmd = 0) (cmdCnt : s.cmdCnt = 0) (mem : s.mem = []) (phase : s.phase = .init) :
    AtReset s where
  f r := by rw [State.getF, f]; exact congrArg Fin.val (vector_get_replicate feZero r)
  sc r := by rw [State.getS, sc]; exact congrArg Fin.val (vector_get_replicate (Scalar.ofNat 0) r)
  p r := by rw [State.getP, p]; exact vector_get_replicate _ r
  k r := by rw [State.getK, k]; exact vector_get_replicate _ r
  cmd := cmd
  status := by
    show statusWord s = _
    simp [statusWord, busy, phase, err, errKind, errCause, ovf, disc, errOp]
  ctrl := rfl
  errCmd := errCmd
  cmdCnt := cmdCnt
  id := rfl
  bufDig a := by rw [mem]; rfl
  lut j := by rw [lut]; exact vector_get_replicate _ j
  nlut j := by rw [nlut]; exact vector_get_replicate _ j
  phase := phase

/-- A run has one end (R415). -/
theorem RunEnds.unique {s : State} {m n m' n' : Nat} (h : RunEnds s m n) (h' : RunEnds s m' n') :
    m = m' ∧ n = n' := by
  obtain rfl := le_antisymm (h'.lastCmdWrite m h.cmdWrite) (h.lastCmdWrite m' h'.cmdWrite)
  refine ⟨rfl, le_antisymm (not_lt.1 fun hl => ?_) (not_lt.1 fun hl => ?_)⟩
  · exact h.first n' h'.after hl h'.idleRead
  · exact h'.first n h.after hl h.idleRead

end Sys2Proof.Machine
end

