-- ==== Sys2Proof/Laws/Tables.lean ====
section
/-! SUPPORT. The helpers of 44_scalarmul.md by position: the entries of a table built by a chain, the digit lists of
ED_BMUL, and the digit pairs ED_VTDBL is left with. -/

namespace Sys2Proof.Machine

/-! ## Tables -/

theorem chainTable_get_zero {α : Type} (next : α → α) (t : α) : (chainTable next t).get 0 = t := rfl

/-- Each entry is the successor of the one before it. -/
theorem chainTable_get_succ {α : Type} (next : α → α) (t : α) (j : Fin 7) :
    (chainTable next t).get j.succ = next ((chainTable next t).get j.castSucc) := by
  match j with
  | 0 | 1 | 2 | 3 | 4 | 5 | 6 => rfl

/-- The entries of a chain, as the sequence the chain runs through. -/
theorem chainTable_get {α : Type} {next : α → α} {Q : Nat → α} (h : ∀ i, Q (i + 1) = next (Q i))
    (j : Fin 8) : (chainTable next (Q 0)).get j = Q j.val := by
  induction j using Fin.induction with
  | zero => rfl
  | succ j ih => rw [chainTable_get_succ, ih, Fin.val_succ, h]; rfl

theorem tableAt_eq_get {α : Type} (tab : Vector α 8) {n : Nat} {j : Fin 8} (h : j.val = n) :
    tableAt tab n = tab.get j := by
  subst h
  exact congrArg tab.get (Fin.ext (Nat.mod_eq_of_lt j.isLt))

/-! ## Digit lists -/

/-- A list by its entries. -/
theorem eq_map_getD {α : Type} {l : List α} {n : Nat} (h : l.length = n) (d : α) :
    l = (List.range n).map fun i => l.getD i d :=
  List.ext_getElem (by simp [h]) fun i h1 _ => by simp [h1]

theorem evenDigits_length (l : List Int) : (evenDigits l).length = (l.length + 1) / 2 := by
  induction l using evenDigits.induct with
  | case1 e x rest ih =>
    rw [evenDigits, List.length_cons, ih, List.length_cons, List.length_cons]
    omega
  | case2 l h =>
    match l with
    | [] | [_] => simp [evenDigits]
    | a :: b :: r => exact absurd rfl (h a b r)

theorem oddDigits_length (l : List Int) : (oddDigits l).length = l.length / 2 := by
  induction l using oddDigits.induct with
  | case1 e x rest ih =>
    rw [oddDigits, List.length_cons, ih, List.length_cons, List.length_cons]
    omega
  | case2 l h =>
    match l with
    | [] | [_] => simp [oddDigits]
    | a :: b :: r => exact absurd rfl (h a b r)

theorem evenDigits_getD (l : List Int) (j : Nat) :
    (evenDigits l).getD j 0 = l.getD (2 * j) 0 := by
  induction l using evenDigits.induct generalizing j with
  | case1 e x rest ih =>
    cases j with
    | zero => rfl
    | succ j => rw [evenDigits, List.getD_cons_succ, ih, Nat.mul_succ]; rfl
  | case2 l h =>
    match l with
    | [] => rfl
    | [_] => cases j <;> rfl
    | a :: b :: r => exact absurd rfl (h a b r)

theorem oddDigits_getD (l : List Int) (j : Nat) :
    (oddDigits l).getD j 0 = l.getD (2 * j + 1) 0 := by
  induction l using oddDigits.induct generalizing j with
  | case1 e x rest ih =>
    cases j with
    | zero => rfl
    | succ j => rw [oddDigits, List.getD_cons_succ, ih, Nat.mul_succ]; rfl
  | case2 l h =>
    match l with
    | [] => rfl
    | [_] => cases j <;> rfl
    | a :: b :: r => exact absurd rfl (h a b r)

/-- The sub-tables of BT beside one digit each. -/
theorem zip_eq_map_finRange {α : Type} (T : Vector α 32) {l : List Int} (h : l.length = 32) :
    T.toList.zip l = (List.finRange 32).map fun j => (T.get j, l.getD j.val 0) :=
  List.ext_getElem (by simp [h]) fun i _ _ => by simp [Vector.get, h]

/-- The search of R312 stops at the highest position with a non-zero pair, or at position 0. -/
theorem skipLeadingZeros_eq (f : Nat → Int × Int) {top n : Nat} (hn : top < n)
    (h0 : ∀ i, top < i → f i = (0, 0)) (ht : top = 0 ∨ (f top).1 ≠ 0 ∨ (f top).2 ≠ 0) :
    skipLeadingZeros ((List.range n).reverse.map f) = (List.range (top + 1)).reverse.map f := by
  induction n with
  | zero => omega
  | succ n ih =>
    have key : (List.range (n + 1)).reverse.map f = f n :: (List.range n).reverse.map f := by
      simp [List.range_succ]
    rw [key]
    rcases Nat.lt_or_ge top n with h | h
    · obtain ⟨k, rfl⟩ := Nat.exists_eq_succ_of_ne_zero (Nat.ne_of_gt (Nat.zero_lt_of_lt h))
      rw [← ih h]
      simp [List.range_succ, skipLeadingZeros, h0 _ h]
    · obtain rfl : top = n := by omega
      rw [key]
      cases top with
      | zero => simp [skipLeadingZeros]
      | succ k =>
        have hz : ¬ ((f (k + 1)).1 = 0 ∧ (f (k + 1)).2 = 0) := by
          rcases ht with h | h | h
          · omega
          · exact fun h' => h h'.1
          · exact fun h' => h h'.2
        simp only [List.range_succ, List.reverse_append, List.reverse_singleton, List.singleton_append,
          List.map_cons, skipLeadingZeros, hz, if_false]

end Sys2Proof.Machine
end

