-- ==== Sys2Proof/Tests/Slice0.lean ====
section
/-! SUPPORT. Tests of the model: each command on the example of its rule in 40_ctprim.md to
45_ristretto.md, each encoding, each check of WellFormed, and a witness for the hypotheses of each
statement. Every expected value is the spec's, or found by hand from its rule. -/

namespace Sys2Proof.Tests

open Sys2Proof.Machine

set_option Elab.async false

/-! ## WellFormed: one ill-formed command for each check, beside a well-formed one -/

/-- R104: a half selector is 0 or 1. -/
theorem test_wellFormed_half :
    (Instr.feLoad 0 2).wellFormed = false ∧ (Instr.feLoad 0 1).wellFormed = true := by decide

/-- R103, kind u1. -/
theorem test_wellFormed_u1 :
    (Instr.kSet 0 2).wellFormed = false ∧ (Instr.kSet 0 1).wellFormed = true := by decide

/-- R103, kind fidx. -/
theorem test_wellFormed_fidx :
    (Instr.feConst 0 10).wellFormed = false ∧ (Instr.feConst 0 9).wellFormed = true := by decide

/-- R103, kind sidx. -/
theorem test_wellFormed_sidx :
    (Instr.scConst 0 3).wellFormed = false ∧ (Instr.scConst 0 2).wellFormed = true := by decide

/-- R103, kind pidx. -/
theorem test_wellFormed_pidx :
    (Instr.ptConst 0 5).wellFormed = false ∧ (Instr.ptConst 0 4).wellFormed = true := by decide

/-- R103, kind slot. -/
theorem test_wellFormed_slot :
    (Instr.ptGet 0 0 4).wellFormed = false ∧ (Instr.ptSet 0 0 3).wellFormed = true := by decide

/-- R103, kind tag. -/
theorem test_wellFormed_tag :
    (Instr.ptSettag 0 5).wellFormed = false ∧ (Instr.ptSettag 0 4).wellFormed = true := by decide

/-- R103, kind k. -/
theorem test_wellFormed_k :
    (Instr.edMulpow2 0 0 0).wellFormed = false ∧ (Instr.edMulpow2 0 0 255).wellFormed = true := by
  decide

/-- R103, kind dig8: −9 and 9 against −8 and 8. -/
theorem test_wellFormed_dig8 :
    (Instr.lutSel 0 0xF7).wellFormed = false ∧ (Instr.lutSel 0 9).wellFormed = false ∧
      (Instr.lutSel 0 0xF8).wellFormed = true ∧ (Instr.lutSel 0 8).wellFormed = true := by
  decide

/-- R103, kind odd. -/
theorem test_wellFormed_odd :
    (Instr.nlutSel 0 2).wellFormed = false ∧ (Instr.nlutSel 0 17).wellFormed = false ∧
      (Instr.nlutSel 0 15).wellFormed = true := by
  decide

/-- R105: a sub-table index is 0 to 31. -/
theorem test_wellFormed_t8 :
    (Instr.btSel 0 32 0).wellFormed = false ∧ (Instr.btSel 0 31 0).wellFormed = true := by decide

/-! ## Decoding: the word of every command, as its rule's example writes it out -/

/-- Each word decodes to its command and is that command's encoding. -/
def wordsDecode (l : List (Word × Instr)) : Bool :=
  l.all fun q => decide (decode q.1 = .ok q.2) && decide (encode q.2 = q.1)

def choiceWords : List (Word × Instr) :=
  [(0x00000000, .nop), (0x01000401, .kSet 4 1), (0x00001202, .kNot 2 1), (0x00021303, .kAnd 3 1 2),
   (0x00021304, .kOr 3 1 2), (0x00021305, .kXor 3 1 2), (0x00000006, .bufEq 0),
   (0xFF000107, .bufBit 1 0 255)]

def fieldWords1 : List (Word × Instr) :=
  [(0x00000010, .feLoad 0 0), (0x00100011, .feStore 0 1), (0x00000112, .feMov 1 0),
   (0x05000213, .feConst 2 5), (0x00021314, .feAdd 3 1 2), (0x00021315, .feSub 3 1 2),
   (0x00000116, .feNeg 1 0), (0x00021317, .feMul 3 1 2), (0x00000118, .feSq 1 0),
   (0x00000119, .feSq2 1 0)]

def fieldWords2 : List (Word × Instr) :=
  [(0x0000011A, .feInv 1 0), (0x0000011B, .fePowp58 1 0), (0x0002131C, .feSel 3 1 2 0),
   (0x0000011D, .feIsneg 1 0), (0x0000011E, .feIszero 1 0), (0x0002011F, .feEq 1 0 2),
   (0x00000120, .feCtabs 1 0), (0x00110221, .feSqrtratio 2 0 1 1)]

def scalarWords1 : List (Word × Instr) :=
  [(0x00000030, .scLoad 0 0), (0x00000132, .scLoadwide 1), (0x00100231, .scLoadbits 2 1),
   (0x00100033, .scStore 0 1), (0x00000134, .scMov 1 0), (0x02000335, .scConst 3 2),
   (0x00021036, .scAdd 0 1 2), (0x00021037, .scSub 0 1 2), (0x00021038, .scMul 0 1 2),
   (0x00321039, .scMuladd 0 1 2 3)]

def scalarWords2 : List (Word × Instr) :=
  [(0x0000343A, .scReduce 4 3), (0x0000003C, .scRadix16 0), (0x0000003D, .scNaf5 0),
   (0x0002103B, .scMontmul 0 1 2), (0x0003003E, .scEq 0 0 3)]

def pointWords1 : List (Word × Instr) :=
  [(0x01000040, .ptConst 0 1), (0x00000141, .ptMov 1 0), (0x01000042, .ptGet 0 0 1),
   (0x02001043, .ptSet 0 1 2), (0x03000244, .ptSettag 2 3), (0x00210345, .ptSel 3 0 1 2),
   (0x00000146, .ptNeg 1 0), (0x00000147, .extToProj 1 0), (0x00000148, .extToPn 1 0),
   (0x00000149, .extToAn 1 0)]

def pointWords2 : List (Word × Instr) :=
  [(0x0000124A, .projToExt 2 1), (0x0000014B, .compToProj 1 0), (0x0000014C, .compToExt 1 0),
   (0x0000124D, .pnToExt 2 1), (0x0000124E, .anToExt 2 1), (0x0000124F, .projDbl 2 1),
   (0x00010250, .extAddPn 2 0 1), (0x00010251, .extSubPn 2 0 1), (0x00010252, .extAddAn 2 0 1),
   (0x00010253, .extSubAn 2 0 1)]

def pointWords3 : List (Word × Instr) :=
  [(0x00010254, .edAdd 2 0 1), (0x00010255, .edSub 2 0 1), (0x00000156, .edDbl 1 0),
   (0x03000157, .edMulpow2 1 0 3), (0x00000058, .edDecode 0 0), (0x00100059, .edEncode 0 1),
   (0x0001005A, .edEq 0 0 1), (0x0000015B, .edIsident 1 0), (0x0000015C, .edIssmall 1 0),
   (0x0000015D, .edIstf 1 0)]

def tableWords : List (Word × Instr) :=
  [(0x00000060, .lutBuild 0), (0xFF000161, .lutSel 1 0xFF), (0x00000062, .nlutBuild 0),
   (0x0F000363, .nlutSel 3 15), (0x00000064, .btBuild 0), (0xFD050265, .btSel 2 5 0xFD),
   (0x00000166, .edSmul 1 0 0), (0x00000167, .edBmul 1 0), (0x00110468, .edVtdbl 4 0 1 1)]

def ristrettoWords : List (Word × Instr) :=
  [(0x00000070, .riDecode 0 0), (0x00100071, .riEncode 0 1), (0x00010072, .riEq 0 0 1),
   (0x00000173, .riMap 1 0), (0x00000274, .riFromuni 2)]

theorem test_decode_choiceWords : wordsDecode choiceWords = true := by decide

theorem test_decode_fieldWords1 : wordsDecode fieldWords1 = true := by decide

theorem test_decode_fieldWords2 : wordsDecode fieldWords2 = true := by decide

theorem test_decode_scalarWords1 : wordsDecode scalarWords1 = true := by decide

theorem test_decode_scalarWords2 : wordsDecode scalarWords2 = true := by decide

theorem test_decode_pointWords1 : wordsDecode pointWords1 = true := by decide

theorem test_decode_pointWords2 : wordsDecode pointWords2 = true := by decide

theorem test_decode_pointWords3 : wordsDecode pointWords3 = true := by decide

theorem test_decode_tableWords : wordsDecode tableWords = true := by decide

theorem test_decode_ristrettoWords : wordsDecode ristrettoWords = true := by decide

/-- R112: every field of a word with four operands and of a word with t8 stands at its own place. -/
theorem test_decode_places :
    decode 0x00432121 = .ok (.feSqrtratio 1 2 3 4) ∧ decode 0x05F3A265 = .error .reserved ∧
      decode 0x05F30265 = .ok (.btSel 2 0xF3 5) ∧ decode 0x00A09011 = .ok (.feStore 9 10) := by
  decide

/-- R108, R106: an undefined opcode is named before a non-zero unused field. -/
theorem test_decode_rejects :
    decode 0xFFFFFFFF = .error .opcode ∧ decode 0x00000008 = .error .opcode ∧
      decode 0x00000100 = .error .reserved ∧ decode 0x01000010 = .error .reserved := by
  decide

/-- The host's numbering: bit 0 is the least significant bit of the word. -/
theorem test_decodeTableWord :
    decodeTableWord 32 0x00021314 = some (.feAdd 3 1 2) ∧ decodeTableWord 32 0x08 = none := by decide

/-! ## Commands: the example of each rule, and a second case where the example leaves one open -/

/-- The machine after INIT, idle. -/
def ready : State := endInit State.reset

/-- The state after the command word `w`, issued in `s`, is executed. -/
def run (w : Word) (s : State) : State :=
  match step (s.withFetchWord 32 w.toNat) with
  | .next t => t
  | .fault _ => s
  | .refused _ => s

/-- The content of a point register. -/
def pt (tag : Tag) (s0 s1 s2 s3 : Nat) : Point :=
  ⟨tag, Fe.ofNat s0, Fe.ofNat s1, Fe.ofNat s2, Fe.ofNat s3⟩

/-- The basepoint B of R240 in the representations EXT, PROJ, PN and AN (its Z is 1). -/
def pointB : Point :=
  pt .ext 0x216936d3cd6e53fec0a4e231fdd6dc5c692cc7609525a7b2c9562d608f25d51a
    0x6666666666666666666666666666666666666666666666666666666666666658 1
    0x67875f0fd78b766566ea4e8e64abe37d20f09f80775152f56dde8ab3a5b7dda3

def projB : Point := ⟨.proj, pointB.s0, pointB.s1, pointB.s2, Fe.ofNat 0⟩

def pnB : Point :=
  pt .pn 0x07cf9d3a33d4ba65270b4898643d42c2cf932dc6fb8c0e192fbc93c6f58c3b85
    0x44fd2f9298f81267a5c18434688f8a09fd399f05d140beb39d103905d740913e 1
    0x6f117b689f0c65a85a1b7dcbdd43598c26d9e823ccaac49eabc91205877aaa68

def anB : Point := ⟨.an, pnB.s0, pnB.s1, pnB.s3, Fe.ofNat 0⟩

/-- DIG begins with these bytes and holds 0 from there on. -/
def digRunIs (s : State) (l : List Byte) : Bool :=
  (List.range 256).all fun i => memRead s.mem (0x200 + i) == l.getD i 0

/-- R131, example. -/
theorem test_nop :
    (run 0x00000000 { ready with cmdCnt := 5 }).cmdCnt = 6 := by decide +kernel

/-- R132, example. -/
theorem test_kSet :
    (run 0x01000401 ready).getK 4 = true := by decide +kernel

/-- R133, example. -/
theorem test_kNot :
    (run 0x00001202 ready).getK 2 = true := by decide +kernel

/-- R134, example. -/
theorem test_kAnd :
    (run 0x00021303 (ready.setK 1 true)).getK 3 = false := by decide +kernel

/-- R135, example. -/
theorem test_kOr :
    (run 0x00021304 (ready.setK 1 true)).getK 3 = true := by decide +kernel

/-- R136, example. -/
theorem test_kXor :
    (run 0x00021305 ((ready.setK 1 true).setK 2 true)).getK 3 = false := by decide +kernel

/-- R137, example. -/
theorem test_bufEq :
    (run 0x00000006 ready).getK 0 = true := by decide +kernel

/-- R137: the last byte of half 0 differs. -/
theorem test_bufEq_differs :
    (run 0x00000006 (ready.writeHalf 0
      0x8000000000000000000000000000000000000000000000000000000000000000)).getK 0 = false := by
  decide +kernel

/-- R138, example. -/
theorem test_bufBit :
    (run 0xFF000107 (ready.writeHalf 0
      0x8000000000000000000000000000000000000000000000000000000000000000)).getK 1 = true := by
  decide +kernel

/-- R162, example. -/
theorem test_feLoad :
    ((run 0x00000010 (ready.writeHalf 0 2)).getF 0).val = 2 := by decide +kernel

/-- R160: bit 255 is discarded and p + 1 is reduced. -/
theorem test_feLoad_reduces :
    ((run 0x00000010 (ready.writeHalf 0 (2 ^ 255 + fieldP + 1))).getF 0).val = 1 := by decide +kernel

/-- R163, example. -/
theorem test_feStore :
    (run 0x00100011 (ready.setF 0 (Fe.ofNat (fieldP - 1)))).readHalf 1 =
      0x7fffffffffffffffffffffffffffffffffffffffffffffffffffffffffffffec := by
  decide +kernel

/-- R164, example. -/
theorem test_feMov :
    ((run 0x00000112 (ready.setF 0 (Fe.ofNat 7))).getF 1).val = 7 := by decide +kernel

/-- R165, example. -/
theorem test_feConst :
    ((run 0x05000213 ready).getF 2).val =
      0x2b8324804fc1df0b2b4d00993dfbd7a72f431806ad2fe478c4ee1b274a0ea0b0 := by decide +kernel

/-- R166, example. -/
theorem test_feAdd :
    ((run 0x00021314 ((ready.setF 1 (Fe.ofNat (fieldP - 1))).setF 2 (Fe.ofNat 2))).getF 3).val = 1 := by
  decide +kernel

/-- R167, example. -/
theorem test_feSub :
    ((run 0x00021315 (ready.setF 2 (Fe.ofNat 1))).getF 3).val = fieldP - 1 := by decide +kernel

/-- R168, example. -/
theorem test_feNeg :
    ((run 0x00000116 (ready.setF 0 (Fe.ofNat 1))).getF 1).val = fieldP - 1 := by decide +kernel

/-- R169, example. -/
theorem test_feMul :
    ((run 0x00021317 ((ready.setF 1 (Fe.ofNat (fieldP - 1))).setF 2 (Fe.ofNat (fieldP - 1)))).getF
      3).val = 1 := by
  decide +kernel

/-- R170, example. -/
theorem test_feSq :
    ((run 0x00000118 (ready.setF 0 (Fe.ofNat
      0x2b8324804fc1df0b2b4d00993dfbd7a72f431806ad2fe478c4ee1b274a0ea0b0))).getF 1).val = fieldP - 1 := by
  decide +kernel

/-- R171, example. -/
theorem test_feSq2 :
    ((run 0x00000119 (ready.setF 0 (Fe.ofNat 3))).getF 1).val = 18 := by decide +kernel

/-- R172, example. -/
theorem test_feInv :
    ((run 0x0000011A (ready.setF 0 (Fe.ofNat 2))).getF 1).val =
      0x3ffffffffffffffffffffffffffffffffffffffffffffffffffffffffffffff7 := by decide +kernel

/-- R174, example. -/
theorem test_fePowp58 :
    ((run 0x0000011B (ready.setF 0 (Fe.ofNat 4))).getF 1).val =
      0x15c1924027e0ef8595a6804c9efdebd397a18c035697f23c62770d93a5075058 := by decide +kernel

/-- R175, example. -/
theorem test_feSel :
    ((run 0x0002131C (((ready.setF 1 (Fe.ofNat 5)).setF 2 (Fe.ofNat 9)).setK 0 true)).getF 3).val = 9 := by
  decide +kernel

/-- R176, example. -/
theorem test_feIsneg :
    (run 0x0000011D (ready.setF 0 (Fe.ofNat 1))).getK 1 = true := by decide +kernel

/-- R177, example. -/
theorem test_feIszero :
    (run 0x0000011E ready).getK 1 = true := by decide +kernel

/-- R178, example. -/
theorem test_feEq :
    (run 0x0002011F ((ready.setF 0 (Fe.ofNat 3)).setF 2 (Fe.ofNat 3))).getK 1 = true := by
  decide +kernel

/-- R179, example. -/
theorem test_feCtabs :
    ((run 0x00000120 (ready.setF 0 (Fe.ofNat (fieldP - 2)))).getF 1).val = 2 := by decide +kernel

/-- R182, example. -/
theorem test_feSqrtratio :
    ((run 0x00110221 ((ready.setF 0 (Fe.ofNat 4)).setF 1 (Fe.ofNat 1))).getF 2).val = 2 ∧
      (run 0x00110221 ((ready.setF 0 (Fe.ofNat 4)).setF 1 (Fe.ofNat 1))).getK 1 = true := by
  decide +kernel

/-- R180, row 2: u = 1 and v = 0 give (0, 0), and K1, which held 1, is cleared. -/
theorem test_feSqrtratio_zero :
    ((run 0x00110221 ((ready.setF 0 (Fe.ofNat 1)).setK 1 true)).getF 2).val = 0 ∧
      (run 0x00110221 ((ready.setF 0 (Fe.ofNat 1)).setK 1 true)).getK 1 = false := by decide +kernel

/-- R211, example. -/
theorem test_scLoad :
    ((run 0x00000030 (ready.writeHalf 0 1)).getS 0).val = 1 := by decide +kernel

/-- R211: ℓ raises InvalidEncoding(SCALAR_NONCANONICAL). -/
theorem test_scLoad_noncanonical :
    (run 0x00000030 (ready.writeHalf 0 groupL)).errKind = 1 ∧
      (run 0x00000030 (ready.writeHalf 0 groupL)).errCause = 1 := by decide +kernel

/-- R212, example. -/
theorem test_scLoadwide :
    ((run 0x00000132 ((ready.writeHalf 0 (2 ^ 256 - 1)).writeHalf 1 (2 ^ 256 - 1))).getS 1).val =
      0x0399411b7c309a3dceec73d217f5be65d00e1ba768859347a40611e3449c0f00 := by decide +kernel

/-- R213, example. -/
theorem test_scLoadbits :
    ((run 0x00100231 (ready.writeHalf 1 (2 ^ 256 - 1))).getS 2).val = 2 ^ 255 - 1 := by decide +kernel

/-- R214, example. -/
theorem test_scStore :
    (run 0x00100033 (ready.setS 0 (Scalar.ofNat 1))).readHalf 1 = 1 := by decide +kernel

/-- R215, example. -/
theorem test_scMov :
    ((run 0x00000134 (ready.setS 0 (Scalar.ofNat 9))).getS 1).val = 9 := by decide +kernel

/-- R216, example. -/
theorem test_scConst :
    ((run 0x02000335 ready).getS 3).val =
      2 ^ 252 + 27742317777372353535851937790883648493 := by decide +kernel

/-- R217, example. -/
theorem test_scAdd :
    ((run 0x00021036 ((ready.setS 1 (Scalar.ofNat (groupL - 1))).setS 2 (Scalar.ofNat 1))).getS 0).val
      = 0 := by
  decide +kernel

/-- R218, example. -/
theorem test_scSub :
    ((run 0x00021037 (ready.setS 2 (Scalar.ofNat 1))).getS 0).val = groupL - 1 := by decide +kernel

/-- R219, example. -/
theorem test_scMul :
    ((run 0x00021038 ((ready.setS 1 (Scalar.ofNat 2)).setS 2
      (Scalar.ofNat ((groupL + 1) / 2)))).getS 0).val = 1 := by decide +kernel

/-- R220, example. -/
theorem test_scMuladd :
    ((run 0x00321039 (((ready.setS 1 (Scalar.ofNat 2)).setS 2 (Scalar.ofNat 3)).setS 3
      (Scalar.ofNat 4))).getS 0).val = 10 := by decide +kernel

/-- R221, example. -/
theorem test_scReduce :
    ((run 0x0000343A (ready.setS 3 (Scalar.ofNat groupL))).getS 4).val = 0 := by decide +kernel

/-- R222, example. -/
theorem test_scRadix16 :
    digRunIs (run 0x0000003C (ready.setS 0 (Scalar.ofNat 8))) [0xF8, 0x01] = true := by decide +kernel

/-- R224, example. -/
theorem test_scNaf5 :
    digRunIs (run 0x0000003D (ready.setS 0 (Scalar.ofNat 31))) [0xFF, 0, 0, 0, 0, 0x01] = true := by
  decide +kernel

/-- R226, example. -/
theorem test_scMontmul :
    ((run 0x0002103B ((ready.setS 1 (Scalar.ofNat 1)).setS 2 (Scalar.ofNat 1))).getS 0).val =
      0x064edb637937f48c1b0a73aa1c7fd1b5fd934be6d1d6d67ac7421b8f04c727e2 := by decide +kernel

/-- R227, example: 0 and ℓ are different stored integers. -/
theorem test_scEq :
    (run 0x0003003E ((ready.setS 3 (Scalar.ofNat groupL)).setK 0 true)).getK 0 = false := by
  decide +kernel

/-- R240, example. -/
theorem test_ptConst :
    (run 0x01000040 ready).getP 0 = pointB := by decide +kernel

/-- R241, example. -/
theorem test_ptMov :
    (run 0x00000141 (ready.setP 0 pointB)).getP 1 = pointB := by decide +kernel

/-- R242, example. -/
theorem test_ptGet :
    (run 0x01000042 (ready.setP 0 pointB)).getF 0 = pointB.s1 := by decide +kernel

/-- R243, example. -/
theorem test_ptSet :
    (run 0x02001043 ((ready.setP 0 pointB).setF 1 (Fe.ofNat 2))).getP 0 =
      ⟨.ext, pointB.s0, pointB.s1, Fe.ofNat 2, pointB.s3⟩ := by decide +kernel

/-- R244, example: the slots stay. -/
theorem test_ptSettag :
    (run 0x03000244 ready).getP 2 = pt .pn 0 1 1 0 := by decide +kernel

/-- R245, example. -/
theorem test_ptSel :
    (run 0x00210345 ((ready.setP 1 pointB).setK 2 true)).getP 3 = pointB := by decide +kernel

/-- R245: two different tags raise InvalidArgument(TAG). -/
theorem test_ptSel_tag :
    (run 0x00210345 (ready.setP 1 (pt .pn 0 1 1 0))).errCause = 4 := by decide +kernel

/-- R246, example. -/
theorem test_ptNeg :
    edCompress ((run 0x00000146 (ready.setP 0 pointB)).getP 1).asExt =
      0xe666666666666666666666666666666666666666666666666666666666666658 := by decide +kernel

/-- R246: the AN case swaps y + x and y − x. -/
theorem test_ptNeg_an :
    (run 0x00000146 (ready.setP 0 (pt .an 5 3 7 0))).getP 1 =
      ⟨.an, Fe.ofNat 3, Fe.ofNat 5, Fe.ofNat (fieldP - 7), Fe.ofNat 0⟩ := by decide +kernel

/-- R247, example. -/
theorem test_extToProj :
    (run 0x00000147 ready).getP 1 = pt .proj 0 1 1 0 := by decide +kernel

/-- R248, example. -/
theorem test_extToPn :
    (run 0x00000148 (ready.setP 0 pointB)).getP 1 =
      pt .pn 0x07cf9d3a33d4ba65270b4898643d42c2cf932dc6fb8c0e192fbc93c6f58c3b85
        0x44fd2f9298f81267a5c18434688f8a09fd399f05d140beb39d103905d740913e
        1 0x6f117b689f0c65a85a1b7dcbdd43598c26d9e823ccaac49eabc91205877aaa68 := by decide +kernel

/-- R249, example. -/
theorem test_extToAn :
    (run 0x00000149 (ready.setP 0 pointB)).getP 1 =
      pt .an 0x07cf9d3a33d4ba65270b4898643d42c2cf932dc6fb8c0e192fbc93c6f58c3b85
        0x44fd2f9298f81267a5c18434688f8a09fd399f05d140beb39d103905d740913e
        0x6f117b689f0c65a85a1b7dcbdd43598c26d9e823ccaac49eabc91205877aaa68 0 := by decide +kernel

/-- R250, example. -/
theorem test_projToExt :
    (run 0x0000124A (ready.setP 1 (pt .proj 0 1 1 0))).getP 2 = pt .ext 0 1 1 0 := by decide +kernel

/-- R251, example. -/
theorem test_compToProj :
    (run 0x0000014B (ready.setP 0 (pt .comp 0 1 1 1))).getP 1 = pt .proj 0 1 1 0 := by decide +kernel

/-- R251: (X·T, Y·Z, Z·T) tells the four slots apart. -/
theorem test_compToProj_slots :
    (run 0x0000014B (ready.setP 0 (pt .comp 2 3 5 7))).getP 1 = pt .proj 14 15 35 0 := by decide +kernel

/-- R252, example. -/
theorem test_compToExt :
    (run 0x0000014C (ready.setP 0 (pt .comp 0 1 1 1))).getP 1 = pt .ext 0 1 1 0 := by decide +kernel

/-- R252: (X·T, Y·Z, Z·T, X·Y) tells the four slots apart. -/
theorem test_compToExt_slots :
    (run 0x0000014C (ready.setP 0 (pt .comp 2 3 5 7))).getP 1 = pt .ext 14 15 35 6 := by decide +kernel

/-- R253, example: Z = 4 and the point is B. -/
theorem test_pnToExt :
    ((run 0x0000124D (ready.setP 1 (run 0x00000148 (ready.setP 0 pointB) |>.getP 1))).getP 2).s2 =
      Fe.ofNat 4 := by
  decide +kernel

/-- R254, example. -/
theorem test_anToExt :
    edCompress ((run 0x0000124E (ready.setP 1 anB)).getP 2).asExt =
      0x6666666666666666666666666666666666666666666666666666666666666658 := by decide +kernel

/-- R255, example. -/
theorem test_projDbl :
    edCompress (compToExt ((run 0x0000124F (ready.setP 1 projB)).getP 2).asComp) =
      0x2260cdf3092329c21da25ee8c9a21f5697390f51643851560e5f46ae6af8a3c9 := by decide +kernel

/-- R256, example. -/
theorem test_extAddPn :
    edCompress (compToExt ((run 0x00010250 ((ready.setP 0 pointB).setP 1 pnB)).getP 2).asComp) =
      0x2260cdf3092329c21da25ee8c9a21f5697390f51643851560e5f46ae6af8a3c9 := by decide +kernel

/-- R257, example. -/
theorem test_extSubPn :
    edIsident (compToExt ((run 0x00010251 ((ready.setP 0 pointB).setP 1 pnB)).getP 2).asComp) = true := by
  decide +kernel

/-- R258, example. -/
theorem test_extAddAn :
    edCompress (compToExt ((run 0x00010252 ((ready.setP 0 pointB).setP 1 anB)).getP 2).asComp) =
      0x2260cdf3092329c21da25ee8c9a21f5697390f51643851560e5f46ae6af8a3c9 := by decide +kernel

/-- R259, example. -/
theorem test_extSubAn :
    edIsident (compToExt ((run 0x00010253 ((ready.setP 0 pointB).setP 1 anB)).getP 2).asComp) = true := by
  decide +kernel

/-- R260, example. -/
theorem test_edAdd :
    edCompress ((run 0x00010254 ((ready.setP 0 pointB).setP 1 pointB)).getP 2).asExt =
      0x2260cdf3092329c21da25ee8c9a21f5697390f51643851560e5f46ae6af8a3c9 := by decide +kernel

/-- R261, example. -/
theorem test_edSub :
    edIsident ((run 0x00010255 ((ready.setP 0 pointB).setP 1 pointB)).getP 2).asExt = true := by
  decide +kernel

/-- R262, example. -/
theorem test_edDbl :
    (run 0x00000156 (ready.setP 0 pointB)).getP 1 =
      pt .ext 0x4edbe2246583dab515ddb478484f06f677913e22058e9da4854579b3e7cff596
        0x4cdb67b39336cc2496487d03c536ae09f5b85599d441cde36db4d326a1d28016
        0x16793a8694a883a8bf672e05c4bd9d6d142c9effcc6d662e9c8b56c2fd872182
        0x67db82368b4a636abf1ba9bfb75781f05c9d2540120f44e6f14cb1f8e4b2b654 := by decide +kernel

/-- R263, example. -/
theorem test_edMulpow2 :
    edCompress ((run 0x03000157 (ready.setP 0 pointB)).getP 1).asExt =
      0x21d30600c9e573796ead6f09668af38f81783cfc621ee4931e2f5ba9fc37b9b4 := by decide +kernel

/-- R263: k = 0 raises InvalidArgument(EXPONENT). -/
theorem test_edMulpow2_zero :
    (run 0x00000157 ready).errCause = 6 := by decide +kernel

/-- R264, example. -/
theorem test_edDecode :
    (run 0x00000058 (ready.writeHalf 0
      0x6666666666666666666666666666666666666666666666666666666666666658)).getP 0 = pointB := by
  decide +kernel

/-- R265, example. -/
theorem test_edEncode :
    (run 0x00100059 (ready.setP 0 pointB)).readHalf 1 =
      0x6666666666666666666666666666666666666666666666666666666666666658 := by decide +kernel

/-- R266, example. -/
theorem test_edEq :
    (run 0x0001005A ((ready.setP 0 pointB).setP 1 (Point.ofExt (pnToExt pnB.asPn)))).getK 0 = true := by
  decide +kernel

/-- R266: B and the identity differ. -/
theorem test_edEq_differs :
    (run 0x0001005A ((ready.setP 0 pointB).setK 0 true)).getK 0 = false := by decide +kernel

/-- R267, example. -/
theorem test_edIsident :
    (run 0x0000015B ready).getK 1 = true := by decide +kernel

/-- R268, example. -/
theorem test_edIssmall :
    (run 0x0000015C ready).getK 1 = true := by decide +kernel

/-- R268: B gives 0. -/
theorem test_edIssmall_B :
    (run 0x0000015C ((ready.setP 0 pointB).setK 1 true)).getK 1 = false := by decide +kernel

/-- R269, example. -/
theorem test_edIstf :
    (run 0x0000015D (ready.setP 0 pointB)).getK 1 = true := by decide +kernel

/-- R300, example: LUT[0]. -/
theorem test_lutBuild :
    Point.ofPn ((run 0x00000060 (ready.setP 0 pointB)).lut.get 0) =
      pt .pn 0x07cf9d3a33d4ba65270b4898643d42c2cf932dc6fb8c0e192fbc93c6f58c3b85
        0x44fd2f9298f81267a5c18434688f8a09fd399f05d140beb39d103905d740913e
        1 0x6f117b689f0c65a85a1b7dcbdd43598c26d9e823ccaac49eabc91205877aaa68 := by decide +kernel

/-- R300, example: LUT[2] is 3B. -/
theorem test_lutBuild_third :
    edCompress (pnToExt ((run 0x00000060 (ready.setP 0 pointB)).lut.get 2)) =
      0x1267b1d177ee69aba126a18e60269ef79f16ec176724030402c3684878f5b4d4 := by decide +kernel

/-- R301, example. -/
theorem test_lutSel :
    (run 0xFF000161 (run 0x00000060 (ready.setP 0 pointB))).getP 1 =
      pt .pn 0x44fd2f9298f81267a5c18434688f8a09fd399f05d140beb39d103905d740913e
        0x07cf9d3a33d4ba65270b4898643d42c2cf932dc6fb8c0e192fbc93c6f58c3b85
        1 0x10ee849760f39a57a5e4823422bca673d92617dc33553b615436edfa78855585 := by decide +kernel

/-- R301: −9 raises InvalidArgument(INDEX). -/
theorem test_lutSel_index :
    (run 0xF7000161 ready).errCause = 5 := by decide +kernel

/-- R302, example: NLUT[7] is 15B. -/
theorem test_nlutBuild :
    edCompress (pnToExt ((run 0x00000062 (ready.setP 0 pointB)).nlut.get 7)) =
      0x92cbfb2d04ff22f55162f70164d29331ace5af18a19a9aa1946d4cc4ad2e5cdf := by decide +kernel

/-- R303, example. -/
theorem test_nlutSel :
    (run 0x0F000363 (run 0x00000062 (ready.setP 0 pointB))).getP 3 =
      Point.ofPn ((run 0x00000062 (ready.setP 0 pointB)).nlut.get 7) := by decide +kernel

/-- R303: an even index raises InvalidArgument(INDEX). -/
theorem test_nlutSel_even :
    (run 0x02000363 ready).errCause = 5 := by decide +kernel

/-- R304, example: BT[1][0] is 256B. -/
theorem test_btBuild :
    edCompress (anToExt (((run 0x00000064 (ready.setP 0 pointB)).bt.get 1).get 0)) =
      0xf55755c51f102796bf5ebaa81d3260e7d1b3d9ac127d9a80e142031566cf6c7 := by decide +kernel

/-- R306, example. -/
theorem test_btSel :
    (run 0xFD050265 ready).getP 2 =
      pt .an 0x428bd0ed61d0cf53a9c0c1b4fb68c677ae153d50948240bddca6422c6d260417
        0x3593ca848190ca44a88dec86620bda18cdae007a1ab32a999b0c84186760cc93
        0x58c67cf725d29c1973adaba4ac02442e2b273cca9a2705326dece765a17b6546 0 := by decide +kernel

/-- R306: sub-table 32 raises InvalidArgument(INDEX). -/
theorem test_btSel_index :
    (run 0x00200265 ready).errCause = 5 := by decide +kernel

/-- R310, example. -/
theorem test_edSmul :
    edCompress ((run 0x00000166 ((ready.setP 0 pointB).setS 0 (Scalar.ofNat 2))).getP 1).asExt =
      0x2260cdf3092329c21da25ee8c9a21f5697390f51643851560e5f46ae6af8a3c9 := by decide +kernel

/-- R311, example. -/
theorem test_edBmul :
    edCompress ((run 0x00000167 (ready.setS 0 (Scalar.ofNat 1))).getP 1).asExt =
      0x6666666666666666666666666666666666666666666666666666666666666658 := by decide +kernel

/-- R311, example: scalar 0, slot for slot. -/
theorem test_edBmul_zero :
    (run 0x00000167 ready).getP 1 =
      pt .ext 0 0x6ce8a5cd60f448148be60ac3df121f85df5c43946af53fc6b9d1742caff18a80
        0x6ce8a5cd60f448148be60ac3df121f85df5c43946af53fc6b9d1742caff18a80 0 := by decide +kernel

/-- R312, example. -/
theorem test_edVtdbl :
    edCompress ((run 0x00110468 (((ready.setS 0 (Scalar.ofNat 2)).setP 1 pointB).setS 1
      (Scalar.ofNat 3))).getP 4).asExt =
      0xdf4825b298feae6fe02c6e148992466631282eca89430b5d10d21f83d676c8ed := by decide +kernel

/-- R340, example. -/
theorem test_riDecode :
    (run 0x00000070 (ready.writeHalf 0
      0x762d8de04559a6b68ddd82a56a0be3585f5100c561a984a8714ebc6a0aaef2e2)).getP 0 =
      pt .ext 0x1063e2cc8cfe80c3dd5bff856803537a40971ffaa8a67c6c2f4183e0918de5d2
        0x159a6849e44c3c7f061b3d570fc4ed5b5d14c8ba4253df49cc7edf80f533ad9b
        1 0x1878a0f02874899a9915b1719b541c82df0f607f88aead0a9221754c5a48224a := by decide +kernel

/-- R341, example. -/
theorem test_riEncode :
    (run 0x00100071 (ready.setP 0 pointB)).readHalf 1 =
      0x762d8de04559a6b68ddd82a56a0be3585f5100c561a984a8714ebc6a0aaef2e2 := by decide +kernel

/-- R342: B equals itself, and 2B is another element. -/
theorem test_riEq :
    (run 0x00010072 ((ready.setP 0 pointB).setP 1 pointB)).getK 0 = true ∧
      (run 0x00010072 ((ready.setP 0 pointB).setP 1 (Point.ofExt (edDbl basepoint)))).getK 0 = false := by
  decide +kernel

/-- R343, example. -/
theorem test_riMap :
    (run 0x00000173 (ready.setF 0 (Fe.ofNat 1))).getP 1 =
      pt .ext 0x44cfff4dec3bacd03d63c24f5706d5befcff2c3b10134d163eac8494dd64780b
        0x2906c73a2eec7d7528174acf89d4bc7d93b21b703f662dc53d5c73eaef2c7e82
        0x6694a489caf8e624b9de2270d78ae07171db64b7961f89bb5c736bf60b966487
        0x28a075ec880ef4684be049cdc8f277a452a374124a00e223dde60aa97abcad5b := by decide +kernel

/-- R344, example. -/
theorem test_riFromuni :
    riCompress ((run 0x00000274 ((ready.writeHalf 0
      0xc172c74d8bfebf545b2b3eca069ed9791970350e49128153fc820c3d9ee01b5d).writeHalf 1
      0xb65bfedf478b660577caea796c30903756161cc66c432ca35cfbbba196b6984d)).getP 2).asExt =
      0x460a4af450fe6df819a8e6ffbb048f1a535843f140170d12457d741a2af86630 := by decide +kernel

/-! ## Further tests -/

/-- A content with x = 1 and y = 3 that is no point of the curve and breaks XY = ZT. -/
def offCurve : State := ready.setP 0 (pt .ext 2 6 2 5)

/-- R265 on it, by hand: y, with bit 255 set because x is odd. -/
theorem test_edEncode_offCurve : (run 0x00000059 offCurve).readHalf 0 = 3 + 2 ^ 255 := by
  decide +kernel

/-- An input of RI_MAP with Dn = 0 (R343). -/
def mapZero : Fe := Fe.ofNat 0x05b35558f47beb977534549973eb6e15cdbca92d0eea6daa75302acb4a5c1ba8

/-- V28: RI_MAP where Dn = 0. -/
theorem test_riMap_dnZero :
    (run 0x00000173 (ready.setF 0 mapZero)).getP 1 =
      pt .ext 0 0x524a82b4705d433d4f9a061221b0d5c74d890678d65961a7c70804fee59c5352
        0x524a82b4705d433d4f9a061221b0d5c74d890678d65961a7c70804fee59c5352 0 := by
  decide +kernel

/-- R206 and the last rows for SC_MONTMUL in 95_test_vectors.md: 1 in Montgomery form is R mod ℓ, and
back. -/
theorem test_montgomeryForm :
    toMontgomery 1 = montRModL ∧ fromMontgomery montRModL = 1 ∧
      montgomeryProduct 3 0x0aaaaaaaaaaaaaaaaaaaaaaaaaaaaaaab894a6946ca51339900c4211934e8d49 = 1 := by
  decide +kernel

/-- From reset: INIT ends, NOP is written to CMD, STATUS is read while BUSY, the command completes,
STATUS is read,
BUF is written, STATUS is read again; a reset and another run follow. -/
def oneRun : State :=
  { State.reset with
    pending := [.coreStep, .write 0x000 0, .read 0x004, .coreStep, .read 0x004, .write 0x100 5,
      .read 0x004, .resetPin, .write 0x000 1] }

/-- R415: the run ends at its first read of STATUS that returns BUSY = 0, event 4, and nowhere else. -/
theorem test_runEnds : RunEnds oneRun 1 4 where
  fromReset := by apply atReset_of_fields <;> rfl
  cmdWrite := ⟨0, rfl⟩
  lastCmdWrite := by
    rintro k ⟨v, hv⟩
    match k with
    | 0 | 1 => decide
    | 2 | 3 | 4 | 5 | 6 | _ + 7 => cases hv
  after := by decide
  idleRead := ⟨rfl, rfl⟩
  first := by
    rintro k h1 h2 ⟨hr, hb⟩
    match k with
    | 2 | 3 => cases hr <;> cases hb
    | 0 | 1 => omega
    | _ + 4 => omega

/-- The read after the BUF write (event 6) ends no run. -/
theorem test_runEnds_once : ¬ ∃ m, RunEnds oneRun m 6 :=
  fun ⟨_, h⟩ => absurd (h.unique test_runEnds).2 (by decide)

/-- R415: what is observed at the end: CMDCNT is 1, STATUS is 0, and BUF is as before the later write. -/
theorem test_runObserves :
    RunObserves oneRun (observe (stateAfter 4 oneRun)) ∧ (observe (stateAfter 4 oneRun)).cmdCnt = 1 ∧
      (observe (stateAfter 4 oneRun)).status = 0 ∧
      (observe (stateAfter 4 oneRun)).buf = List.replicate 16 0 :=
  ⟨⟨1, 4, test_runEnds, rfl⟩, by decide +kernel, by decide +kernel, by decide +kernel⟩

/-! ## Witnesses: for each statement, states and operands that meet its hypotheses -/

/-- The machine while it executes the command word `w`. -/
def executing (w : Word) : State := accept w ready

/-- An idle machine whose last command raised InvalidArgument(OPCODE). -/
def failed : State := raiseError 0x000000FF .opcode ready

/-- The machine with these events still to come. -/
def facing (e : List HostEvent) (s : State) : State := { s with pending := e }

/-- R412, R42, R377: INIT ends, a CMD write is accepted and the command completes. -/
theorem test_issue :
    (match step (facing [.coreStep, .write 0x000 0x01000401, .coreStep] State.reset) with
    | .next a =>
      match step a with
      | .next b =>
        match step b with
        | .next c => c.getK 4 && c.cmdCnt == 1 && c.phase == .idle && !b.getK 4 && busy b
        | .fault _ => false
        | .refused _ => false
      | .fault _ => false
      | .refused _ => false
    | .fault _ => false
    | .refused _ => false) = true := by
  decide

/-- R43: STATUS after InvalidArgument(OPCODE) raised by the word 0xFF: ERR, ERRKIND 2, ERRCAUSE 1, ERROP. -/
theorem test_status_of_error : statusWord failed = 0x00FF001A := by decide

/-- R75, R80: a BUF write is little-endian. -/
theorem test_buf_write :
    (hostWrite 0x104 0x04030201 ready).mem = [(0x104, 1), (0x105, 2), (0x106, 3), (0x107, 4)] := by
  decide

theorem witness_EncodeOfDecodeIsTheWord : decode 0x00321039 = .ok (.scMuladd 0 1 2 3) := by decide

/-- The ends of each range of R108. -/
theorem witness_UndefinedOpcodeRaisesOpcode :
    (executing 0xFFFFFFFF).phase = .exec 0xFFFFFFFF ∧ (executing 0xFFFFFFFF).pending = [] ∧
      [0x08, 0x0F, 0x22, 0x2F, 0x3F, 0x5E, 0x5F, 0x69, 0x6F, 0x75, 0xFF].all undefinedOpcode = true ∧
      [0x07, 0x10, 0x21, 0x30, 0x3E, 0x40, 0x5D, 0x60, 0x68, 0x70, 0x74].any undefinedOpcode
        = false := by
  decide

theorem witness_UndefinedOpcodeRaisesOpcode_event :
    (facing [.coreStep] (executing 0x75)).phase = .exec 0x75 ∧
      (facing [.coreStep] (executing 0x75)).pending = .coreStep :: [] ∧
      undefinedOpcode ((0x75 : Word).toNat % 256) = true := by
  decide

/-- One unused field of each place: d, a, b, c and imm. -/
theorem witness_NonzeroUnusedFieldRaisesReserved :
    (executing 0x01000014).phase = .exec 0x01000014 ∧
      (⟨0x14, [bitsC, bitsImm]⟩ : OpcodeRow) ∈ opcodeRows ∧ bitsImm.of 0x01000014 ≠ 0 ∧
      bitsC.of 0x00100014 ≠ 0 ∧
      (⟨0x11, [bitsD, bitsB, bitsImm]⟩ : OpcodeRow) ∈ opcodeRows ∧ bitsD.of 0x00000111 ≠ 0 ∧
      bitsB.of 0x00010011 ≠ 0 ∧
      (⟨0x65, [bitsA]⟩ : OpcodeRow) ∈ opcodeRows ∧ bitsA.of 0x00001065 ≠ 0 := by
  decide

theorem witness_StepExecutesTheDecodedCommand :
    (executing 0x00021314).phase = .exec 0x00021314 ∧
      decode 0x00021314 = .ok (.feAdd 3 1 2) ∧ (executing 0x00021314).pending = [] ∧
      (facing [.coreStep, .read 0x004] (executing 0x00021314)).pending =
        .coreStep :: [.read 0x004] := by
  decide

/-- A command that passes its checks, and one first failure of each cause at the end of its range; where two
checks fail, the earlier one is named. -/
theorem witness_CommandCompletesExactlyWhenItsChecksPass :
    firstFailure ready (.kSet 4 1) = none ∧ firstFailure ready (.kSet 4 2) = some errField ∧
      firstFailure ready (.edEncode 0 1) = none ∧ firstFailure ready (.edEncode 0 2) = some errField ∧
      firstFailure ready (.extToPn 0 0) = none ∧ firstFailure ready (.pnToExt 0 0) = some errTag ∧
      firstFailure ready (.edMulpow2 0 0 1) = none ∧
      firstFailure ready (.edMulpow2 0 0 0) = some errExponent ∧
      firstFailure ready (.lutSel 0 0x08) = none ∧ firstFailure ready (.lutSel 0 0xF8) = none ∧
      firstFailure ready (.lutSel 0 0x09) = some errIndex ∧
      firstFailure ready (.lutSel 0 0xF7) = some errIndex ∧
      firstFailure ready (.nlutSel 0 15) = none ∧ firstFailure ready (.nlutSel 0 16) = some errIndex ∧
      firstFailure ready (.nlutSel 0 17) = some errIndex ∧
      firstFailure ready (.btSel 0 31 8) = none ∧ firstFailure ready (.btSel 0 32 8) = some errIndex ∧
      firstFailure (ready.setP 0 pnB) (.edEncode 0 2) = some errField ∧
      firstFailure (ready.setP 0 pnB) (.edMulpow2 0 0 0) = some errTag := by
  decide +kernel

/-- The data checks, at both sides of their bounds. -/
theorem witness_CommandCompletesExactlyWhenItsChecksPass_data :
    firstFailure (ready.writeHalf 0 (groupL - 1)) (.scLoad 0 0) = none ∧
      firstFailure (ready.writeHalf 0 groupL) (.scLoad 0 0) = some errScalarNoncanonical ∧
      firstFailure (ready.writeHalf 0 (2 ^ 255 - 1)) (.scLoad 0 0) = some errScalarNoncanonical ∧
      firstFailure (ready.writeHalf 0 (2 ^ 255)) (.scLoad 0 0) = some errScalarHighBit ∧
      firstFailure (ready.writeHalf 0 1) (.edDecode 0 0) = none ∧
      firstFailure (ready.writeHalf 0 2) (.edDecode 0 0) = some errEdwardsNotSquare ∧
      firstFailure (ready.writeHalf 0 0) (.riDecode 0 0) = none ∧
      firstFailure (ready.writeHalf 0 fieldP) (.riDecode 0 0) = some errRistrettoNoncanonicalOrNeg ∧
      firstFailure (ready.writeHalf 0 1) (.riDecode 0 0) = some errRistrettoNoncanonicalOrNeg ∧
      firstFailure (ready.writeHalf 0 2) (.riDecode 0 0) = some errRistrettoInvalid := by
  decide +kernel

theorem ready_inv : ready.Inv where
  memWf := rfl
  memInside := fun _ h => absurd h List.not_mem_nil
  cmdHeld := fun _ h => Phase.noConfusion h
  errIdle := fun h => Bool.noConfusion h
  noRecord := fun _ => ⟨rfl, rfl, rfl, rfl⟩
  record := fun h => Bool.noConfusion h
  discErr := fun h => Bool.noConfusion h

theorem executing_inv (w : Word) : (executing w).Inv where
  memWf := rfl
  memInside := fun _ h => absurd h List.not_mem_nil
  cmdHeld := fun _ h => Phase.exec.inj h
  errIdle := fun h => Bool.noConfusion h
  noRecord := fun _ => ⟨rfl, rfl, rfl, rfl⟩
  record := fun h => Bool.noConfusion h
  discErr := fun h => Bool.noConfusion h

/-- A step that completes a command, from a state with the invariant. -/
theorem witness_EveryStepKeepsTheInvariant :
    (executing 0).Inv ∧ step (executing 0) = .next (commit (executing 0)) :=
  ⟨executing_inv 0, rfl⟩

theorem witness_EveryResetGivesTheResetState :
    (facing [.resetPin] (executing 0)).pending = .resetPin :: [] ∧
      (facing [.write 0x008 3, .coreStep] failed).pending = .write 0x008 3 :: [.coreStep] ∧
      (3 : Word).getLsbD 0 = true := by
  decide

/-- The first and the last word of BUF. -/
theorem witness_InitialisationBuildsTheBasepointTable :
    State.reset.phase = .init ∧ State.reset.pending = [] ∧
      (facing [.coreStep] State.reset).phase = .init ∧
      (facing [.write 0x000 0] State.reset).pending = .write 0x000 0 :: [] ∧
      (facing [.write 0x100 7] State.reset).pending = .write 0x100 7 :: [] ∧
      (0x100 : Offset).toNat % 4 = 0 ∧ 0x100 ≤ (0x100 : Offset).toNat ∧
      (0x13C : Offset).toNat % 4 = 0 ∧ (0x13C : Offset).toNat < 0x140 := by
  decide

theorem witness_CmdWriteDoesOneOfThreeThings :
    busy (facing [.write 0x000 7] (executing 0)) = true ∧
      (busy (facing [.write 0x000 7] failed) = false ∧
        (facing [.write 0x000 7] failed).err = true) ∧
      busy (facing [.write 0x000 7] ready) = false ∧ (facing [.write 0x000 7] ready).err = false ∧
      (facing [.write 0x000 7] ready).pending = .write 0x000 7 :: [] := by
  decide

theorem witness_CtrlWriteResetsOrClearsTheRecord :
    (facing [.write 0x008 3] failed).pending = .write 0x008 3 :: [] ∧
      (3 : Word).getLsbD 0 = true ∧
      (2 : Word).getLsbD 0 = false ∧ (2 : Word).getLsbD 1 = true ∧
      (0xFFFFFFFC : Word).getLsbD 0 = false ∧ (0xFFFFFFFC : Word).getLsbD 1 = false := by
  decide

/-- Offsets at both ends of each range of the window map (R72). -/
theorem witness_HostReadAnswersAndChangesNothing :
    (facing [.read 0x004] ready).pending = .read 0x004 :: [] ∧ busy ready = false ∧
      (0x003 : Offset).toNat % 4 ≠ 0 ∧
      ([0x018, 0x0FC, 0x140, 0x1FC, 0x300, 0xFFC] : List Offset).all (fun o =>
        decide (o.toNat % 4 = 0) && (decide (0x018 ≤ o.toNat ∧ o.toNat < 0x100) ||
          decide (0x140 ≤ o.toNat ∧ o.toNat < 0x200) || decide (0x300 ≤ o.toNat))) = true ∧
      ([0x100, 0x13C, 0x200, 0x2FC] : List Offset).all (fun o =>
        decide (o.toNat % 4 = 0) && (decide (0x100 ≤ o.toNat ∧ o.toNat < 0x140) ||
          decide (0x200 ≤ o.toNat ∧ o.toNat < 0x300))) = true := by
  decide

theorem witness_BufWriteStoresFourBytes :
    (facing [.write 0x13C 0x04030201] ready).pending = .write 0x13C 0x04030201 :: [] ∧
      (0x13C : Offset).toNat % 4 = 0 ∧ 0x100 ≤ (0x13C : Offset).toNat ∧
      (0x13C : Offset).toNat < 0x140 ∧
      busy ready = false ∧ Memory.wf ready.mem = true ∧ busy (executing 0) = true := by
  decide

/-- A misaligned offset, each kind of ignored register, and both sides of BUF and DIG. -/
theorem witness_OtherHostWritesAreIgnored :
    (facing [.write 0x200 1] ready).pending = .write 0x200 1 :: [] ∧
      (0x102 : Offset).toNat % 4 ≠ 0 ∧
      ([0x004, 0x00C, 0x010, 0x014, 0x018, 0x0FC, 0x140, 0x200, 0x2FC, 0xFFC] : List Offset).all
        (fun o => decide (o ≠ 0x000) && decide (o ≠ 0x008) &&
          (decide (o.toNat < 0x100) || decide (0x140 ≤ o.toNat))) = true := by
  decide

theorem witness_ErrorStateIsSticky :
    failed.err = true ∧ failed.phase = .idle ∧
      (facing [.write 0x000 0] failed).pending = .write 0x000 0 :: [] ∧
      (.write 0x000 0 : HostEvent) ≠ .resetPin ∧
      ∀ v, (.write 0x000 0 : HostEvent) = .write 0x008 v → v.getLsbD 0 = false ∧ v.getLsbD 1 = false :=
  ⟨rfl, rfl, rfl, by decide, fun _ h => absurd h (by simp)⟩

theorem witness_EveryStepGoesOnAndExecEnds : CoreTurn (executing 0) := .inl rfl

theorem witness_WriteAndCompletionComeInEitherOrder :
    (executing 0).phase = .exec 0 ∧ decode 0 = .ok .nop ∧ (executing 0).err = false ∧
      firstFailure (executing 0) .nop = none ∧
      decode 0x02000401 = .ok (.kSet 4 2) ∧ (executing 0x02000401).phase = .exec 0x02000401 ∧
      firstFailure (executing 0x02000401) (.kSet 4 2) ≠ none := by
  decide

/-- A step that changes LUT, from a state whose LUT differs from what LUT_BUILD gives. -/
theorem witness_TablesChangeOnlyByBuildsAndReset :
    step (executing 0x00000060) =
        .next (commit { executing 0x00000060 with lut := buildLut extIdentity }) ∧
      buildLut extIdentity ≠ (executing 0x00000060).lut :=
  ⟨rfl, by decide +kernel⟩

/-- A step that changes a byte of BUF, and no reset comes next. -/
theorem witness_BytesChangeOnlyByStoresAndRecodings :
    step (facing [.write 0x100 7] ready) = .next { ready with mem := writeLE [] 0x100 4 7 } ∧
      memRead (writeLE [] 0x100 4 7) 0x100 ≠ memRead ready.mem 0x100 ∧
      ¬ ResetTurn (facing [.write 0x100 7] ready) := by
  refine ⟨rfl, by decide, ?_⟩
  rintro ⟨rest, h | ⟨v, -, h⟩⟩ <;> simp [facing] at h

theorem witness_OnlyTwoCommandsMakeNoncanonicalScalars :
    exec (.scConst 3 2) ready = .next (commit (ready.setS 3 (Scalar.ofNat groupL))) ∧
      groupL ≤ ((commit (ready.setS 3 (Scalar.ofNat groupL))).getS 3).val :=
  ⟨rfl, by decide +kernel⟩

theorem witness_OnlyFourCommandsFillUnusedSlots :
    exec (.ptMov 1 0) (ready.setP 0 (pt .an 1 1 0 5)) =
        .next (commit ((ready.setP 0 (pt .an 1 1 0 5)).setP 1 (pt .an 1 1 0 5))) ∧
      ((commit ((ready.setP 0 (pt .an 1 1 0 5)).setP 1 (pt .an 1 1 0 5))).getP 1).tag = .an ∧
      ((commit ((ready.setP 0 (pt .an 1 1 0 5)).setP 1 (pt .an 1 1 0 5))).getP 1).s3.val ≠ 0 :=
  ⟨rfl, by decide, by decide +kernel⟩

theorem witness_CmdcntCountsCompletedCommands :
    (executing 0).Inv ∧ step (executing 0) = .next (commit (executing 0)) ∧
      ¬ ResetTurn (executing 0) ∧ (executing 0).phase = .exec 0 ∧
      (commit (executing 0)).phase = .idle ∧ (commit (executing 0)).err = false := by
  refine ⟨executing_inv 0, rfl, ?_, rfl, rfl, rfl⟩
  rintro ⟨rest, h | ⟨v, -, h⟩⟩ <;> simp [executing, accept, ready, endInit, State.reset] at h

theorem witness_CmdcntCountsCompletedCommands_other :
    ready.Inv ∧ step ready = .next ready ∧ ¬ ResetTurn ready ∧ ready.phase = .idle := by
  refine ⟨ready_inv, rfl, ?_, rfl⟩
  rintro ⟨rest, h | ⟨v, -, h⟩⟩ <;> simp [ready, endInit, State.reset] at h

theorem witness_TablesAreReadOnlyByTheirSelects :
    (∀ d imm, (.lutBuild 0 : Instr) ≠ .lutSel d imm) ∧
      (∀ d imm, (.lutBuild 0 : Instr) ≠ .nlutSel d imm) ∧
      (∀ d x imm, (.lutBuild 0 : Instr) ≠ .btSel d x imm) ∧
      (∀ d a, (.lutBuild 0 : Instr) ≠ .edBmul d a) ∧
      exec (.lutBuild 0) ready = .next (commit { ready with lut := buildLut extIdentity }) :=
  ⟨by simp, by simp, by simp, by simp, rfl⟩

theorem witness_CommandsDoNotObserveTheModelsOwnFields :
    exec .nop ready = .next (commit ready) := rfl

theorem witness_ChoiceCommandsGiveTheirResults :
    (1 : Byte).toNat ≤ 1 ∧ (1 : HalfField).val ≤ 1 := by decide

theorem witness_FieldLoadAndStoreConvertBytes :
    (1 : HalfField).val ≤ 1 ∧ Memory.wf ready.mem = true := by decide

/-- Both cases of the second round trip: a canonical string and one from p to 2^255 − 1. -/
theorem witness_FieldStoreThenLoadRoundTrips :
    (1 : HalfField).val ≤ 1 ∧ Memory.wf (ready.writeHalf 1 (2 ^ 255 - 1)).mem = true ∧
      ready.readHalf 1 < 2 ^ 255 - 19 ∧
      2 ^ 255 - 19 ≤ (ready.writeHalf 1 (2 ^ 255 - 1)).readHalf 1 ∧
      (ready.writeHalf 1 (2 ^ 255 - 1)).readHalf 1 < 2 ^ 255 := by
  decide +kernel

/-- The four rows of the table of R180. -/
theorem witness_SquareRootOfRatioFollowsTheCaseTable :
    gf (ready.getF 0) = 0 ∧ gf ((ready.setF 0 (Fe.ofNat 1)).getF 0) ≠ 0 ∧
      (sqrtRatioM1 (Fe.ofNat 4) (Fe.ofNat 1)).1 = true ∧
      (sqrtRatioM1 (Fe.ofNat 2) (Fe.ofNat 1)).1 = false :=
  ⟨gf_eq_zero.2 (by decide +kernel), fun h => absurd (gf_eq_zero.1 h) (by decide +kernel),
    by decide +kernel, by decide +kernel⟩

/-- The three ranges of SC_LOAD, at their ends. -/
theorem witness_ScalarTransfersGiveTheirResults :
    (0 : HalfField).val ≤ 1 ∧ Memory.wf ready.mem = true ∧
      (ready.writeHalf 0 (groupL - 1)).readHalf 0 <
        2 ^ 252 + 27742317777372353535851937790883648493 ∧
      2 ^ 252 + 27742317777372353535851937790883648493 ≤ (ready.writeHalf 0 groupL).readHalf 0 ∧
      (ready.writeHalf 0 groupL).readHalf 0 < 2 ^ 255 ∧
      2 ^ 255 ≤ (ready.writeHalf 0 (2 ^ 255)).readHalf 0 := by
  decide +kernel

theorem witness_Radix16DigitsSumToTheScalar : Memory.wf ready.mem = true := by decide

theorem witness_Naf5DigitsSumToTheScalar : Memory.wf ready.mem = true := by decide

theorem witness_MontgomeryLimbsGiveTheReduction :
    2 ^ 261 * groupL - 1 < 2 ^ 261 * groupL ∧ 2 ^ 255 - 1 < 2 ^ 255 := by decide +kernel

theorem witness_PointRegisterCommandsGiveTheirResults :
    (4 : Byte).toNat ≤ 4 ∧ (ready.getP 0).tag = (ready.getP 1).tag := by decide

theorem witness_PointNegationFollowsTheTag :
    (ready.getP 0).tag = .ext ∧ ((ready.setP 0 pnB).getP 0).tag = .pn ∧
      ((ready.setP 0 anB).getP 0).tag = .an ∧ ((ready.setP 0 projB).getP 0).tag = .proj ∧
      ((ready.setP 0 (pt .comp 0 1 1 1)).getP 0).tag = .comp := by
  decide

theorem witness_ConversionsGiveTheirSlots :
    ∃ X Y Z T : Gf, X = gf (ready.getP 0).s0 ∧ Y = gf (ready.getP 0).s1 ∧
      Z = gf (ready.getP 0).s2 ∧ T = gf (ready.getP 0).s3 ∧ (ready.getP 0).tag = .ext ∧
      ((ready.setP 0 projB).getP 0).tag = .proj ∧
      ((ready.setP 0 (pt .comp 0 1 1 1)).getP 0).tag = .comp ∧
      ((ready.setP 0 pnB).getP 0).tag = .pn ∧ ((ready.setP 0 anB).getP 0).tag = .an :=
  ⟨_, _, _, _, rfl, rfl, rfl, rfl, by decide⟩

theorem witness_CompletedFormulasGiveTheirSlots :
    ((ready.setP 0 projB).getP 0).tag = .proj ∧
      (((ready.setP 0 pointB).setP 1 pnB).getP 0).tag = .ext ∧
      (((ready.setP 0 pointB).setP 1 pnB).getP 1).tag = .pn ∧
      (((ready.setP 0 pointB).setP 1 anB).getP 0).tag = .ext ∧
      (((ready.setP 0 pointB).setP 1 anB).getP 1).tag = .an := by
  decide

theorem witness_EdwardsAdditionsGiveTheirSlots :
    (((ready.setP 0 pointB).setP 1 pointB).getP 0).tag = .ext ∧
      (((ready.setP 0 pointB).setP 1 pointB).getP 1).tag = .ext := by
  decide

theorem witness_MultiplyByPowerOfTwoIsRepeatedDoubling :
    (ready.getP 0).tag = .ext ∧ (255 : Byte) ≠ 0 ∧ ((ready.setP 0 pnB).getP 0).tag ≠ .ext := by
  decide

/-- B represents a point of the curve. -/
theorem represents_pointB : Represents pointB.asExt (gf pointB.s0) (gf pointB.s1) where
  curve := by
    have h : fadd (fneg (fsq pointB.s0)) (fsq pointB.s1) =
        fadd feOne (fmul (fmul feD (fsq pointB.s0)) (fsq pointB.s1)) := by decide +kernel
    have h := congrArg gf h
    simpa only [OnCurve, gf_fadd, gf_fneg, gf_fsq, gf_fmul, gf_feOne, gf_feD] using h
  zNonzero := fun h => absurd (gf_eq_zero.1 h) (by decide +kernel)
  hx := by
    have h : pointB.asExt.Z = feOne := by decide +kernel
    rw [h, gf_feOne, mul_one]
    rfl
  hy := by
    have h : pointB.asExt.Z = feOne := by decide +kernel
    rw [h, gf_feOne, mul_one]
    rfl
  ht := by
    have h : fmul pointB.asExt.X pointB.asExt.Y = fmul pointB.asExt.Z pointB.asExt.T := by
      decide +kernel
    simpa only [gf_fmul] using congrArg gf h

theorem witness_EdwardsAdditionIsTheCompleteLaw :
    ∃ (s : State) (x1 y1 x2 y2 : Gf), (s.getP 0).tag = .ext ∧ (s.getP 1).tag = .ext ∧
      Represents (s.getP 0).asExt x1 y1 ∧ Represents (s.getP 1).asExt x2 y2 :=
  ⟨(ready.setP 0 pointB).setP 1 pointB, _, _, _, _, rfl, rfl, represents_pointB, represents_pointB⟩

/-- A string that has a point, and one, y = 2, that has none. -/
theorem witness_EdwardsDecodeFindsThePoint :
    (0 : HalfField).val ≤ 1 ∧
      (∃ x, OnCurve x (((ready.writeHalf 0 1).readHalf 0 % 2 ^ 255 : Nat) : Gf)) ∧
      ¬ ∃ x, OnCurve x (((ready.writeHalf 0 2).readHalf 0 % 2 ^ 255 : Nat) : Gf) := by
  refine ⟨by decide, ⟨0, ?_⟩, fun hx => ?_⟩
  · have h : (ready.writeHalf 0 1).readHalf 0 % 2 ^ 255 = 1 := by decide +kernel
    rw [h, Nat.cast_one]
    exact onCurve_identity
  · obtain ⟨X, Y, h, -⟩ := edDecompress_some (b := (ready.writeHalf 0 2).readHalf 0) rfl hx
    have hn : edDecompress ((ready.writeHalf 0 2).readHalf 0) = none := by decide +kernel
    rw [hn] at h
    cases h

/-- A content that is no point of the curve and breaks XY = ZT, and one with Z = 0. -/
theorem witness_EdwardsEncodeStoresTheAffinePoint :
    (1 : HalfField).val ≤ 1 ∧ Memory.wf offCurve.mem = true ∧ (offCurve.getP 0).tag = .ext ∧
      gf (offCurve.getP 0).s2 ≠ 0 ∧ (1 : Gf) * gf (offCurve.getP 0).s2 = gf (offCurve.getP 0).s0 ∧
      (3 : Gf) * gf (offCurve.getP 0).s2 = gf (offCurve.getP 0).s1 ∧
      gf ((ready.setP 0 (pt .ext 1 1 0 0)).getP 0).s2 = 0 := by
  have h0 : gf (offCurve.getP 0).s0 = 2 := by
    show gf (Fe.ofNat 2) = 2
    simp
  have h1 : gf (offCurve.getP 0).s1 = 6 := by
    show gf (Fe.ofNat 6) = 6
    simp
  have h2 : gf (offCurve.getP 0).s2 = 2 := by
    show gf (Fe.ofNat 2) = 2
    simp
  rw [h0, h1, h2]
  exact ⟨by decide, by decide, by decide, gf_two_ne_zero, by ring, by ring,
    gf_eq_zero.2 (by decide +kernel)⟩

theorem witness_EdwardsEncodeThenDecodeRoundTrips :
    (1 : HalfField).val ≤ 1 ∧ Memory.wf (ready.setP 0 pointB).mem = true ∧
      ((ready.setP 0 pointB).getP 0).tag = .ext ∧
      Represents ((ready.setP 0 pointB).getP 0).asExt (gf pointB.s0) (gf pointB.s1) :=
  ⟨by decide, by decide, by decide, represents_pointB⟩

theorem witness_PointPredicatesDecideTheirRelations :
    (ready.getP 0).tag = .ext ∧ (ready.getP 1).tag = .ext := by decide

theorem witness_TableBuildsFollowTheirLoops :
    (∃ (B : Ext) (Q : Nat → Ext),
      HasSlots (Point.ofExt B) .ext
        0x216936d3cd6e53fec0a4e231fdd6dc5c692cc7609525a7b2c9562d608f25d51a
        0x6666666666666666666666666666666666666666666666666666666666666658 1
        0x67875f0fd78b766566ea4e8e64abe37d20f09f80775152f56dde8ab3a5b7dda3 ∧
      Q 0 = B ∧ ∀ i, Q (i + 1) = edAdd (Q i) (edDbl B)) ∧
    ∃ A : Ext, A = (ready.getP 0).asExt ∧ (ready.getP 0).tag = .ext := by
  refine ⟨⟨pointB.asExt, fun n => (fun q => edAdd q (edDbl pointB.asExt))^[n] pointB.asExt,
    ⟨rfl, ?_, ?_, ?_, ?_⟩, rfl, fun i => Function.iterate_succ_apply' _ _ _⟩, _, rfl, by decide⟩ <;>
  · refine (gf_ofNat _).trans ?_
    first
      | exact Nat.cast_ofNat
      | exact Nat.cast_one

/-- The ends of the ranges of the three selects. -/
theorem witness_SelectsGiveTheSignedEntry :
    (0x08 : Byte).toInt = (7 : Fin 8).val + 1 ∧ (0xF8 : Byte).toInt = -((7 : Fin 8).val + 1 : Int) ∧
      (0xFF : Byte).toInt = -((0 : Fin 8).val + 1 : Int) ∧
      (1 : Byte).toNat = 2 * (0 : Fin 8).val + 1 ∧ (15 : Byte).toNat = 2 * (7 : Fin 8).val + 1 ∧
      (31 : Byte).toNat = (31 : Fin 32).val := by
  decide

/-- For ED_VTDBL with both scalars 0 the top position is 0; the widest digits, ±15, have entry 7. -/
theorem witness_ScalarMultiplicationsFollowTheirLoops :
    (ready.getP 0).tag = .ext ∧
      (∀ i, (naf5 (ready.getS 0).val).getD i 0 = 0) ∧ (0 : Nat) < 256 ∧
      (∀ i, ((0 : Fin 8)).val = ((naf5 (ready.getS 0).val).getD i 0).natAbs / 2) ∧
      (7 : Fin 8).val = (15 : Int).natAbs / 2 ∧ (7 : Fin 8).val = (-15 : Int).natAbs / 2 := by
  have h : naf5 (ready.getS 0).val = List.replicate 256 0 := by decide +kernel
  have h0 : ∀ i, (naf5 (ready.getS 0).val).getD i 0 = 0 := fun i => by
    rw [h, List.getD_eq_getElem?_getD, List.getElem?_replicate]
    split <;> rfl
  exact ⟨by decide, h0, by decide, fun i => by rw [h0]; rfl, by decide, by decide⟩

theorem witness_ScalarMultiplicationStaysOnTheCurve :
    ((ready.setP 0 pointB).getP 0).tag = .ext ∧
      Represents ((ready.setP 0 pointB).getP 0).asExt (gf pointB.s0) (gf pointB.s1) :=
  ⟨by decide, represents_pointB⟩

/-- The three cases: s = 1 is negative; s = 0 is the identity, with x = 0 and y = 1; s = 8 has no square
root. -/
theorem witness_RistrettoDecodeFindsThePoint :
    (0 : HalfField).val ≤ 1 ∧ (ready.writeHalf 0 1).readHalf 0 % 2 = 1 ∧
      (ready.readHalf 0 < 2 ^ 255 - 19 ∧ ready.readHalf 0 % 2 = 0 ∧ ready.readHalf 0 = 0) ∧
      ((1 : Gf) * (1 + 0 ^ 2) = 1 - 0 ^ 2 ∧
        (-dGf * (1 - 0 ^ 2) ^ 2 - (1 + 0 ^ 2) ^ 2) * 0 ^ 2 = 4 * 0 ^ 2 ∧
        ZMod.val (0 : Gf) % 2 = 0 ∧ ZMod.val ((0 : Gf) * 1) % 2 = 0 ∧ (1 : Gf) ≠ 0) ∧
      (ready.writeHalf 0 8).readHalf 0 = 8 ∧
      ¬ ∃ x y : Gf, y * (1 + 8 ^ 2) = 1 - 8 ^ 2 ∧
        (-dGf * (1 - 8 ^ 2) ^ 2 - (1 + 8 ^ 2) ^ 2) * x ^ 2 = 4 * 8 ^ 2 ∧
        ZMod.val x % 2 = 0 ∧ ZMod.val (x * y) % 2 = 0 ∧ y ≠ 0 := by
  have : Fact (Nat.Prime fieldP) := ⟨fieldP_prime⟩
  refine ⟨by decide, by decide +kernel, by decide +kernel,
    ⟨by ring, by ring, by simp, by simp, one_ne_zero⟩, by decide +kernel, ?_⟩
  rintro ⟨x, y, hy, hx, -⟩
  obtain ⟨w, hw⟩ := RiPoint.radicand (σ := 8) ⟨hy, hx⟩
  obtain ⟨-, hz, hn⟩ := sqrtRatio_spec feOne (fmul (fsub (fneg (fmul feD (Fe.ofNat 3969))) (Fe.ofNat 4225))
    (Fe.ofNat 4225))
  have hf : (sqrtRatioM1 feOne (fmul (fsub (fneg (fmul feD (Fe.ofNat 3969))) (Fe.ofNat 4225))
    (Fe.ofNat 4225))).1 = false := by decide +kernel
  have hv : gf (fmul (fsub (fneg (fmul feD (Fe.ofNat 3969))) (Fe.ofNat 4225)) (Fe.ofNat 4225)) =
      (-dGf * (1 - 8 ^ 2) ^ 2 - (1 + 8 ^ 2) ^ 2) * (1 + 8 ^ 2) ^ 2 := by
    simp only [gf_fmul, gf_fsub, gf_fneg, gf_feD, gf_ofNat, Nat.cast_ofNat]
    ring
  rw [hv, gf_feOne] at hn
  have ht := (hn fun h => by rw [h, zero_mul] at hw; exact zero_ne_one hw).1.2 ⟨w, hw⟩
  rw [hf] at ht
  cases ht

/-- Every case of RI_ENCODE: u1·u2² is 0 for the identity, a square for (4, 4, 5), no square for (1, 1,
3); with
T = 4 the sign of T·z_inv rotates and that of X'·z_inv is even, with T = −4 it is odd; with T = 0 nothing
rotates. -/
theorem witness_RistrettoCommandsGiveTheirResults :
    (1 : HalfField).val ≤ 1 ∧ Memory.wf ready.mem = true ∧ (ready.getP 0).tag = .ext ∧
      (ready.getP 1).tag = .ext ∧
      ((1 : Gf) + 1) * (1 - 1) * (0 * 1) ^ 2 = 0 ∧
      (∃ x : Gf, x ≠ 0 ∧ ((5 : Gf) + 4) * (5 - 4) * (4 * 4) ^ 2 = x ^ 2) ∧
      (¬ ∃ x : Gf, ((3 : Gf) + 1) * (3 - 1) * (1 * 1) ^ 2 = x ^ 2) ∧
      ∀ I z : Gf, I ^ 2 * (((5 : Gf) + 4) * (5 - 4) * (4 * 4) ^ 2) = 1 → z = I * 9 * (I * 16 * 4) →
        ZMod.val (4 * z) % 2 = 1 ∧ ZMod.val (0 * z) % 2 = 0 ∧
          ZMod.val (gf feSqrtM1 * 4 * z) % 2 = 0 ∧ ZMod.val (gf feSqrtM1 * 4 * -z) % 2 = 1 := by
  have : Fact (Nat.Prime fieldP) := ⟨fieldP_prime⟩
  refine ⟨by decide, by decide, by decide, by decide, by ring, ⟨48, ?_, by norm_num⟩, ?_, ?_⟩
  · have h : gf (Fe.ofNat 48) ≠ 0 := fun h => absurd (gf_eq_zero.1 h) (by decide +kernel)
    simpa using h
  · rintro ⟨x, hx⟩
    obtain ⟨-, -, hn⟩ := sqrtRatio_spec (Fe.ofNat 8) feOne
    have hf : (sqrtRatioM1 (Fe.ofNat 8) feOne).1 = false := by decide +kernel
    rw [gf_feOne, gf_ofNat] at hn
    have ht := (hn one_ne_zero).1.2 ⟨x, by rw [← hx]; push_cast; ring⟩
    rw [hf] at ht
    cases ht
  · intro I z hI hz
    have h4 : 4 * z = 1 := by rw [hz]; linear_combination hI
    have hi : gf feSqrtM1 * 4 * z = gf feSqrtM1 := by linear_combination gf feSqrtM1 * h4
    have hn : gf feSqrtM1 * 4 * -z = gf (fneg feSqrtM1) := by
      rw [gf_fneg]
      linear_combination -gf feSqrtM1 * h4
    refine ⟨?_, by rw [zero_mul, ZMod.val_zero], ?_, ?_⟩
    · rw [h4, ← gf_feOne, zmodVal_gf]
      decide +kernel
    · rw [hi, zmodVal_gf]
      decide +kernel
    · rw [hn, zmodVal_gf]
      decide +kernel

/-- Dn ≠ 0 for r0 = 0, and Dn = 0 for one of the four inputs R343 gives, the one with r = −d. -/
theorem witness_RistrettoMapGivesTheElligatorPoint :
    (∃ i r Ns Dn : Gf,
      i = 0x2b8324804fc1df0b2b4d00993dfbd7a72f431806ad2fe478c4ee1b274a0ea0b0 ∧
      r = i * gf (ready.getF 0) ^ 2 ∧ Ns = (r + 1) * (1 - dGf ^ 2) ∧
      Dn = (-1 - dGf * r) * (r + dGf) ∧ Dn ≠ 0) ∧
    ∃ i r Ns Dn : Gf,
      i = 0x2b8324804fc1df0b2b4d00993dfbd7a72f431806ad2fe478c4ee1b274a0ea0b0 ∧
      r = i * gf ((ready.setF 0 mapZero).getF 0) ^ 2 ∧ Ns = (r + 1) * (1 - dGf ^ 2) ∧
      Dn = (-1 - dGf * r) * (r + dGf) ∧ Dn = 0 := by
  refine ⟨⟨_, _, _, _, rfl, rfl, rfl, rfl, ?_⟩, _, _, _, _, rfl, rfl, rfl, rfl, ?_⟩
  · have h0 : gf (ready.getF 0) = 0 := gf_eq_zero.2 (by decide +kernel)
    have hd : gf (fneg feD) ≠ 0 := fun h => absurd (gf_eq_zero.1 h) (by decide +kernel)
    rw [gf_fneg, gf_feD] at hd
    rw [h0]
    simpa using hd
  · rw [← gf_feSqrtM1]
    have h : fadd (fmul feSqrtM1 (fsq mapZero)) feD = feZero := by decide +kernel
    have h := congrArg gf h
    rw [gf_fadd, gf_fmul, gf_fsq, gf_feD, gf_feZero] at h
    show (-1 - dGf * (gf feSqrtM1 * gf mapZero ^ 2)) * (gf feSqrtM1 * gf mapZero ^ 2 + dGf) = 0
    rw [h, mul_zero]

end Sys2Proof.Tests
end

section
/-! The host port, the sequencer's step and the invariant (10_state.md R42 to R54, 20_memory.md R83). -/

namespace Sys2Proof.Machine

/-! ## What a step can do -/

/-- What a step from `s` can be, by the event it takes. In `core`, `rest` is what is left of the events, also
where there were none. -/
inductive StepForm (s : State) : State → Prop where
  | core {t : State} (rest : List HostEvent) (turn : CoreTurn s)
    (h : coreStep { s with pending := rest } = .next t) : StepForm s t
  | write (o : Offset) (v : Word) (rest : List HostEvent) (h : s.pending = .write o v :: rest) :
    StepForm s (hostWrite o v { s with pending := rest })
  | read (o : Offset) (rest : List HostEvent) (h : s.pending = .read o :: rest) :
    StepForm s (hostRead o { s with pending := rest })
  | resetPin (rest : List HostEvent) (h : s.pending = .resetPin :: rest) :
    StepForm s (resetCore { s with pending := rest })

/-- Every step has one of the four forms of R83. -/
theorem stepForm_of_step {s t : State} (h : step s = .next t) : StepForm s t := by
  cases hp : s.pending with
  | nil => exact .core s.pending (.inl hp) (step_nil hp ▸ h)
  | cons e rest =>
    rw [step_cons hp] at h
    cases e with
    | write o v => exact Host.Outcome.next.inj h ▸ .write o v rest hp
    | read o => exact Host.Outcome.next.inj h ▸ .read o rest hp
    | resetPin => exact Host.Outcome.next.inj h ▸ .resetPin rest hp
    | coreStep => exact .core rest (.inr ⟨rest, hp⟩) h

theorem step_write {s : State} {o : Offset} {v : Word} {rest : List HostEvent}
    (h : s.pending = .write o v :: rest) :
    step s = .next (hostWrite o v { s with pending := rest }) := step_cons h

/-! ## Writes to CMD and CTRL (R42, R44) -/

theorem hostWrite_cmd (w : Word) (s : State) : hostWrite 0x000 w s = writeCmd w s := rfl

theorem hostWrite_ctrl (v : Word) (s : State) : hostWrite 0x008 v s = writeCtrl v s := rfl

theorem writeCmd_busy {s : State} (w : Word) (hb : busy s = true) :
    writeCmd w s = { s with ovf := true } := by
  rw [writeCmd, if_pos hb]

theorem writeCmd_discarded {s : State} (w : Word) (hb : busy s = false) (he : s.err = true) :
    writeCmd w s = { s with cmd := w, disc := true } := by
  rw [writeCmd, if_neg (Bool.eq_false_iff.1 hb), if_pos he]

theorem writeCmd_accepted {s : State} (w : Word) (hb : busy s = false) (he : s.err = false) :
    writeCmd w s = accept w s := by
  rw [writeCmd, if_neg (Bool.eq_false_iff.1 hb), if_neg (Bool.eq_false_iff.1 he)]

theorem writeCtrl_reset {v : Word} (s : State) (h0 : v.getLsbD 0 = true) :
    writeCtrl v s = resetCore s := by
  rw [writeCtrl, if_pos h0]

theorem writeCtrl_clear {v : Word} (s : State) (h0 : v.getLsbD 0 = false)
    (h1 : v.getLsbD 1 = true) : writeCtrl v s = clearErrors s := by
  rw [writeCtrl, if_neg (Bool.eq_false_iff.1 h0), if_pos h1]

theorem writeCtrl_none {v : Word} (s : State) (h0 : v.getLsbD 0 = false)
    (h1 : v.getLsbD 1 = false) : writeCtrl v s = s := by
  rw [writeCtrl, if_neg (Bool.eq_false_iff.1 h0), if_neg (Bool.eq_false_iff.1 h1)]

/-- After a reset every piece of state has the value of R410. -/
theorem atReset_resetCore (s : State) : AtReset (resetCore s) := by
  apply atReset_of_fields <;> rfl

/-- Settles O14: the three cases of R42 are the three branches of `writeCmd`. -/
theorem cmdWriteDoesOneOfThreeThings : Obligations.CmdWriteDoesOneOfThreeThings := by
  refine ⟨rfl, fun s w rest hp => ?_⟩
  rw [step_write hp, hostWrite_cmd]
  refine ⟨fun hb => ?_, fun hb he => ?_, fun hb he => ?_, rfl⟩
  · exact congrArg _ (writeCmd_busy w hb)
  · exact congrArg _ (writeCmd_discarded w hb he)
  · exact congrArg _ (writeCmd_accepted w hb he)

/-- Settles O15: SRST, ERRCLR and neither are the three branches of `writeCtrl`. -/
theorem ctrlWriteResetsOrClearsTheRecord : Obligations.CtrlWriteResetsOrClearsTheRecord := by
  intro s v rest hp
  rw [step_write hp, hostWrite_ctrl]
  refine ⟨fun h0 => ?_, fun h0 h1 => ?_, fun h0 h1 => ?_, rfl⟩
  · rw [writeCtrl_reset _ h0]
    exact ⟨_, rfl, atReset_resetCore _, rfl⟩
  · exact congrArg _ (writeCtrl_clear _ h0 h1)
  · exact congrArg _ (writeCtrl_none _ h0 h1)

/-! ## BUF and DIG keep their form -/

/-- The two clauses of the invariant that speak of BUF and DIG (log 10). -/
structure MemInv (m : List Host.Cell) : Prop where
  wf : Memory.wf m = true
  inside : ∀ c ∈ m, inBuf c.1 = true ∨ inDig c.1 = true

theorem memInv_nil : MemInv [] := ⟨wf_nil, fun _ h => nomatch h⟩

theorem memInv_writeLE_buf {m : List Host.Cell} (hm : MemInv m) {a n : Nat} (v : Nat)
    (lo : 0x100 ≤ a) (hi : a + n ≤ 0x140) : MemInv (writeLE m a n v) where
  wf := wf_writeLE hm.wf a n v
  inside c hc := by
    rcases mem_writeLE hc with h | h
    · exact hm.inside c h
    · exact .inl (by simp only [inBuf, Bool.and_eq_true, decide_eq_true_eq]; omega)

theorem memInv_writeBytes_dig {m : List Host.Cell} (hm : MemInv m) {l : List Byte}
    (hl : l.length ≤ 256) : MemInv (writeBytes m digBase l) where
  wf := wf_writeBytes hm.wf digBase l
  inside c hc := by
    rcases mem_writeBytes hc with h | h
    · exact hm.inside c h
    · exact .inr (by simp only [inDig, digBase, Bool.and_eq_true, decide_eq_true_eq] at *; omega)

/-- Whatever a command writes, it leaves BUF and DIG in form. -/
theorem WriteForm.memInv {s u : State} {w : Writes} (h : WriteForm s w u) (hm : MemInv s.mem) :
    MemInv u.mem := by
  cases h with
  | half h v hh =>
    rw [writeHalf_mem]
    exact memInv_writeLE_buf hm v (by simp only [halfBase, bufBase]; omega)
      (by simp only [halfBase, bufBase]; omega)
  | dig e he => exact memInv_writeBytes_dig hm (digBytes_length e he).le
  | nothing | f | sc | p | k | fk | lut | nlut | bt => exact hm

theorem State.Inv.memInv {s : State} (h : s.Inv) : MemInv s.mem := ⟨h.memWf, h.memInside⟩

/-! ## The invariant -/

theorem busy_of_idle {s : State} (h : s.phase = .idle) : busy s = false := by rw [busy, h]

theorem busy_of_exec {s : State} {w : Word} (h : s.phase = .exec w) : busy s = true := by
  rw [busy, h]

theorem phase_of_not_busy {s : State} (h : busy s = false) : s.phase = .idle := by
  cases hp : s.phase with
  | idle => rfl
  | init => rw [busy, hp] at h; cases h
  | exec w => rw [busy, hp] at h; cases h

/-- A state that falls idle with BUF and DIG in form and the error record of a state that meets the invariant
meets it too. -/
theorem State.Inv.of_idle {s t : State} (h : s.Inv) (hm : MemInv t.mem) (hp : t.phase = .idle)
    (err : t.err = s.err) (errKind : t.errKind = s.errKind) (errCause : t.errCause = s.errCause)
    (errOp : t.errOp = s.errOp) (errCmd : t.errCmd = s.errCmd) (disc : t.disc = s.disc) :
    t.Inv where
  memWf := hm.wf
  memInside := hm.inside
  cmdHeld w hw := nomatch hp.symm.trans hw
  errIdle _ := busy_of_idle hp
  noRecord := by rw [err, errKind, errCause, errOp, errCmd]; exact h.noRecord
  record := by rw [err, errKind, errCause, errOp, errCmd]; exact h.record
  discErr := by rw [err, disc]; exact h.discErr

/-- The events still to come are no part of the invariant. -/
theorem State.Inv.pending {s : State} (h : s.Inv) (l : List HostEvent) :
    State.Inv { s with pending := l } :=
  ⟨h.memWf, h.memInside, h.cmdHeld, h.errIdle, h.noRecord, h.record, h.discErr⟩

theorem State.Inv.setOvf {s : State} (h : s.Inv) : State.Inv { s with ovf := true } :=
  ⟨h.memWf, h.memInside, h.cmdHeld, h.errIdle, h.noRecord, h.record, h.discErr⟩

theorem inv_hostRead {s : State} (h : s.Inv) (o : Offset) : (hostRead o s).Inv :=
  ⟨h.memWf, h.memInside, h.cmdHeld, h.errIdle, h.noRecord, h.record, h.discErr⟩

theorem inv_resetCore (s : State) : (resetCore s).Inv where
  memWf := wf_nil
  memInside := memInv_nil.inside
  cmdHeld _ hw := nomatch hw
  errIdle he := nomatch he
  noRecord _ := ⟨rfl, rfl, rfl, rfl⟩
  record he := nomatch he
  discErr hd := nomatch hd

theorem inv_clearErrors {s : State} (h : s.Inv) : (clearErrors s).Inv where
  memWf := h.memWf
  memInside := h.memInside
  cmdHeld := h.cmdHeld
  errIdle he := nomatch he
  noRecord _ := ⟨rfl, rfl, rfl, rfl⟩
  record he := nomatch he
  discErr hd := nomatch hd

theorem inv_accept {s : State} (h : s.Inv) (he : s.err = false) (w : Word) : (accept w s).Inv where
  memWf := h.memWf
  memInside := h.memInside
  cmdHeld _ hw := Phase.exec.inj hw
  errIdle ht := nomatch he.symm.trans ht
  noRecord := h.noRecord
  record := h.record
  discErr := h.discErr

theorem inv_discard {s : State} (h : s.Inv) (hb : busy s = false) (he : s.err = true) (w : Word) :
    State.Inv { s with cmd := w, disc := true } where
  memWf := h.memWf
  memInside := h.memInside
  cmdHeld _ hw := nomatch (phase_of_not_busy hb).symm.trans hw
  errIdle _ := hb
  noRecord := h.noRecord
  record := h.record
  discErr _ := he

/-- Every cause is one of R372 or R373, under its kind. -/
theorem errorCode_legal (e : ErrorCause) :
    (errorKind e = 1 ∧ 1 ≤ (errorCode e).toNat ∧ (errorCode e).toNat ≤ 4) ∨
      (errorKind e = 2 ∧ 1 ≤ (errorCode e).toNat ∧ (errorCode e).toNat ≤ 7) := by
  cases e <;> decide

theorem inv_raiseError {s : State} (h : s.Inv) (w : Word) (e : ErrorCause) :
    (raiseError w e s).Inv where
  memWf := h.memWf
  memInside := h.memInside
  cmdHeld _ hw := nomatch hw
  errIdle _ := rfl
  noRecord he := nomatch he
  record _ := ⟨rfl, errorCode_legal e⟩
  discErr _ := rfl

theorem inv_commit {s u : State} {w : Writes} (h : s.Inv) (hw : WriteForm s w u) :
    (commit u).Inv :=
  have c := hw.completes
  h.of_idle (hw.memInv h.memInv) c.phase c.frame.err c.frame.errKind c.frame.errCause c.frame.errOp
    c.frame.errCmd c.frame.disc

theorem inv_coreStep {s t : State} (h : s.Inv) (hs : coreStep s = .next t) : t.Inv := by
  rcases coreStep_cases hs with ⟨-, rfl⟩ | ⟨-, rfl⟩ | ⟨w, i, u, -, -, rfl, hw⟩ | ⟨w, v, e, -, rfl⟩
  · exact h.of_idle h.memInv rfl rfl rfl rfl rfl rfl rfl
  · exact h
  · exact inv_commit h hw
  · exact inv_raiseError h v e

theorem inv_hostWrite {s : State} (h : s.Inv) (o : Offset) (v : Word) : (hostWrite o v s).Inv := by
  rcases hostWrite_cases o v s with e | ⟨-, e⟩ | ⟨-, hb, he, e⟩ | ⟨-, -, he, e⟩ | ⟨-, -, e⟩ |
    ⟨-, -, e⟩ | ⟨ha, hi, hb, e⟩ <;> rw [e]
  · exact h
  · exact h.setOvf
  · exact inv_discard h hb he v
  · exact inv_accept h he v
  · exact inv_resetCore s
  · exact inv_clearErrors h
  · simp only [inBuf, Bool.and_eq_true, decide_eq_true_eq] at hi
    exact h.of_idle (memInv_writeLE_buf h.memInv _ hi.1 (by omega)) (phase_of_not_busy hb)
      rfl rfl rfl rfl rfl rfl

/-- Settles O11: each of the four forms of a step keeps the invariant. -/
theorem everyStepKeepsTheInvariant : Obligations.EveryStepKeepsTheInvariant := by
  intro s t h hs
  cases stepForm_of_step hs with
  | core rest turn hc => exact inv_coreStep (h.pending rest) hc
  | write o v rest hp => exact inv_hostWrite (h.pending rest) o v
  | read o rest hp => exact inv_hostRead (h.pending rest) o
  | resetPin rest hp => exact inv_resetCore _

/-! ## The STATUS word (R43) -/

theorem hostReadValue_status (s : State) : hostReadValue 0x004 s = statusWord s := rfl

/-- The fields lie side by side, so their sum is below 2^32. -/
theorem toNat_statusWord (s : State) :
    (statusWord s).toNat =
      (busy s).toNat + s.err.toNat * 2 + s.errKind.toNat * 2 ^ 2 + s.errCause.toNat * 2 ^ 4 +
        s.ovf.toNat * 2 ^ 8 + s.disc.toNat * 2 ^ 9 + s.errOp.toNat * 2 ^ 16 := by
  have := (busy s).toNat_le
  have := s.err.toNat_le
  have := s.errKind.isLt
  have := s.errCause.isLt
  have := s.ovf.toNat_le
  have := s.disc.toNat_le
  have := s.errOp.isLt
  rw [statusWord, BitVec.toNat_ofNat, Nat.mod_eq_of_lt]
  omega

theorem getLsbD_eq_of_toNat {n k : Nat} {w : BitVec n} {b : Bool}
    (h : w.toNat / 2 ^ k % 2 = b.toNat) : w.getLsbD k = b := by
  rw [BitVec.getLsbD, Nat.testBit_eq_decide_div_mod_eq, h]
  cases b <;> rfl

theorem extractLsb'_eq_of_toNat {n k m : Nat} {w : BitVec n} {v : BitVec m}
    (h : w.toNat / 2 ^ k % 2 ^ m = v.toNat) : w.extractLsb' k m = v :=
  BitVec.eq_of_toNat_eq (by rw [BitVec.extractLsb'_toNat, Nat.shiftRight_eq_div_pow, h])

theorem extractLsb'_eq_zero_of_toNat {n k m : Nat} {w : BitVec n}
    (h : w.toNat / 2 ^ k % 2 ^ m = 0) : w.extractLsb' k m = 0 :=
  extractLsb'_eq_of_toNat (h.trans BitVec.toNat_zero.symm)

/-- Settles O16: each field is a digit of the sum that the STATUS word is. -/
theorem statusWordHoldsItsFields : Obligations.StatusWordHoldsItsFields := by
  intro s
  rw [hostReadValue_status]
  have := (busy s).toNat_le
  have := s.err.toNat_le
  have := s.errKind.isLt
  have := s.errCause.isLt
  have := s.ovf.toNat_le
  have := s.disc.toNat_le
  have := s.errOp.isLt
  refine ⟨getLsbD_eq_of_toNat ?_, getLsbD_eq_of_toNat ?_, extractLsb'_eq_of_toNat ?_,
    extractLsb'_eq_of_toNat ?_, getLsbD_eq_of_toNat ?_, getLsbD_eq_of_toNat ?_,
    extractLsb'_eq_zero_of_toNat ?_, extractLsb'_eq_of_toNat ?_,
    extractLsb'_eq_zero_of_toNat ?_⟩ <;>
  · rw [toNat_statusWord]
    omega

end Sys2Proof.Machine
end

section
/-! Decoding inverts encoding (30_encoding.md R101, R112), and what the sequencer's step executes
(10_state.md R54). -/

namespace Sys2Proof

theorem unusedZero_eq_ok {l : List Nat} {i j : Instr} (hl : ∀ x ∈ l, x = 0) (hi : j = i) :
    unusedZero l j = .ok i := by
  rw [unusedZero, if_pos (List.all_eq_true.2 fun x hx => beq_iff_eq.2 (hl x hx)), hi]

/-- What decodes every word with given fields decodes the word packed from them. -/
theorem decode_packWord {op d a b c imm : Nat} {i : Instr} (h0 : op < 256) (h1 : d < 16)
    (h2 : a < 16) (h3 : b < 16) (h4 : c < 16) (h5 : imm < 256)
    (row : ∀ w, fieldOp w = op → fieldD w = ⟨d, h1⟩ → fieldA w = ⟨a, h2⟩ → fieldB w = ⟨b, h3⟩ →
      fieldC w = ⟨c, h4⟩ → fieldImm w = BitVec.ofNat 8 imm →
      fieldT w = BitVec.ofNat 8 (b + 16 * c) → decode w = .ok i) :
    decode (packWord op d a b c imm) = .ok i :=
  row _ (fieldOp_packWord h0 h1 h2 h3 h4 h5) (fieldD_packWord h0 h1 h2 h3 h4 h5)
    (fieldA_packWord h0 h1 h2 h3 h4 h5) (fieldB_packWord h0 h1 h2 h3 h4 h5)
    (fieldC_packWord h0 h1 h2 h3 h4 h5) (fieldImm_packWord h0 h1 h2 h3 h4 h5)
    (fieldT_packWord h0 h1 h2 h3 h4 h5)

/-- Decoding inverts encoding: in each row the unused fields are packed as 0, and each operand is read from
where it was packed. -/
theorem decode_encode (i : Instr) : decode (encode i) = .ok i := by
  cases i <;>
  · refine decode_packWord (by omega) (by omega) (by omega) (by omega) (by omega) (by omega)
      fun w hop hd ha hb hc himm ht => ?_
    rw [decode, hop]
    exact unusedZero_eq_ok (by simp [hd, ha, hb, hc, himm]) (by simp [hd, ha, hb, hc, himm, ht, Nat.mod_add_div])

end Sys2Proof

namespace Sys2Proof.Machine

/-- The step after `withFetchWord` executes the word it places. -/
theorem step_withFetchWord (s : State) (w : Word) :
    step (s.withFetchWord 32 w.toNat) = runWord w (accept w s) := by
  have hw : BitVec.ofNat 32 (w.toNat % 2 ^ 32) = w := by
    rw [Nat.mod_eq_of_lt w.isLt, BitVec.ofNat_toNat, BitVec.setWidth_eq]
  rw [State.withFetchWord, hw, step_cons rfl]
  rfl

/-- Settles O8: the sequencer's step runs the executing word, and `decode` inverts `encode`. -/
theorem stepExecutesTheDecodedCommand : Obligations.StepExecutesTheDecodedCommand := by
  refine ⟨fun s w i hp hd => ⟨fun h => ?_, fun rest h => ?_⟩, fun s i => ?_⟩
  · rw [step_nil h, coreStep_exec hp, runWord_ok hd]
  · rw [step_cons h]
    exact (coreStep_exec (s := { s with pending := rest }) hp).trans (runWord_ok hd)
  · rw [step_withFetchWord, runWord_ok (decode_encode i)]
    rfl

end Sys2Proof.Machine
end

section
/-! What a step changes in BUF, DIG and CMDCNT (10_state.md R47 to R49, 20_memory.md R80, R82). -/

namespace Sys2Proof.Machine

/-- A CTRL write that resets is a reset turn (R411). -/
theorem resetTurn_of_write {s : State} {o : Offset} {v : Word} {rest : List HostEvent}
    (hp : s.pending = .write o v :: rest) (ho : o = 0x008) (hv : v.getLsbD 0 = true) :
    ResetTurn s := ⟨rest, .inr ⟨v, hv, ho ▸ hp⟩⟩

/-! ## Bytes (R48, R49) -/

/-- A byte that a command changes lies in a run of bytes the command names. -/
theorem WriteForm.changed_byte {s u : State} {w : Writes} {x : Nat} (h : WriteForm s w u)
    (hx : memRead u.mem x ≠ memRead s.mem x) : ∃ q ∈ w.bytes, q.1 ≤ x ∧ x < q.1 + q.2 := by
  by_contra hn
  push Not at hn
  refine hx (h.completes.frame.bytes x fun q hq => ?_)
  have := hn q hq
  omega

/-- A command that commits a half of BUF has named half 0 or 1. -/
theorem WriteForm.half_le_one {s u : State} {w : Writes} {h : HalfField} (hw : WriteForm s w u)
    (hm : halfBytes h ∈ w.bytes) : h.val ≤ 1 := by
  cases hw with
  | half h' v hh =>
    have := List.mem_singleton.1 hm
    simp only [halfBytes, Prod.mk.injEq] at this
    omega
  | dig e he =>
    have := List.mem_singleton.1 hm
    simp [halfBytes, digRun] at this
  | nothing | f | sc | p | k | fk | lut | nlut | bt => exact absurd hm List.not_mem_nil

/-- The commands that name bytes: the recodings all of DIG, the four stores a half of BUF. -/
theorem mem_bytes_writesOf {i : Instr} {q : Nat × Nat} (hq : q ∈ (writesOf i).bytes) :
    (q = digRun ∧ ∃ a, i = .scRadix16 a ∨ i = .scNaf5 a) ∨
      ∃ a h, q = halfBytes h ∧
        (i = .feStore a h ∨ i = .scStore a h ∨ i = .edEncode a h ∨ i = .riEncode a h) := by
  cases i with
  | scRadix16 a => exact .inl ⟨List.mem_singleton.1 hq, a, .inl rfl⟩
  | scNaf5 a => exact .inl ⟨List.mem_singleton.1 hq, a, .inr rfl⟩
  | feStore a h => exact .inr ⟨a, h, List.mem_singleton.1 hq, .inl rfl⟩
  | scStore a h => exact .inr ⟨a, h, List.mem_singleton.1 hq, .inr (.inl rfl)⟩
  | edEncode a h => exact .inr ⟨a, h, List.mem_singleton.1 hq, .inr (.inr (.inl rfl))⟩
  | riEncode a h => exact .inr ⟨a, h, List.mem_singleton.1 hq, .inr (.inr (.inr rfl))⟩
  | _ => exact absurd hq List.not_mem_nil

/-- The sequencer's step changes a byte only at the end of a command that names it. -/
theorem coreStep_changed_byte {s t : State} {x : Nat} (h : coreStep s = .next t)
    (hx : memRead t.mem x ≠ memRead s.mem x) :
    ∃ w i u q, s.phase = .exec w ∧ decode w = .ok i ∧ WriteForm s (writesOf i) u ∧
      q ∈ (writesOf i).bytes ∧ q.1 ≤ x ∧ x < q.1 + q.2 := by
  rcases coreStep_cases h with ⟨-, rfl⟩ | ⟨-, rfl⟩ | ⟨w, i, u, hp, hd, rfl, hw⟩ | ⟨w, v, e, -, rfl⟩
  · exact absurd rfl hx
  · exact absurd rfl hx
  · obtain ⟨q, hq, hr⟩ := hw.changed_byte hx
    exact ⟨w, i, u, q, hp, hd, hw, hq, hr⟩
  · exact absurd rfl hx

/-- A host write that is no reset changes a byte only by storing its word in BUF. -/
theorem hostWrite_changed_byte {o : Offset} {v : Word} {s : State} {x : Nat}
    (hx : memRead (hostWrite o v s).mem x ≠ memRead s.mem x)
    (hr : ¬ (o = 0x008 ∧ v.getLsbD 0 = true)) :
    busy s = false ∧ 0x100 ≤ o.toNat ∧ o.toNat < 0x140 ∧ o.toNat ≤ x ∧ x < o.toNat + 4 := by
  rcases hostWrite_cases o v s with e | ⟨-, e⟩ | ⟨-, -, -, e⟩ | ⟨-, -, -, e⟩ | ⟨ho, hv, e⟩ |
    ⟨-, -, e⟩ | ⟨-, hi, hb, e⟩
  · exact absurd (by rw [e]) hx
  · exact absurd (by rw [e]) hx
  · exact absurd (by rw [e]) hx
  · exact absurd (by rw [e]; rfl) hx
  · exact absurd ⟨ho, hv⟩ hr
  · exact absurd (by rw [e]; rfl) hx
  · rw [e] at hx
    simp only [inBuf, Bool.and_eq_true, decide_eq_true_eq] at hi
    have : ¬ (x < o.toNat ∨ o.toNat + 4 ≤ x) := fun hout => hx (memRead_writeLE_out _ _ _ _ _ hout)
    exact ⟨hb, hi.1, hi.2, by omega, by omega⟩

/-- Settles O24: the byte lies in a run the completing command names, or in the word the host writes. -/
theorem bytesChangeOnlyByStoresAndRecodings : Obligations.BytesChangeOnlyByStoresAndRecodings := by
  intro s t x hs hx hr
  cases stepForm_of_step hs with
  | core rest turn hc =>
    obtain ⟨w, i, u, q, hp, hd, hw, hq, hlo, hhi⟩ := coreStep_changed_byte hc hx
    have he : ∀ j, i = j → Executes j s := fun _ hj => hj ▸ ⟨turn, w, hp, hd⟩
    rcases mem_bytes_writesOf hq with ⟨rfl, a, hi⟩ | ⟨a, h, rfl, hi⟩
    · exact .inl ⟨hlo, hhi, a, hi.imp (he _) (he _)⟩
    · exact .inr (.inl ⟨a, h, hw.half_le_one hq, hlo, hhi,
        hi.imp (he _) (Or.imp (he _) (Or.imp (he _) (he _)))⟩)
  | write o v rest hp =>
    have hw := hostWrite_changed_byte (s := { s with pending := rest }) hx
      fun ⟨ho, hv⟩ => hr (resetTurn_of_write hp ho hv)
    exact .inr (.inr ⟨o, v, rest, hp, hw⟩)
  | read o rest hp => exact absurd rfl hx
  | resetPin rest hp => exact absurd ⟨rest, .inl hp⟩ hr

/-! ## CMDCNT (R47) -/

/-- A host write that is no reset leaves CMDCNT, and ends no command. -/
theorem hostWrite_cmdCnt {o : Offset} {v : Word} {s : State}
    (hr : ¬ (o = 0x008 ∧ v.getLsbD 0 = true)) :
    (hostWrite o v s).cmdCnt = s.cmdCnt ∧ ((hostWrite o v s).phase = .idle → s.phase = .idle) := by
  rcases hostWrite_cases o v s with e | ⟨-, e⟩ | ⟨-, -, -, e⟩ | ⟨-, -, -, e⟩ | ⟨ho, hv, -⟩ |
    ⟨-, -, e⟩ | ⟨-, -, -, e⟩
  · rw [e]; exact ⟨rfl, id⟩
  · rw [e]; exact ⟨rfl, id⟩
  · rw [e]; exact ⟨rfl, id⟩
  · rw [e]; exact ⟨rfl, fun h => nomatch h⟩
  · exact absurd ⟨ho, hv⟩ hr
  · rw [e]; exact ⟨rfl, id⟩
  · rw [e]; exact ⟨rfl, id⟩

/-- A command completes without an error in this step. -/
def CompletesCommand (s t : State) : Prop :=
  (∃ w, s.phase = .exec w) ∧ t.phase = .idle ∧ t.err = false

/-- CMDCNT has counted what this step completed. -/
def Counted (s t : State) : Prop :=
  (CompletesCommand s t → t.cmdCnt = s.cmdCnt + 1) ∧
    (¬ CompletesCommand s t → t.cmdCnt = s.cmdCnt)

theorem counted_of_completes {s t : State} (h : CompletesCommand s t)
    (hc : t.cmdCnt = s.cmdCnt + 1) : Counted s t := ⟨fun _ => hc, fun hn => absurd h hn⟩

theorem counted_of_not_completes {s t : State} (h : ¬ CompletesCommand s t)
    (hc : t.cmdCnt = s.cmdCnt) : Counted s t := ⟨fun hy => absurd hy h, fun _ => hc⟩

/-- No command executes where the phase is another. -/
theorem not_completesCommand_of_phase {s t : State} (h : ∀ w, s.phase ≠ .exec w) :
    ¬ CompletesCommand s t := fun ⟨⟨w, hw⟩, _⟩ => h w hw

theorem State.Inv.err_of_exec {s : State} (h : s.Inv) {w : Word} (hp : s.phase = .exec w) :
    s.err = false :=
  Bool.eq_false_iff.2 fun he => nomatch (busy_of_exec hp).symm.trans (h.errIdle he)

theorem counted_coreStep {s t : State} (hi : s.Inv) (h : coreStep s = .next t) : Counted s t := by
  rcases coreStep_cases h with ⟨hp, rfl⟩ | ⟨hp, rfl⟩ | ⟨w, i, u, hp, -, rfl, hw⟩ | ⟨w, v, e, -, rfl⟩
  · exact counted_of_not_completes
      (not_completesCommand_of_phase fun _ he => nomatch hp.symm.trans he) rfl
  · exact counted_of_not_completes
      (not_completesCommand_of_phase fun _ he => nomatch hp.symm.trans he) rfl
  · have c := hw.completes
    exact counted_of_completes ⟨⟨w, hp⟩, c.phase, c.frame.err.trans (hi.err_of_exec hp)⟩ c.cmdCnt
  · exact counted_of_not_completes (fun ⟨_, _, herr⟩ => nomatch herr) rfl

/-- Settles O27: only the commit of a command counts, and it ends a command without an error. -/
theorem cmdcntCountsCompletedCommands : Obligations.CmdcntCountsCompletedCommands := by
  refine ⟨rfl, fun s t hi hs hr => ?_⟩
  show Counted s t
  cases stepForm_of_step hs with
  | core rest turn hc => exact counted_coreStep (s := { s with pending := rest }) (hi.pending rest) hc
  | write o v rest hp =>
    obtain ⟨hc, hidle⟩ := hostWrite_cmdCnt (s := { s with pending := rest })
      fun ⟨ho, hv⟩ => hr (resetTurn_of_write hp ho hv)
    exact counted_of_not_completes (fun ⟨⟨w, hw⟩, ht, _⟩ => nomatch hw.symm.trans (hidle ht)) hc
  | read o rest hp =>
    exact counted_of_not_completes (fun ⟨⟨w, hw⟩, ht, _⟩ => nomatch hw.symm.trans ht) rfl
  | resetPin rest hp => exact absurd ⟨rest, .inl hp⟩ hr

end Sys2Proof.Machine
end

section
/-! What commands leave in scalar and point registers (10_state.md R34, R37). -/

namespace Sys2Proof.Machine

/-! ## Results, check by check -/

/-- Whatever state the result is, `Q` holds of it; `Writing s w` is the case of `WriteForm s w`. -/
def ResultHolds (Q : State → Prop) (r : Result) : Prop := ∀ u, r = .ok u → Q u

theorem resultHolds_ok {Q : State → Prop} {u : State} (h : Q u) : ResultHolds Q (.ok u) :=
  fun _ e => Except.ok.inj e ▸ h

theorem resultHolds_error (Q : State → Prop) (e : ErrorCause) : ResultHolds Q (.error e) :=
  fun _ h => nomatch h

/-- A check that is passed has held. Each check on an operand is a `require`. -/
theorem resultHolds_require {Q : State → Prop} {c : Bool} {e : ErrorCause} {r : Result}
    (h : c = true → ResultHolds Q r) : ResultHolds Q (require c e r) := by
  cases c with
  | true => exact h rfl
  | false => exact resultHolds_error Q e

theorem resultHolds_needSubTable {Q : State → Prop} {t : Byte} {k : Fin 32 → Result}
    (h : ∀ i, ResultHolds Q (k i)) : ResultHolds Q (needSubTable t k) := by
  rw [needSubTable_eq]
  split
  · exact h _
  · exact resultHolds_error Q _

/-! ## The frame of a command, whether it completes or raises -/

/-- A command completes on its destinations or takes the error path. -/
theorem exec_cases {i : Instr} {s t : State} (h : exec i s = .next t) :
    Completes (writesOf i) s t ∨ ∃ e, t = raiseError (encode i) e s := by
  rcases exec_form i s with ⟨u, he, hw⟩ | ⟨e, he⟩ <;> rw [he] at h
  · exact .inl (Host.Outcome.next.inj h ▸ hw.completes)
  · exact .inr ⟨e, (Host.Outcome.next.inj h).symm⟩

theorem exec_getS_of_not_mem {i : Instr} {s t : State} {r : Reg} (h : exec i s = .next t)
    (hr : r ∉ (writesOf i).sc) : t.getS r = s.getS r := by
  rcases exec_cases h with hc | ⟨e, rfl⟩
  · exact hc.frame.sc r hr
  · rfl

theorem exec_getP_of_not_mem {i : Instr} {s t : State} {r : Reg} (h : exec i s = .next t)
    (hr : r ∉ (writesOf i).p) : t.getP r = s.getP r := by
  rcases exec_cases h with hc | ⟨e, rfl⟩
  · exact hc.frame.p r hr
  · rfl

/-! ## Scalars (R34, R201) -/

theorem scReduced_lt (n : Nat) : (scReduced n).val < groupL :=
  lt_of_le_of_lt (Nat.mod_le _ _) (Nat.mod_lt n (by decide))

theorem scalarOfNat_lt {n : Nat} (h : n < groupL) : (Scalar.ofNat n).val < groupL :=
  lt_of_le_of_lt (Nat.mod_le _ _) h

theorem montgomeryMul_lt (x y : Scalar) : (montgomeryMul x y).val < groupL :=
  scalarOfNat_lt (Nat.mod_lt _ (by decide))

/-- Register `r` holds a canonical scalar. -/
def CanonicalAt (r : Reg) (s : State) : Prop := (s.getS r).val < groupL

theorem canonicalAt_setS {s : State} {d : Reg} {x : Scalar} (h : x.val < groupL) :
    CanonicalAt d (s.setS d x) := by
  rwa [CanonicalAt, getS_setS_self]

/-- A command whose result is canonical leaves a non-canonical scalar only where it raises. -/
theorem getS_eq_of_canonical {i : Instr} {s t : State} {d : Reg} {r : Result}
    (he : exec i s = finish i s r) (hr : ResultHolds (CanonicalAt d) r) (h : exec i s = .next t)
    (hn : groupL ≤ (t.getS d).val) : t.getS d = s.getS d := by
  rcases finish_cases (he ▸ h) with ⟨u, hu, rfl⟩ | ⟨e, -, rfl⟩
  · exact absurd hn (not_le.2 (hr u hu))
  · rfl

/-- The constants below index 2 are 0 and 1. -/
theorem scConst_lt {imm : Byte} (h : imm.toNat ≤ 2) (h2 : imm ≠ 2) :
    (Scalar.ofNat ([0, 1, groupL].getD imm.toNat 0)).val < groupL := by
  have hne : imm.toNat ≠ 2 := fun e => h2 (BitVec.eq_of_toNat_eq e)
  have : imm.toNat = 0 ∨ imm.toNat = 1 := by omega
  rcases this with h | h <;> rw [h] <;> exact scalarOfNat_lt (by decide)

/-- Settles O25: every other command that writes a scalar register writes a value mod ℓ. -/
theorem onlyTwoCommandsMakeNoncanonicalScalars :
    Obligations.OnlyTwoCommandsMakeNoncanonicalScalars := by
  intro i s t r h hn
  by_cases hr : r ∈ (writesOf i).sc
  swap
  · exact .inl (exec_getS_of_not_mem h hr)
  have reduced {d : Reg} {x : Result} (hd : r ∈ [d]) (he : exec i s = finish i s x)
      (hx : ResultHolds (CanonicalAt d) x) : t.getS r = s.getS r := by
    obtain rfl := List.mem_singleton.1 hd
    exact getS_eq_of_canonical he hx h hn
  cases i with
  | scLoad d hf =>
    exact .inl (reduced hr rfl (resultHolds_require fun _ => resultHolds_require fun _ =>
      resultHolds_require fun hlt => resultHolds_ok (canonicalAt_setS
        (scalarOfNat_lt (of_decide_eq_true hlt)))))
  | scLoadbits d hf =>
    obtain rfl := List.mem_singleton.1 hr
    exact .inr (.inl ⟨hf, rfl⟩)
  | scLoadwide =>
    exact .inl (reduced hr rfl (resultHolds_ok (canonicalAt_setS (scReduced_lt _))))
  | scMov d a =>
    obtain rfl := List.mem_singleton.1 hr
    obtain rfl := Host.Outcome.next.inj h
    exact .inr (.inr (.inr ⟨a, rfl, getS_setS_self _ _ _⟩))
  | scConst d imm =>
    by_cases h2 : imm = 2
    · obtain rfl := List.mem_singleton.1 hr
      exact .inr (.inr (.inl (h2 ▸ rfl)))
    · exact .inl (reduced hr rfl (resultHolds_require fun hle => resultHolds_ok
        (canonicalAt_setS (scConst_lt (of_decide_eq_true hle) h2))))
  | scAdd | scSub | scMul | scMuladd | scReduce =>
    exact .inl (reduced hr rfl (resultHolds_ok (canonicalAt_setS (scReduced_lt _))))
  | scMontmul =>
    exact .inl (reduced hr rfl (resultHolds_ok (canonicalAt_setS (montgomeryMul_lt _ _))))
  | _ => exact absurd hr List.not_mem_nil

/-! ## Points (R37) -/

/-- A PROJ or AN content with 0 in the slot its tag does not use. -/
def UnusedSlotZero (q : Point) : Prop := q.tag = .proj ∨ q.tag = .an → q.s3.val = 0

theorem unusedSlotZero_ofExt (e : Ext) : UnusedSlotZero (Point.ofExt e) :=
  fun h => h.elim (nomatch ·) (nomatch ·)

theorem unusedSlotZero_ofComp (c : Comp) : UnusedSlotZero (Point.ofComp c) :=
  fun h => h.elim (nomatch ·) (nomatch ·)

theorem unusedSlotZero_ofPn (q : Pn) : UnusedSlotZero (Point.ofPn q) :=
  fun h => h.elim (nomatch ·) (nomatch ·)

theorem unusedSlotZero_ofProj (q : Proj) : UnusedSlotZero (Point.ofProj q) := fun _ => rfl

theorem unusedSlotZero_ofAn (q : An) : UnusedSlotZero (Point.ofAn q) := fun _ => rfl

/-- Register `r` has 0 in the slot its tag does not use. -/
def UnusedZeroAt (r : Reg) (s : State) : Prop := UnusedSlotZero (s.getP r)

theorem unusedZeroAt_setP {s : State} {d : Reg} {q : Point} (h : UnusedSlotZero q) :
    UnusedZeroAt d (s.setP d q) := by
  rwa [UnusedZeroAt, getP_setP_self]

theorem unusedZeroAt_setP_ofExt (s : State) (d : Reg) (e : Ext) :
    ResultHolds (UnusedZeroAt d) (.ok (s.setP d (Point.ofExt e))) :=
  resultHolds_ok (unusedZeroAt_setP (unusedSlotZero_ofExt e))

/-- A command whose result has unused slots 0 fills one only where it raises. -/
theorem getP_eq_of_unusedZero {i : Instr} {s t : State} {d : Reg} {r : Result}
    (he : exec i s = finish i s r) (hr : ResultHolds (UnusedZeroAt d) r) (h : exec i s = .next t)
    (ht : (t.getP d).tag = .proj ∨ (t.getP d).tag = .an) (hn : (t.getP d).s3.val ≠ 0) :
    t.getP d = s.getP d := by
  rcases finish_cases (he ▸ h) with ⟨u, hu, rfl⟩ | ⟨e, -, rfl⟩
  · exact absurd (hr u hu ht) hn
  · rfl

theorem unusedSlotZero_ptConst {imm : Byte} (h : imm.toNat ≤ 4) :
    UnusedSlotZero (ptConstRom.getD imm.toNat (Point.ofExt extIdentity)) := by
  have : ∀ q ∈ ptConstRom, UnusedSlotZero q := by
    intro q hq
    simp only [ptConstRom, List.mem_cons, List.not_mem_nil, or_false] at hq
    rcases hq with rfl | rfl | rfl | rfl | rfl
    · exact unusedSlotZero_ofExt _
    · exact unusedSlotZero_ofExt _
    · exact unusedSlotZero_ofProj _
    · exact unusedSlotZero_ofPn _
    · exact unusedSlotZero_ofAn _
  have hl : imm.toNat < ptConstRom.length := Nat.lt_succ_of_le h
  rw [List.getD_eq_getElem _ _ hl]
  exact this _ (List.getElem_mem hl)

/-- Settles O26: every other command that writes a point register writes one of the five typed forms. -/
theorem onlyFourCommandsFillUnusedSlots : Obligations.OnlyFourCommandsFillUnusedSlots := by
  intro i s t r h ht hn
  by_cases hr : r ∈ (writesOf i).p
  swap
  · exact .inl (exec_getP_of_not_mem h hr)
  have clean {d : Reg} {x : Result} (hd : r ∈ [d]) (he : exec i s = finish i s x)
      (hx : ResultHolds (UnusedZeroAt d) x) : t.getP r = s.getP r := by
    obtain rfl := List.mem_singleton.1 hd
    exact getP_eq_of_unusedZero he hx h ht hn
  cases i with
  | ptSet d a imm =>
    obtain rfl := List.mem_singleton.1 hr
    exact .inr (.inl ⟨a, imm, rfl⟩)
  | ptSettag d imm =>
    obtain rfl := List.mem_singleton.1 hr
    exact .inr (.inr (.inl ⟨imm, rfl⟩))
  | ptMov d a =>
    obtain rfl := List.mem_singleton.1 hr
    exact .inr (.inr (.inr (.inl ⟨a, rfl⟩)))
  | ptSel d a b c =>
    obtain rfl := List.mem_singleton.1 hr
    exact .inr (.inr (.inr (.inr ⟨a, b, c, rfl⟩)))
  | ptConst d imm =>
    exact .inl (clean hr rfl (resultHolds_require fun hle => resultHolds_ok
      (unusedZeroAt_setP (unusedSlotZero_ptConst (of_decide_eq_true hle)))))
  | ptNeg d a =>
    refine .inl (clean hr rfl ?_)
    split
    · exact unusedZeroAt_setP_ofExt s d _
    · exact resultHolds_ok (unusedZeroAt_setP (unusedSlotZero_ofPn _))
    · exact resultHolds_ok (unusedZeroAt_setP (unusedSlotZero_ofAn _))
    · exact resultHolds_error _ _
    · exact resultHolds_error _ _
  | edBmul | riMap | riFromuni =>
    exact .inl (clean hr rfl (unusedZeroAt_setP_ofExt s _ _))
  | projToExt | compToExt | pnToExt | anToExt | edDbl | edSmul | edVtdbl =>
    exact .inl (clean hr rfl (resultHolds_require fun _ => unusedZeroAt_setP_ofExt s _ _))
  | edAdd | edSub | edMulpow2 =>
    exact .inl (clean hr rfl (resultHolds_require fun _ => resultHolds_require fun _ =>
      unusedZeroAt_setP_ofExt s _ _))
  | extToProj | compToProj =>
    exact .inl (clean hr rfl (resultHolds_require fun _ => resultHolds_ok
      (unusedZeroAt_setP (unusedSlotZero_ofProj _))))
  | extToAn =>
    exact .inl (clean hr rfl (resultHolds_require fun _ => resultHolds_ok
      (unusedZeroAt_setP (unusedSlotZero_ofAn _))))
  | extToPn | lutSel | nlutSel =>
    exact .inl (clean hr rfl (resultHolds_require fun _ => resultHolds_ok
      (unusedZeroAt_setP (unusedSlotZero_ofPn _))))
  | projDbl =>
    exact .inl (clean hr rfl (resultHolds_require fun _ => resultHolds_ok
      (unusedZeroAt_setP (unusedSlotZero_ofComp _))))
  | extAddPn | extSubPn | extAddAn | extSubAn =>
    exact .inl (clean hr rfl (resultHolds_require fun _ => resultHolds_require fun _ =>
      resultHolds_ok (unusedZeroAt_setP (unusedSlotZero_ofComp _))))
  | btSel =>
    exact .inl (clean hr rfl (resultHolds_needSubTable fun _ => resultHolds_require fun _ =>
      resultHolds_ok (unusedZeroAt_setP (unusedSlotZero_ofAn _))))
  | edDecode d hf =>
    refine .inl (clean hr rfl (resultHolds_require fun _ => ?_))
    cases edDecompress (s.readHalf hf) with
    | some e => exact unusedZeroAt_setP_ofExt s _ e
    | none => exact resultHolds_error _ _
  | riDecode d hf =>
    refine .inl (clean hr rfl (resultHolds_require fun _ => ?_))
    cases riDecompress (s.readHalf hf) with
    | element e => exact unusedZeroAt_setP_ofExt s _ e
    | noncanonicalOrNeg | invalid => exact resultHolds_error _ _
  | _ => exact absurd hr List.not_mem_nil

end Sys2Proof.Machine
end

section
/-! What no command observes: the tables, but for their readers, and the model's own fields (10_state.md R50 to
R52, R55, R56). -/

namespace Sys2Proof.Machine

/-- Values for the table memories (R50 to R52) and for the fields the model adds (log 1, 4, 5). -/
structure Hidden where
  lut : Vector Pn 8
  nlut : Vector Pn 8
  bt : Vector (Vector An 8) 32
  pending : List HostEvent
  rdata : Word
  draws : Nat

/-- The state with the tables and the model's own fields replaced. -/
def Hidden.over (h : Hidden) (s : State) : State :=
  { s with
    lut := h.lut, nlut := h.nlut, bt := h.bt, pending := h.pending, rdata := h.rdata,
    draws := h.draws }

/-- The state with them replaced, except the tables among the destinations `w`. -/
def Hidden.overBut (h : Hidden) (w : Writes) (s : State) : State :=
  { s with
    lut := cond w.lut s.lut h.lut
    nlut := cond w.nlut s.nlut h.nlut
    bt := cond w.bt s.bt h.bt
    pending := h.pending, rdata := h.rdata, draws := h.draws }

/-- The commands that read a table: LUT_SEL, NLUT_SEL, BT_SEL and ED_BMUL. -/
def readsTables : Instr → Bool
  | .lutSel _ _ | .nlutSel _ _ | .btSel _ _ _ | .edBmul _ _ => true
  | _ => false

/-- `h` has the tables of `s`. -/
def Hidden.SameTables (h : Hidden) (s : State) : Prop :=
  h.lut = s.lut ∧ h.nlut = s.nlut ∧ h.bt = s.bt

/-! ## Results that follow each other -/

/-- `r'` is the result `r` with `φ` applied to the state it gives. -/
def Follows (φ : State → State) (r r' : Result) : Prop := r' = r.map φ

theorem follows_ok (φ : State → State) (u : State) : Follows φ (.ok u) (.ok (φ u)) := rfl

theorem follows_error (φ : State → State) (e : ErrorCause) : Follows φ (.error e) (.error e) := rfl

/-- A check of what `φ` keeps comes out the same. Each check on an operand is a `require`. -/
theorem follows_require {φ : State → State} {c : Bool} {e : ErrorCause} {r r' : Result}
    (h : Follows φ r r') : Follows φ (require c e r) (require c e r') := by
  cases c with
  | true => exact h
  | false => exact follows_error φ e

theorem follows_needSubTable {φ : State → State} {t : Byte} {k k' : Fin 32 → Result}
    (h : ∀ i, Follows φ (k i) (k' i)) : Follows φ (needSubTable t k) (needSubTable t k') := by
  rw [needSubTable_eq, needSubTable_eq]
  split
  · exact h _
  · exact follows_error φ _

theorem over_getP (h : Hidden) (s : State) (r : Reg) : (h.over s).getP r = s.getP r := rfl

theorem over_readHalf (h : Hidden) (s : State) (hf : HalfField) :
    (h.over s).readHalf hf = s.readHalf hf := rfl

/-- A change of BUF and DIG alone follows. -/
theorem follows_mem (h : Hidden) (s : State) (m : List Host.Cell) (l : List (Nat × Nat)) :
    Follows (h.overBut { bytes := l }) (.ok { s with mem := m }) (.ok { h.over s with mem := m }) :=
  follows_ok _ _

theorem follows_writeHalf (h : Hidden) (s : State) (hf : HalfField) (v : Nat) :
    Follows (h.overBut { bytes := [halfBytes hf] }) (.ok (s.writeHalf hf v))
      (.ok ((h.over s).writeHalf hf v)) := by
  simp only [State.writeHalf]
  exact follows_mem h s (writeLE s.mem (halfBase hf) 32 v) _

theorem follows_writeDig (h : Hidden) (s : State) (e : List Int) :
    Follows (h.overBut { bytes := [digRun] }) (.ok (s.writeDig e)) (.ok ((h.over s).writeDig e)) :=
  follows_mem h s (writeBytes s.mem digBase (digBytes e)) _

/-- A command does in `h.over s` what it does in `s`, but that its result stands over `h`. -/
def ExecFollows (h : Hidden) (i : Instr) (s : State) : Prop :=
  ∃ r r', exec i s = finish i s r ∧ exec i (h.over s) = finish i (h.over s) r' ∧
    Follows (h.overBut (writesOf i)) r r'

/-- Every command follows, a reader of the tables where `h` has the tables of `s`. The cases are grouped by how
many checks stand before the result. -/
theorem execFollows (h : Hidden) (i : Instr) (s : State)
    (hr : readsTables i = true → h.SameTables s) : ExecFollows h i s := by
  cases i with
  | nop | kNot | kAnd | kOr | kXor | bufEq | feMov | feAdd | feSub | feNeg | feMul | feSq | feSq2
  | feInv | fePowp58 | feSel | feIsneg | feIszero | feEq | feCtabs | feSqrtratio | scLoadwide
  | scMov | scAdd | scSub | scMul | scMuladd | scReduce | scMontmul | scEq
  | ptMov | riMap | riFromuni => exact ⟨_, _, rfl, rfl, follows_ok _ _⟩
  | kSet | bufBit | feLoad | feConst | scLoadbits | scConst | ptConst | ptGet
  | ptSet | ptSettag | ptSel | extToProj | extToPn | extToAn | projToExt | compToProj | compToExt
  | pnToExt | anToExt | projDbl | edDbl | edIsident | edIssmall | edIstf | lutBuild | nlutBuild
  | btBuild | edSmul | edVtdbl => exact ⟨_, _, rfl, rfl, follows_require (follows_ok _ _)⟩
  | extAddPn | extSubPn | extAddAn | extSubAn | edAdd | edSub | edMulpow2 | edEq | riEq =>
    exact ⟨_, _, rfl, rfl, follows_require (follows_require (follows_ok _ _))⟩
  | scLoad =>
    exact ⟨_, _, rfl, rfl,
      follows_require (follows_require (follows_require (follows_ok _ _)))⟩
  | feStore | scStore => exact ⟨_, _, rfl, rfl, follows_require (follows_writeHalf _ _ _ _)⟩
  | edEncode | riEncode =>
    exact ⟨_, _, rfl, rfl, follows_require (follows_require (follows_writeHalf _ _ _ _))⟩
  | scRadix16 | scNaf5 => exact ⟨_, _, rfl, rfl, follows_writeDig _ _ _⟩
  | ptNeg d a =>
    refine ⟨_, _, rfl, rfl, ?_⟩
    rw [over_getP]
    cases (s.getP a).tag with
    | ext | pn | an => exact follows_ok _ _
    | proj | comp => exact follows_error _ _
  | edDecode d hf =>
    refine ⟨_, _, rfl, rfl, follows_require ?_⟩
    rw [over_readHalf]
    cases edDecompress (s.readHalf hf) with
    | some e => exact follows_ok _ _
    | none => exact follows_error _ _
  | riDecode d hf =>
    refine ⟨_, _, rfl, rfl, follows_require ?_⟩
    rw [over_readHalf]
    cases riDecompress (s.readHalf hf) with
    | element e => exact follows_ok _ _
    | noncanonicalOrNeg | invalid => exact follows_error _ _
  | lutSel | nlutSel =>
    obtain ⟨l, n, b, e, x, m⟩ := h
    obtain ⟨rfl, rfl, rfl⟩ := hr rfl
    exact ⟨_, _, rfl, rfl, follows_require (follows_ok _ _)⟩
  | btSel =>
    obtain ⟨l, n, b, e, x, m⟩ := h
    obtain ⟨rfl, rfl, rfl⟩ := hr rfl
    exact ⟨_, _, rfl, rfl, follows_needSubTable fun _ => follows_require (follows_ok _ _)⟩
  | edBmul =>
    obtain ⟨l, n, b, e, x, m⟩ := h
    obtain ⟨rfl, rfl, rfl⟩ := hr rfl
    exact ⟨_, _, rfl, rfl, follows_ok _ _⟩

/-- What a command gives in `h.over s`, from what it gives in `s`. -/
theorem exec_over {h : Hidden} {i : Instr} {s t : State}
    (hr : readsTables i = true → h.SameTables s) (ht : exec i s = .next t) :
    exec i (h.over s) = .next (h.overBut (writesOf i) t) ∨
      ∃ e, t = raiseError (encode i) e s ∧ exec i (h.over s) = .next (h.over t) := by
  obtain ⟨r, r', he, he', rfl⟩ := execFollows h i s hr
  rw [he']
  rcases finish_cases (he ▸ ht) with ⟨u, rfl, rfl⟩ | ⟨e, rfl, rfl⟩
  · exact .inl rfl
  · exact .inr ⟨e, rfl, rfl⟩

/-! ## What a command keeps of the hidden fields -/

/-- The model's own fields and the tables not among the destinations `w` are as before. -/
structure KeepsHidden (w : Writes) (s t : State) : Prop where
  lut : w.lut = false → t.lut = s.lut
  nlut : w.nlut = false → t.nlut = s.nlut
  bt : w.bt = false → t.bt = s.bt
  pending : t.pending = s.pending
  rdata : t.rdata = s.rdata
  draws : t.draws = s.draws

theorem exec_keepsHidden {i : Instr} {s t : State} (h : exec i s = .next t) :
    KeepsHidden (writesOf i) s t := by
  rcases exec_cases h with hc | ⟨e, rfl⟩
  · have f := hc.frame
    exact ⟨f.lut, f.nlut, f.bt, f.pending, f.rdata, f.draws⟩
  · exact ⟨fun _ => rfl, fun _ => rfl, fun _ => rfl, rfl, rfl, rfl⟩

theorem lutBuild_of_writesOf {i : Instr} (h : (writesOf i).lut = true) : ∃ a, i = .lutBuild a := by
  cases i with
  | lutBuild a => exact ⟨a, rfl⟩
  | _ => cases h

theorem nlutBuild_of_writesOf {i : Instr} (h : (writesOf i).nlut = true) :
    ∃ a, i = .nlutBuild a := by
  cases i with
  | nlutBuild a => exact ⟨a, rfl⟩
  | _ => cases h

theorem btBuild_of_writesOf {i : Instr} (h : (writesOf i).bt = true) : ∃ a, i = .btBuild a := by
  cases i with
  | btBuild a => exact ⟨a, rfl⟩
  | _ => cases h

theorem readsTables_eq_false {i : Instr} (h1 : ∀ d imm, i ≠ .lutSel d imm)
    (h2 : ∀ d imm, i ≠ .nlutSel d imm) (h3 : ∀ d x imm, i ≠ .btSel d x imm)
    (h4 : ∀ d a, i ≠ .edBmul d a) : readsTables i = false := by
  cases i with
  | lutSel d imm => exact absurd rfl (h1 d imm)
  | nlutSel d imm => exact absurd rfl (h2 d imm)
  | btSel d x imm => exact absurd rfl (h3 d x imm)
  | edBmul d a => exact absurd rfl (h4 d a)
  | _ => rfl

theorem cond_eq_right_or {α : Type} {b : Bool} {x y : α} {P : Prop} (h : b = true → P) :
    cond b x y = y ∨ (cond b x y = x ∧ P) := by
  cases b with
  | false => exact .inl rfl
  | true => exact .inr ⟨rfl, h rfl⟩

theorem cond_eq_left {α : Type} {b : Bool} {x y : α} (h : b = false → x = y) :
    cond b x y = x := by
  cases b with
  | false => exact (h rfl).symm
  | true => rfl

/-! ## The obligations -/

/-- Settles O28: over other tables a command that reads none gives the same, and its own build the same
content. -/
theorem tablesAreReadOnlyByTheirSelects : Obligations.TablesAreReadOnlyByTheirSelects := by
  intro i s t l n b h1 h2 h3 h4 ht
  have hr : readsTables i = false := readsTables_eq_false h1 h2 h3 h4
  have hk := exec_keepsHidden ht
  rcases exec_over (h := ⟨l, n, b, s.pending, s.rdata, s.draws⟩) (fun h => nomatch hr.symm.trans h) ht
    with ho | ⟨e, rfl, ho⟩
  · refine ⟨_, _, _, ho.trans ?_, cond_eq_right_or lutBuild_of_writesOf,
      cond_eq_right_or nlutBuild_of_writesOf, cond_eq_right_or btBuild_of_writesOf⟩
    rw [Hidden.overBut, ← hk.pending, ← hk.rdata, ← hk.draws]
  · exact ⟨l, n, b, ho, .inl rfl, .inl rfl, .inl rfl⟩

/-- Settles O29: over the state's own tables every command, the readers included, follows. -/
theorem commandsDoNotObserveTheModelsOwnFields :
    Obligations.CommandsDoNotObserveTheModelsOwnFields := by
  intro i s t e x n ht
  have hk := exec_keepsHidden ht
  rcases exec_over (h := ⟨s.lut, s.nlut, s.bt, e, x, n⟩) (fun _ => ⟨rfl, rfl, rfl⟩) ht
    with ho | ⟨c, rfl, ho⟩
  · rw [Hidden.overBut, cond_eq_left hk.lut, cond_eq_left hk.nlut, cond_eq_left hk.bt] at ho
    exact ho
  · exact ho

end Sys2Proof.Machine
end

section
/-! The host's BUF and DIG window and the table memories (20_memory.md R71 to R89). -/

namespace Sys2Proof.Machine

/-! ## Host reads (R71 to R75, R79, R80) -/

theorem step_read {s : State} {o : Offset} {rest : List HostEvent} (h : s.pending = .read o :: rest) :
    step s = .next (hostRead o { s with pending := rest }) := step_cons h

theorem inBuf_iff {a : Nat} : inBuf a = true ↔ 0x100 ≤ a ∧ a < 0x140 := by
  simp only [inBuf, Bool.and_eq_true, decide_eq_true_eq]

theorem inDig_iff {a : Nat} : inDig a = true ↔ 0x200 ≤ a ∧ a < 0x300 := by
  simp only [inDig, Bool.and_eq_true, decide_eq_true_eq]

theorem inBuf_or_inDig_iff {a : Nat} :
    (inBuf a || inDig a) = true ↔ (0x100 ≤ a ∧ a < 0x140) ∨ (0x200 ≤ a ∧ a < 0x300) := by
  rw [Bool.or_eq_true, inBuf_iff, inDig_iff]

theorem hostReadValue_misaligned {o : Offset} (s : State) (h : o.toNat % 4 ≠ 0) :
    hostReadValue o s = 0 := by
  rw [hostReadValue, if_pos h]

/-- Past ID a read is one of BUF or DIG, or answers 0. -/
theorem hostReadValue_of_ge {o : Offset} (s : State) (ha : o.toNat % 4 = 0) (h : 0x018 ≤ o.toNat) :
    hostReadValue o s =
      if inBuf o.toNat || inDig o.toNat then
        if busy s then Config.freeRead s.draws else BitVec.ofNat 32 (readLE s.mem o.toNat 4)
      else 0 := by
  rw [hostReadValue, if_neg (not_not.2 ha), if_neg (by omega), if_neg (by omega), if_neg (by omega),
    if_neg (by omega), if_neg (by omega), if_neg (by omega)]

theorem hostReadValue_reserved {o : Offset} (s : State) (ha : o.toNat % 4 = 0)
    (h : 0x018 ≤ o.toNat) (hn : ¬ ((inBuf o.toNat || inDig o.toNat) = true)) :
    hostReadValue o s = 0 := by
  rw [hostReadValue_of_ge s ha h, if_neg hn]

theorem hostReadValue_window {o : Offset} {s : State} (ha : o.toNat % 4 = 0) (h : 0x018 ≤ o.toNat)
    (hw : (inBuf o.toNat || inDig o.toNat) = true) (hb : busy s = false) :
    hostReadValue o s = BitVec.ofNat 32 (readLE s.mem o.toNat 4) := by
  rw [hostReadValue_of_ge s ha h, if_pos hw, if_neg (Bool.eq_false_iff.1 hb)]

/-- Byte j of the word read at a is the byte at a + j (R75). -/
theorem extractLsb'_readLE (m : List Host.Cell) (a : Nat) {j : Nat} (hj : j < 4) :
    (BitVec.ofNat 32 (readLE m a 4)).extractLsb' (8 * j) 8 = memRead m (a + j) := by
  refine extractLsb'_eq_of_toNat ?_
  have hlt : readLE m a 4 < 2 ^ 32 := lt_of_lt_of_eq (readLE_lt m a 4) (by norm_num)
  rw [BitVec.toNat_ofNat, Nat.mod_eq_of_lt hlt, Nat.pow_mul]
  exact readLE_byte m a 4 j hj

/-- Settles O17: the answer is the branch of `hostReadValue` for the offset's class. -/
theorem hostReadAnswersAndChangesNothing : Obligations.HostReadAnswersAndChangesNothing := by
  intro s o rest hp
  refine ⟨_, step_read hp, rfl, fun h => hostReadValue_misaligned _ h, fun h => h ▸ rfl,
    fun h => h ▸ rfl, fun h => h ▸ rfl, fun h => h ▸ rfl, fun h => h ▸ rfl, fun h => h ▸ rfl,
    fun ha h => ?_, fun ha h hb j hj => ?_⟩
  · exact hostReadValue_reserved _ ha (by omega) (by rw [inBuf_or_inDig_iff]; omega)
  · have hv := hostReadValue_window (s := { s with pending := rest }) ha (by omega)
      (inBuf_or_inDig_iff.2 h) hb
    exact (congrArg _ hv).trans (extractLsb'_readLE s.mem o.toNat hj)

/-! ## Host writes (R71 to R73, R75, R80, R81) -/

theorem hostWrite_misaligned {o : Offset} (v : Word) (s : State) (h : o.toNat % 4 ≠ 0) :
    hostWrite o v s = s := by
  rw [hostWrite, if_pos h]

/-- An aligned write that is none of CMD and CTRL reaches BUF or nothing. -/
theorem hostWrite_of_ne {o : Offset} (v : Word) (s : State) (ha : o.toNat % 4 = 0)
    (h0 : o.toNat ≠ 0x000) (h8 : o.toNat ≠ 0x008) :
    hostWrite o v s = if inBuf o.toNat then writeBufWord o.toNat v s else s := by
  rw [hostWrite, if_neg (not_not.2 ha), if_neg h0, if_neg h8]

theorem hostWrite_buf {o : Offset} (v : Word) (s : State) (ha : o.toNat % 4 = 0)
    (lo : 0x100 ≤ o.toNat) (hi : o.toNat < 0x140) :
    hostWrite o v s = writeBufWord o.toNat v s := by
  rw [hostWrite_of_ne v s ha (by omega) (by omega), if_pos (inBuf_iff.2 ⟨lo, hi⟩)]

theorem hostWrite_ignored {o : Offset} (v : Word) (s : State) (h0 : o ≠ 0x000) (h8 : o ≠ 0x008)
    (hb : o.toNat < 0x100 ∨ 0x140 ≤ o.toNat) : hostWrite o v s = s := by
  by_cases ha : o.toNat % 4 = 0
  · rw [hostWrite_of_ne v s ha (BitVec.toNat_ne.1 h0) (BitVec.toNat_ne.1 h8),
      if_neg (by rw [inBuf_iff]; omega)]
  · exact hostWrite_misaligned v s ha

theorem writeBufWord_busy {s : State} (o : Nat) (v : Word) (hb : busy s = true) :
    writeBufWord o v s = { s with ovf := true } := by
  rw [writeBufWord, if_pos hb]

theorem writeBufWord_idle {s : State} (o : Nat) (v : Word) (hb : busy s = false) :
    writeBufWord o v s = { s with mem := writeLE s.mem o 4 v.toNat } := by
  rw [writeBufWord, if_neg (Bool.eq_false_iff.1 hb)]

/-- Byte j of the word written at a stands at a + j (R75). -/
theorem memRead_writeLE_word {m : List Host.Cell} (hm : Memory.wf m = true) (a : Nat) (v : Word)
    {j : Nat} (hj : j < 4) :
    memRead (writeLE m a 4 v.toNat) (a + j) = v.extractLsb' (8 * j) 8 := by
  rw [memRead_writeLE hm a 4 v.toNat j hj]
  refine (extractLsb'_eq_of_toNat ?_).symm
  rw [BitVec.toNat_ofNat, Nat.pow_mul]
  exact (Nat.mod_mod _ 256).symm

/-- Settles O18: the two branches of `writeBufWord`, and what four bytes written read as. -/
theorem bufWriteStoresFourBytes : Obligations.BufWriteStoresFourBytes := by
  intro s o v rest hp ha lo hi
  rw [step_write hp, hostWrite_buf v _ ha lo hi]
  refine ⟨fun hb => congrArg _ (writeBufWord_busy o.toNat v hb), fun hb hm => ?_⟩
  exact ⟨_, congrArg _ (writeBufWord_idle o.toNat v hb), rfl,
    fun j hj => memRead_writeLE_word hm o.toNat v hj,
    fun a h => memRead_writeLE_out s.mem o.toNat 4 v.toNat a h⟩

/-- Settles O19: such a write takes no branch of `hostWrite` that has an effect. -/
theorem otherHostWritesAreIgnored : Obligations.OtherHostWritesAreIgnored := by
  intro s o v rest hp h
  rw [step_write hp]
  rcases h with ha | ⟨h0, h8, hb⟩
  · exact congrArg _ (hostWrite_misaligned v _ ha)
  · exact congrArg _ (hostWrite_ignored v _ h0 h8 hb)

/-! ## The table memories (R87, R89, R412) -/

/-- A table that has changed is among the destinations `w`. -/
structure TablesChangedIn (w : Writes) (s t : State) : Prop where
  lut : t.lut ≠ s.lut → w.lut = true
  nlut : t.nlut ≠ s.nlut → w.nlut = true
  bt : t.bt ≠ s.bt → w.bt = true

theorem Frame.tablesChangedIn {w : Writes} {s t : State} (h : Frame w s t) :
    TablesChangedIn w s t where
  lut hn := Bool.eq_true_of_not_eq_false (mt h.lut hn)
  nlut hn := Bool.eq_true_of_not_eq_false (mt h.nlut hn)
  bt hn := Bool.eq_true_of_not_eq_false (mt h.bt hn)

theorem tablesChangedIn_of_eq {w : Writes} {s t : State} (lut : t.lut = s.lut)
    (nlut : t.nlut = s.nlut) (bt : t.bt = s.bt) : TablesChangedIn w s t :=
  ⟨fun hn => absurd lut hn, fun hn => absurd nlut hn, fun hn => absurd bt hn⟩

theorem TablesChangedIn.of_pending {w : Writes} {s t : State} {l : List HostEvent}
    (h : TablesChangedIn w { s with pending := l } t) : TablesChangedIn w s t :=
  ⟨h.lut, h.nlut, h.bt⟩

theorem tablesChangedIn_endInit (s : State) : TablesChangedIn { bt := true } s (endInit s) :=
  ⟨fun hn => absurd rfl hn, fun hn => absurd rfl hn, fun _ => rfl⟩

/-- A host write that is no reset changes no table (R89). -/
theorem tablesChangedIn_hostWrite {o : Offset} {v : Word} (s : State)
    (hr : ¬ (o = 0x008 ∧ v.getLsbD 0 = true)) : TablesChangedIn {} s (hostWrite o v s) := by
  rcases hostWrite_cases o v s with e | ⟨-, e⟩ | ⟨-, -, -, e⟩ | ⟨-, -, -, e⟩ | ⟨ho, hv, -⟩ |
    ⟨-, -, e⟩ | ⟨-, -, -, e⟩
  case inr.inr.inr.inr.inl => exact absurd ⟨ho, hv⟩ hr
  all_goals rw [e]; exact tablesChangedIn_of_eq rfl rfl rfl

/-- A step that is no reset changes no table, or ends INIT and may change BT, or completes a command and may
change the tables among its destinations. -/
theorem step_tables {s t : State} (hs : step s = .next t) (hr : ¬ ResetTurn s) :
    TablesChangedIn {} s t ∨
    (CoreTurn s ∧ s.phase = .init ∧ TablesChangedIn { bt := true } s t) ∨
    ∃ i, Executes i s ∧ TablesChangedIn (writesOf i) s t := by
  cases stepForm_of_step hs with
  | core rest turn hc =>
    rcases coreStep_cases hc with ⟨hp, rfl⟩ | ⟨-, rfl⟩ | ⟨w, i, u, hp, hd, rfl, hw⟩ | ⟨w, v, e, -, rfl⟩
    · exact .inr (.inl ⟨turn, hp, (tablesChangedIn_endInit _).of_pending⟩)
    · exact .inl (tablesChangedIn_of_eq rfl rfl rfl)
    · exact .inr (.inr ⟨i, ⟨turn, w, hp, hd⟩, hw.completes.frame.tablesChangedIn.of_pending⟩)
    · exact .inl (tablesChangedIn_of_eq rfl rfl rfl)
  | write o v rest hp =>
    have hw := tablesChangedIn_hostWrite { s with pending := rest }
      fun ⟨ho, hv⟩ => hr (resetTurn_of_write hp ho hv)
    exact .inl hw.of_pending
  | read o rest hp => exact .inl (tablesChangedIn_of_eq rfl rfl rfl)
  | resetPin rest hp => exact absurd ⟨rest, .inl hp⟩ hr

/-- Settles O23: the only commands with a table among their destinations are the three builds. -/
theorem tablesChangeOnlyByBuildsAndReset : Obligations.TablesChangeOnlyByBuildsAndReset := by
  intro s t hs
  by_cases hr : ResetTurn s
  · exact ⟨fun _ => .inl hr, fun _ => .inl hr, fun _ => .inl hr⟩
  rcases step_tables hs hr with h | ⟨turn, hp, h⟩ | ⟨i, hi, h⟩
  · exact ⟨fun hn => (nomatch h.lut hn), fun hn => (nomatch h.nlut hn), fun hn => (nomatch h.bt hn)⟩
  · exact ⟨fun hn => (nomatch h.lut hn), fun hn => (nomatch h.nlut hn),
      fun _ => .inr (.inl ⟨turn, hp⟩)⟩
  · refine ⟨fun hn => .inr ?_, fun hn => .inr ?_, fun hn => .inr (.inr ?_)⟩
    · obtain ⟨a, rfl⟩ := lutBuild_of_writesOf (h.lut hn)
      exact ⟨a, hi⟩
    · obtain ⟨a, rfl⟩ := nlutBuild_of_writesOf (h.nlut hn)
      exact ⟨a, hi⟩
    · obtain ⟨a, rfl⟩ := btBuild_of_writesOf (h.bt hn)
      exact ⟨a, hi⟩

end Sys2Proof.Machine
end

section
/-! The decoder against the opcode map (30_encoding.md R101 to R112): what it does with a word whose opcode has a row,
and with a word whose opcode has none. -/

namespace Sys2Proof

/-! ## The immediate and the sub-table index (R101, R105) -/

theorem fieldImm_toNat (w : Word) : (fieldImm w).toNat = w.toNat / 2 ^ 24 % 256 := by
  rw [fieldImm, BitVec.toNat_ofNat]
  exact Nat.mod_mod _ _

/-- The low half of the sub-table index stands where b does. -/
theorem fieldT_mod (w : Word) : (fieldT w).toNat % 16 = (fieldB w).val := by
  simp only [fieldT, fieldB, BitVec.toNat_ofNat]
  omega

/-- The high half of the sub-table index stands where c does. -/
theorem fieldT_div (w : Word) : (fieldT w).toNat / 16 = (fieldC w).val := by
  simp only [fieldT, fieldC, BitVec.toNat_ofNat]
  omega

theorem unusedZero_of_nonzero {l : List Nat} {x : Nat} (i : Instr) (hx : x ∈ l) (h : x ≠ 0) :
    unusedZero l i = .error .reserved :=
  if_neg fun hall => h (beq_iff_eq.1 (List.all_eq_true.1 hall x hx))

end Sys2Proof

namespace Sys2Proof.Machine

@[simp] theorem bitsD_of (w : Word) : bitsD.of w = (fieldD w).val := rfl
@[simp] theorem bitsA_of (w : Word) : bitsA.of w = (fieldA w).val := rfl
@[simp] theorem bitsB_of (w : Word) : bitsB.of w = (fieldB w).val := rfl
@[simp] theorem bitsC_of (w : Word) : bitsC.of w = (fieldC w).val := rfl
@[simp] theorem bitsImm_of (w : Word) : bitsImm.of w = (fieldImm w).toNat := (fieldImm_toNat w).symm

/-! ## Words whose opcode has a row (R106, R107) -/

/-- The decoder reads a word that has the opcode of `r` as some command, checks the unused fields of the row, and
where they are 0 the word is the encoding of that command. -/
def DecodesByRow (w : Word) (r : OpcodeRow) : Prop :=
  fieldOp w = r.op → ∃ i, decode w = unusedZero (r.unused.map (·.of w)) i ∧
    ((∀ q ∈ r.unused, q.of w = 0) → encode i = w)

theorem decodesByRow_intro {w : Word} {op : Nat} {unused : List BitField} {i : Instr}
    (decodes : fieldOp w = op → decode w = unusedZero (unused.map (·.of w)) i)
    (encodes : fieldOp w = op → (∀ q ∈ unused, q.of w = 0) →
      encode i = packWord (fieldOp w) (fieldD w).val (fieldA w).val (fieldB w).val (fieldC w).val
        (fieldImm w).toNat) : DecodesByRow w ⟨op, unused⟩ :=
  fun ho => ⟨i, decodes ho, fun h0 => (encodes ho h0).trans (packWord_fields w)⟩

/-- Each of the 85 rows is an arm of the decoder and an arm of the encoder. -/
theorem decodesByRow_of_mem (w : Word) {r : OpcodeRow} (hr : r ∈ opcodeRows) : DecodesByRow w r := by
  fin_cases hr <;>
  · apply decodesByRow_intro
    case decodes =>
      intro ho
      simp only [List.map_cons, List.map_nil, bitsD_of, bitsA_of, bitsB_of, bitsC_of, bitsImm_of]
      rw [decode, ho]
      rfl
    case encodes =>
      intro ho h0
      simp only [List.forall_mem_cons, bitsD_of, bitsA_of, bitsB_of, bitsC_of, bitsImm_of] at h0
      simp only [encode, ho, h0, fieldT_mod, fieldT_div]

/-- A word with a row's opcode and its unused fields 0 is the encoding of the command it decodes to. -/
theorem decode_of_unused_zero {w : Word} {r : OpcodeRow} (hr : r ∈ opcodeRows)
    (ho : fieldOp w = r.op) (h0 : ∀ q ∈ r.unused, q.of w = 0) :
    ∃ i, decode w = .ok i ∧ encode i = w := by
  obtain ⟨i, hd, he⟩ := decodesByRow_of_mem w hr ho
  exact ⟨i, hd.trans (unusedZero_eq_ok (List.forall_mem_map.2 h0) rfl), he h0⟩

theorem decode_of_unused_nonzero {w : Word} {r : OpcodeRow} {q : BitField} (hr : r ∈ opcodeRows)
    (ho : fieldOp w = r.op) (hq : q ∈ r.unused) (hne : q.of w ≠ 0) :
    decode w = .error .reserved := by
  obtain ⟨i, hd, -⟩ := decodesByRow_of_mem w hr ho
  exact hd.trans (unusedZero_of_nonzero i (List.mem_map_of_mem hq) hne)

/-! ## Words whose opcode has none (R108) -/

/-- Every arm of the decoder but the last is for the opcode of some row. -/
theorem decode_of_no_row {w : Word} (h : ∀ r ∈ opcodeRows, fieldOp w ≠ r.op) :
    decode w = .error .opcode := by
  have hmem : fieldOp w ∉ opcodeRows.map (·.op) := by
    rw [List.mem_map]
    exact fun ⟨r, hr, ho⟩ => h r hr ho.symm
  unfold decode
  split
  case h_86 => rfl
  all_goals
    rename_i ho
    exact absurd (by rw [ho]; decide) hmem

/-- The three things the decoder can do with a word, each with what the opcode map says of the word. -/
theorem decode_cases (w : Word) :
    ((∃ r ∈ opcodeRows, fieldOp w = r.op ∧ ∀ q ∈ r.unused, q.of w = 0) ∧
      ∃ i, decode w = .ok i ∧ encode i = w) ∨
    ((∃ r ∈ opcodeRows, fieldOp w = r.op ∧ ∃ q ∈ r.unused, q.of w ≠ 0) ∧
      decode w = .error .reserved) ∨
    ((∀ r ∈ opcodeRows, fieldOp w ≠ r.op) ∧ decode w = .error .opcode) := by
  by_cases hrow : ∃ r ∈ opcodeRows, fieldOp w = r.op
  · obtain ⟨r, hr, ho⟩ := hrow
    by_cases h0 : ∀ q ∈ r.unused, q.of w = 0
    · exact .inl ⟨⟨r, hr, ho, h0⟩, decode_of_unused_zero hr ho h0⟩
    · push Not at h0
      obtain ⟨q, hq, hne⟩ := h0
      exact .inr (.inl ⟨⟨r, hr, ho, q, hq, hne⟩, decode_of_unused_nonzero hr ho hq hne⟩)
  · push Not at hrow
    exact .inr (.inr ⟨hrow, decode_of_no_row hrow⟩)

/-! ## What the decoder answers, as facts about the map -/

theorem exists_decode_ok_iff (w : Word) :
    (∃ i, decode w = .ok i) ↔
      ∃ r ∈ opcodeRows, fieldOp w = r.op ∧ ∀ q ∈ r.unused, q.of w = 0 := by
  constructor
  · rintro ⟨i, hd⟩
    rcases decode_cases w with ⟨hrow, -⟩ | ⟨-, he⟩ | ⟨-, he⟩
    · exact hrow
    · exact nomatch hd.symm.trans he
    · exact nomatch hd.symm.trans he
  · rintro ⟨r, hr, ho, h0⟩
    exact (decode_of_unused_zero hr ho h0).imp fun _ h => h.1

theorem decode_eq_opcode_iff (w : Word) :
    decode w = .error .opcode ↔ ∀ r ∈ opcodeRows, fieldOp w ≠ r.op := by
  refine ⟨fun hd => ?_, decode_of_no_row⟩
  rcases decode_cases w with ⟨-, i, he, -⟩ | ⟨-, he⟩ | ⟨hno, -⟩
  · exact nomatch hd.symm.trans he
  · exact nomatch hd.symm.trans he
  · exact hno

theorem decode_eq_reserved_iff (w : Word) :
    decode w = .error .reserved ↔
      ∃ r ∈ opcodeRows, fieldOp w = r.op ∧ ∃ q ∈ r.unused, q.of w ≠ 0 := by
  refine ⟨fun hd => ?_, fun ⟨r, hr, ho, q, hq, hne⟩ => decode_of_unused_nonzero hr ho hq hne⟩
  rcases decode_cases w with ⟨-, i, he, -⟩ | ⟨hrow, -⟩ | ⟨-, he⟩
  · exact nomatch hd.symm.trans he
  · exact hrow
  · exact nomatch hd.symm.trans he

/-- The byte values R108 does not list are the opcodes of R107, in order. -/
theorem definedOpcodes_eq : (List.range 256).filter (!undefinedOpcode ·) = opcodeRows.map (·.op) := by
  decide +kernel

theorem undefinedOpcode_iff {op : Nat} (h : op < 256) :
    undefinedOpcode op = true ↔ ∀ r ∈ opcodeRows, op ≠ r.op := by
  have hmem : op ∈ opcodeRows.map (·.op) ↔ undefinedOpcode op = false := by
    rw [← definedOpcodes_eq, List.mem_filter, List.mem_range, Bool.not_eq_true']
    exact and_iff_right h
  rw [← Bool.not_eq_false, ← hmem, List.mem_map, not_exists]
  exact forall_congr' fun r => by rw [not_and, ne_comm]

/-! ## A word that decodes to no command (60_exceptions.md R374, steps 1 and 2, R376) -/

theorem coreStepGives_of_decode_error {w : Word} {e : DecodeError} {s : State}
    (hp : s.phase = .exec w) (hd : decode w = .error e) :
    CoreStepGives s (errorRecorded w (errorKind (decodeCause e), errorCode (decodeCause e))) := by
  have run (t : State) (ht : t.phase = .exec w) :
      coreStep t = .next (errorRecorded w (errorKind (decodeCause e), errorCode (decodeCause e)) t) := by
    rw [coreStep_exec ht, runWord_error hd, raiseError_eq_errorRecorded]
  exact ⟨fun h => (step_nil h).trans (run s hp), fun rest h => (step_cons h).trans (run _ hp)⟩

/-! ## The statements -/

/-- Settles O1. -/
theorem decodeOfEncodeIsTheCommand : Obligations.DecodeOfEncodeIsTheCommand := decode_encode

/-- Settles O3: the three answers of the decoder, against the rows of the map. -/
theorem decoderFollowsTheOpcodeMap : Obligations.DecoderFollowsTheOpcodeMap :=
  fun w => ⟨exists_decode_ok_iff w, decode_eq_opcode_iff w, decode_eq_reserved_iff w⟩

/-- Settles O2: a word the decoder accepts has a row, and its unused fields are 0. -/
theorem encodeOfDecodeIsTheWord : Obligations.EncodeOfDecodeIsTheWord := by
  intro w i hd
  obtain ⟨r, hr, ho, h0⟩ := (exists_decode_ok_iff w).1 ⟨i, hd⟩
  obtain ⟨j, hj, he⟩ := decode_of_unused_zero hr ho h0
  rwa [Except.ok.inj (hd.symm.trans hj)]

/-- Settles O4: the listed values are those without a row, and the decoder's error takes the error path. -/
theorem undefinedOpcodeRaisesOpcode : Obligations.UndefinedOpcodeRaisesOpcode := by
  have hopcode (w : Word) : undefinedOpcode (fieldOp w) = true ↔ decode w = .error .opcode :=
    (undefinedOpcode_iff (Nat.mod_lt _ (by decide))).trans (decode_eq_opcode_iff w).symm
  exact ⟨by decide +kernel, fun w =>
    ⟨hopcode w, fun s hp hu => coreStepGives_of_decode_error hp ((hopcode w).1 hu)⟩⟩

/-- Settles O5: the decoder rejects such a word as RESERVED, and its error takes the error path. -/
theorem nonzeroUnusedFieldRaisesReserved : Obligations.NonzeroUnusedFieldRaisesReserved :=
  fun _ _ _ _ hp hr ho hq hne =>
    coreStepGives_of_decode_error hp (decode_of_unused_nonzero hr ho hq hne)

/-- Settles O7: each word is the encoding of its command. -/
theorem workedEncodingsDecode : Obligations.WorkedEncodingsDecode :=
  ⟨decode_encode .nop, decode_encode (.kSet 4 1), decode_encode (.feAdd 3 1 2),
    decode_encode (.feLoad 0 1), decode_encode (.feSqrtratio 2 0 1 1),
    decode_encode (.scMuladd 0 1 2 3), decode_encode (.edMulpow2 1 0 3),
    decode_encode (.lutSel 3 0xF8), decode_encode (.btSel 2 5 0xFD),
    decode_encode (.edVtdbl 4 0 1 1), decode_encode (.riEq 0 0 1)⟩

end Sys2Proof.Machine
end

section
/-! The legal operand values (30_encoding.md R103 to R105) against the operand checks of 60_exceptions.md R375. -/

namespace Sys2Proof.Machine

theorem legal_iff (h : HalfField) : h.legal = true ↔ decide (1 < h.val) = false := by
  simp [HalfField.legal]

theorem atMost_iff (imm : Byte) (max : Nat) :
    imm.atMost max = true ↔ decide (max < imm.toNat) = false := by
  simp [Byte.atMost]

theorem kLegal_iff (imm : Byte) : imm.kLegal = true ↔ imm ≠ 0 := by
  simp [Byte.kLegal, BitVec.toNat_eq]

theorem dig8Legal_iff (imm : Byte) :
    imm.dig8Legal = true ↔ ¬ (imm.toInt < -8 ∨ 8 < imm.toInt) := by
  simp [Byte.dig8Legal]

theorem oddLegal_iff (imm : Byte) :
    imm.oddLegal = true ↔ ¬ (15 < imm.toNat ∨ imm.toNat % 2 = 0) := by
  simp [Byte.oddLegal]

theorem t8Legal_iff (t : Byte) : t.t8Legal = true ↔ ¬ 31 < t.toNat := by
  simp [Byte.t8Legal]

theorem ite_some_eq_none_iff {c : Prop} [Decidable c] {e : ErrCode} :
    (if c then some e else none) = none ↔ ¬ c := by
  simp

/-- Settles O6: the two operand tables agree command by command; at most one of the two checks can fail. -/
theorem wellFormedMeansNoOperandFails : Obligations.WellFormedMeansNoOperandFails := by
  intro i
  cases i with
  | kSet _ imm | feConst _ imm | scConst _ imm | ptConst _ imm | ptSettag _ imm | ptGet _ _ imm
  | ptSet _ _ imm => exact (atMost_iff imm _).trans (and_iff_left rfl).symm
  | bufBit _ h _ | feLoad _ h | feStore _ h | scLoad _ h | scLoadbits _ h | scStore _ h
  | edDecode _ h | edEncode _ h | riDecode _ h | riEncode _ h =>
    exact (legal_iff h).trans (and_iff_left rfl).symm
  | edMulpow2 _ _ imm =>
    exact (kLegal_iff imm).trans (ite_some_eq_none_iff.symm.trans (and_iff_right rfl).symm)
  | lutSel _ imm =>
    exact (dig8Legal_iff imm).trans (ite_some_eq_none_iff.symm.trans (and_iff_right rfl).symm)
  | nlutSel _ imm =>
    exact (oddLegal_iff imm).trans (ite_some_eq_none_iff.symm.trans (and_iff_right rfl).symm)
  | btSel _ t imm =>
    have hlegal : (t.t8Legal && imm.dig8Legal) = true ↔
        ¬ (31 < t.toNat ∨ imm.toInt < -8 ∨ 8 < imm.toInt) := by
      rw [Bool.and_eq_true, t8Legal_iff, dig8Legal_iff, ← not_or]
    exact hlegal.trans (ite_some_eq_none_iff.symm.trans (and_iff_right rfl).symm)
  | _ => exact iff_of_true rfl ⟨rfl, rfl⟩

end Sys2Proof.Machine
end

section
/-! The choice commands (40_ctprim.md R131 to R138): BUF read as an integer against BUF read byte by byte and bit by
bit, and what each command writes. -/

namespace Sys2Proof.Machine

/-! ## A little-endian integer, its bytes and its bits -/

/-- Two reads give one integer exactly when they read the same bytes. -/
theorem readLE_eq_readLE_iff (m : List Host.Cell) (a b n : Nat) :
    readLE m a n = readLE m b n ↔ ∀ j, j < n → memRead m (a + j) = memRead m (b + j) := by
  refine ⟨fun h j hj => BitVec.eq_of_toNat_eq ?_, fun h => ?_⟩
  · rw [← readLE_byte m a n j hj, h, readLE_byte m b n j hj]
  · induction n generalizing a b with
    | zero => rfl
    | succ n ih =>
      have htail : readLE m (a + 1) n = readLE m (b + 1) n := ih _ _ fun j hj => by
        simpa only [Nat.add_assoc, Nat.add_comm 1] using h (j + 1) (by omega)
      have hhead : memRead m a = memRead m b := h 0 n.succ_pos
      rw [readLE, readLE, htail, hhead]

/-- Bit k of a read is bit k mod 8 of byte k div 8. -/
theorem testBit_readLE (m : List Host.Cell) (a : Nat) {n k : Nat} (hk : k < 8 * n) :
    (readLE m a n).testBit k = (memRead m (a + k / 8)).getLsbD (k % 8) := by
  have hbyte := readLE_byte m a n (k / 8) (by omega)
  rw [BitVec.getLsbD, ← hbyte, show 256 = 2 ^ 8 by rfl, ← Nat.pow_mul, Nat.testBit_mod_two_pow,
    decide_eq_true (Nat.mod_lt k (by decide)), Bool.true_and, Nat.testBit_div_two_pow,
    Nat.mod_add_div]

theorem readHalf_zero_eq_readHalf_one_iff (s : State) :
    s.readHalf 0 = s.readHalf 1 ↔
      ∀ j, j < 32 → memRead s.mem (0x100 + j) = memRead s.mem (0x120 + j) :=
  readLE_eq_readLE_iff s.mem 0x100 0x120 32

theorem testBit_readHalf (s : State) (h : HalfField) (imm : Byte) :
    (s.readHalf h).testBit imm.toNat =
      (memRead s.mem (0x100 + 32 * h.val + imm.toNat / 8)).getLsbD (imm.toNat % 8) :=
  testBit_readLE s.mem (halfBase h) imm.isLt

/-! ## The statement -/

theorem decide_toNat_eq_one (imm : Byte) : decide (imm.toNat = 1) = (imm == 1) := by
  rw [Bool.eq_iff_iff, decide_eq_true_iff, beq_iff_eq, BitVec.toNat_eq]
  rfl

/-- A command whose checks pass and which writes `x` to K[d] leaves `x` there. -/
theorem runs_setK_getK {i : Instr} {s : State} {d : Reg} {x y : Bool} {r : Result}
    (he : exec i s = finish i s r) (hr : r = .ok (s.setK d x)) (hx : x = y) :
    Runs i s { k := [d] } fun t => t.getK d = y :=
  runs_of_finish he hr (completes_setK s d x) (by rw [commit_getK, getK_setK_self, hx])

/-- Settles O30: BUF_EQ and BUF_BIT work on the halves as integers, which their bytes and bits determine. -/
theorem choiceCommandsGiveTheirResults : Obligations.ChoiceCommandsGiveTheirResults := by
  intro d a b h imm s
  refine ⟨runs_of_finish rfl rfl (completes_commit_self s) trivial, fun himm => ?_,
    runs_setK_getK rfl rfl rfl, runs_setK_getK rfl rfl rfl, runs_setK_getK rfl rfl rfl,
    runs_setK_getK rfl rfl (congrFun₂ Bool.bne_eq_xor _ _), runs_setK rfl ?_, fun hh => ?_⟩
  · exact runs_setK_getK rfl ((needAtMost_eq _ _ _).trans (if_pos himm)) (decide_toNat_eq_one imm)
  · rw [commit_getK, getK_setK_self, beq_iff_eq, readHalf_zero_eq_readHalf_one_iff]
  · exact runs_setK_getK rfl ((needHalf_eq _ _).trans (if_pos hh)) (testBit_readHalf s h imm)

end Sys2Proof.Machine
end

section
/-! The field commands (41_field.md R150 to R183): the arithmetic, the powers, the constants, the square root and the
byte conversion as residues of integers mod p. -/

namespace Sys2Proof.Machine

/-! ## A value of GF(p) and its representative in [0, p) (R150) -/

theorem val_lt (x : Fe) : x.val < 2 ^ 255 - 19 := lt_of_lt_of_eq x.isLt fieldP_eq

theorem val_eq_emod {x : Fe} {n : Int} (h : gf x = (n : Gf)) : (x.val : Int) = n % (2 ^ 255 - 19) := by
  have hlt := val_lt x
  have hcast : ((x.val : Int) : Gf) = (n : Gf) := by rw [Int.cast_natCast, ← h, gf]
  have hmod := (ZMod.intCast_eq_intCast_iff' _ _ _).1 hcast
  rw [show (fieldP : Int) = 2 ^ 255 - 19 by decide +kernel] at hmod
  omega

theorem val_eq_mod {x : Fe} {n : Nat} (h : gf x = (n : Gf)) : x.val = n % (2 ^ 255 - 19) := by
  rw [← zmodVal_gf, h, ZMod.val_natCast, fieldP_eq]

/-- A power in GF(p) is the plain power of the representative. -/
theorem val_eq_pow_mod {x y : Fe} {e : Nat} (h : gf y = gf x ^ e) :
    y.val = x.val ^ e % (2 ^ 255 - 19) :=
  val_eq_mod (h.trans (Nat.cast_pow x.val e).symm)

theorem val_feFromBytes (n : Nat) : (feFromBytes n).val = n % 2 ^ 255 % (2 ^ 255 - 19) := by
  rw [feFromBytes, val_ofNat, fieldP_eq]

/-- Loading the representative of a value gives the value (R183). -/
theorem feFromBytes_val (x : Fe) : feFromBytes x.val = x := by
  have hlt := val_lt x
  exact Fin.ext ((val_feFromBytes x.val).trans (by omega))

/-- FE_INV gives 0 for 0 (R172). -/
theorem val_finv_of_zero {x : Fe} (h : x.val = 0) : (finv x).val = 0 :=
  gf_eq_zero.1 (gf_finv_of_zero (gf_eq_zero.2 h))

/-- FE_INV gives the inverse of a non-zero value (R172). -/
theorem val_finv_mul_self {x : Fe} (h : x.val ≠ 0) :
    (finv x).val * x.val % (2 ^ 255 - 19) = 1 := by
  have hinv := gf_finv_mul_self (mt gf_eq_zero.1 h)
  rw [← gf_fmul] at hinv
  calc (finv x).val * x.val % (2 ^ 255 - 19)
      = (fmul (finv x) x).val := (val_eq_mod ((gf_fmul _ _).trans (Nat.cast_mul _ _).symm)).symm
    _ = 1 := val_eq_mod (hinv.trans Nat.cast_one.symm)

/-- The absolute value is the even one of x and p − x, 0 for 0 (R179). -/
theorem val_ctabs (x : Fe) :
    (ctabs x).val % 2 = 0 ∧ ((ctabs x).val = x.val ∨ (ctabs x).val = 2 ^ 255 - 19 - x.val) := by
  have heven := mt isneg_iff.2 (Bool.eq_false_iff.1 (isneg_ctabs x))
  refine ⟨by omega, ?_⟩
  cases hneg : isneg x with
  | false => rw [ctabs, hneg, fsel_false]; exact .inl rfl
  | true =>
    have hodd := isneg_iff.1 hneg
    rw [ctabs, hneg, fsel_true]
    exact .inr ((val_fneg (by omega)).trans (congrArg (· - x.val) fieldP_eq))

/-! ## The constants (R153, R154) -/

/-- d is −121665/121666 (R153). -/
theorem dGf_mul : 121666 * dGf = -121665 := by
  have h : fmul (Fe.ofNat 121666) feD = fneg (Fe.ofNat 121665) := by decide +kernel
  simpa using congrArg gf h

theorem gf_feInvsqrtAMinusD_sq : gf feInvsqrtAMinusD ^ 2 * (-1 - dGf) = 1 := by
  have h : fmul (fsq feInvsqrtAMinusD) (fsub feMinusOne feD) = feOne := by decide +kernel
  simpa using congrArg gf h

/-! ## What a field command leaves in its destination -/

/-- A command whose checks pass and which writes `x` to F[d] leaves a value with the properties of `x` there. -/
theorem runs_setF_getF {i : Instr} {s : State} {d : Reg} {x : Fe} {r : Result} (P : Fe → Prop)
    (he : exec i s = finish i s r) (hr : r = .ok (s.setF d x)) (hx : P x) :
    Runs i s { f := [d] } fun t => P (t.getF d) :=
  runs_of_finish he hr (completes_setF s d x) (by rwa [commit_getF, getF_setF_self])

/-- FE_CONST leaves the entry of the ROM that its index names (R165). -/
theorem runs_feConst (d : Reg) {imm : Byte} (s : State) (P : Fe → Prop) (himm : imm.toNat ≤ 9)
    (hx : P (feConstRom.getD imm.toNat feZero)) :
    Runs (.feConst d imm) s { f := [d] } fun t => P (t.getF d) :=
  runs_setF_getF P rfl ((needAtMost_eq _ _ _).trans (if_pos himm)) hx

theorem needHalf_of_le {h : HalfField} (hh : h.val ≤ 1) (k : Result) : needHalf h k = k :=
  (needHalf_eq h k).trans (if_pos hh)

theorem exec_feLoad {h : HalfField} (hh : h.val ≤ 1) (d : Reg) (s : State) :
    exec (.feLoad d h) s = .next (commit (s.setF d (feFromBytes (s.readHalf h)))) :=
  congrArg (finish _ s) (needHalf_of_le hh _)

theorem exec_feStore {h : HalfField} (hh : h.val ≤ 1) (a : Reg) (s : State) :
    exec (.feStore a h) s = .next (commit (s.writeHalf h (s.getF a).val)) :=
  congrArg (finish _ s) (needHalf_of_le hh _)

/-- What FE_STORE leaves in its half. -/
theorem readHalf_commit_writeHalf_val {s : State} (hm : Memory.wf s.mem = true) (h : HalfField)
    (x : Fe) : (commit (s.writeHalf h x.val)).readHalf h = x.val :=
  readHalf_commit_writeHalf hm h (lt_trans x.isLt (by decide +kernel))

/-! ## The statements -/

/-- Settles O31: the operations of GF(p) on the values. -/
theorem fieldArithmeticGivesResidues : Obligations.FieldArithmeticGivesResidues := by
  intro d a b s
  refine ⟨runs_setF_getF (·.val = _) rfl rfl (val_eq_mod ?add),
    runs_setF_getF (fun x => (x.val : Int) = _) rfl rfl (val_eq_emod ?sub),
    runs_setF_getF (fun x => (x.val : Int) = _) rfl rfl (val_eq_emod ?neg),
    runs_setF_getF (·.val = _) rfl rfl (val_eq_mod ?mul),
    runs_setF_getF (·.val = _) rfl rfl (val_eq_pow_mod (gf_fsq _)),
    runs_setF_getF (·.val = _) rfl rfl (val_eq_mod ?sq2)⟩
  case add => rw [gf_fadd, Nat.cast_add, gf, gf]
  case sub => rw [gf_fsub, Int.cast_sub, Int.cast_natCast, Int.cast_natCast, gf, gf]
  case neg => rw [gf_fneg, Int.cast_neg, Int.cast_natCast, gf]
  case mul => rw [gf_fmul, Nat.cast_mul, gf, gf]
  case sq2 => rw [gf_fsq2, Nat.cast_mul, Nat.cast_pow, Nat.cast_ofNat, gf]

/-- Settles O32: the addition chains are the plain powers, and by Fermat the first is the inverse. -/
theorem fieldPowersGiveThePlainPowers : Obligations.FieldPowersGiveThePlainPowers := by
  intro d a s
  refine ⟨runs_setF_getF
      (fun x => x.val = _ ∧ (_ → x.val = 0) ∧ (_ → x.val * (s.getF a).val % _ = 1)) rfl rfl ?_,
    runs_setF_getF (·.val = _) rfl rfl (val_eq_pow_mod (gf_fpowp58 _))⟩
  exact ⟨val_eq_pow_mod (gf_finv _), val_finv_of_zero, val_finv_mul_self⟩

/-- Settles O34: each relation is one computation in GF(p), and the root is told by its parity. -/
theorem fieldConstantsSatisfyTheirRelations : Obligations.FieldConstantsSatisfyTheirRelations := by
  intro d s
  exact ⟨runs_feConst d s (·.val = 0) (by decide) rfl,
    runs_feConst d s (·.val = 1) (by decide) rfl,
    runs_feConst d s (gf · = -1) (by decide) gf_feMinusOne,
    runs_feConst d s (fun x => gf x = dGf ∧ 121666 * gf x = -121665) (by decide)
      ⟨gf_feD, (congrArg _ gf_feD).trans dGf_mul⟩,
    runs_feConst d s (gf · = 2 * dGf) (by decide) gf_feD2,
    runs_feConst d s (fun x => gf x ^ 2 = -1 ∧ x.val % 2 = 0) (by decide)
      ⟨gf_feSqrtM1_sq, by decide +kernel⟩,
    runs_feConst d s (fun x => gf x ^ 2 * (-1 - dGf) = 1 ∧ x.val % 2 = 0) (by decide)
      ⟨gf_feInvsqrtAMinusD_sq, by decide +kernel⟩,
    runs_feConst d s (fun x => gf x ^ 2 = -dGf - 1 ∧ x.val % 2 = 1) (by decide)
      ⟨gf_feSqrtAdMinusOne_sq, by decide +kernel⟩,
    runs_feConst d s (gf · = 1 - dGf ^ 2) (by decide) gf_feOneMinusDSq,
    runs_feConst d s (gf · = (dGf - 1) ^ 2) (by decide) gf_feDMinusOneSq⟩

/-- Settles O35: the two conversions, on the 32 bytes of the half. -/
theorem fieldLoadAndStoreConvertBytes : Obligations.FieldLoadAndStoreConvertBytes := by
  intro r h s hh
  refine ⟨runs_setF_getF (·.val = _) rfl (needHalf_of_le hh _) (val_feFromBytes _), fun hm => ?_⟩
  exact runs_writeHalf (congrArg (finish _ s) (needHalf_of_le hh _))
    (readHalf_commit_writeHalf_val hm h (s.getF r))

/-- Settles O36: a representative is below p, so it survives the reduction; a string below 2^255 loses at most one
p to it. -/
theorem fieldStoreThenLoadRoundTrips : Obligations.FieldStoreThenLoadRoundTrips := by
  intro d a h s hh hm
  refine ⟨⟨_, _, exec_feStore hh a s, exec_feLoad hh d _, ?_⟩,
    ⟨_, _, exec_feLoad hh d s, exec_feStore hh d _, ?_⟩⟩
  · rw [commit_getF, getF_setF_self, readHalf_commit_writeHalf_val hm]
    exact feFromBytes_val (s.getF a)
  · rw [readHalf_commit_writeHalf_val (s := commit (s.setF d _)) hm, commit_getF, getF_setF_self,
      val_feFromBytes]
    exact ⟨fun hlt => by omega, fun hge hlt => by omega⟩

/-- Settles O37: the case table of R180, which the procedure of R181 meets. -/
theorem squareRootOfRatioFollowsTheCaseTable : Obligations.SquareRootOfRatioFollowsTheCaseTable := by
  intro d a b c s
  refine runs_of_finish rfl rfl (completes_setF_setK s d c _ _) ?_
  rw [commit_getF, setK_getF, getF_setF_self, commit_getK, getK_setK_self, ← gf_feSqrtM1]
  exact sqrtRatio_spec (s.getF a) (s.getF b)

/-- Settles O33: each command writes what its helper gives. -/
theorem fieldSelectsAndTestsGiveTheirResults : Obligations.FieldSelectsAndTestsGiveTheirResults := by
  intro d a b c s
  refine ⟨runs_setF_getF (· = _) rfl rfl rfl,
    runs_setF_getF (fun x => (_ → x = s.getF b) ∧ (_ → x = s.getF a)) rfl rfl ⟨?one, ?zero⟩,
    runs_setK rfl ?isneg, runs_setK rfl ?iszero, runs_setK rfl ?eq,
    runs_setF_getF (fun x => x.val % 2 = 0 ∧ (x.val = _ ∨ x.val = _)) rfl rfl (val_ctabs _)⟩
  case one => exact fun hk => by rw [hk, fsel_true]
  case zero => exact fun hk => by rw [hk, fsel_false]
  case isneg => rw [commit_getK, getK_setK_self, isneg_iff]
  case iszero => rw [commit_getK, getK_setK_self, iszero_iff, gf_eq_zero]
  case eq => rw [commit_getK, getK_setK_self, feq_iff_eq]

end Sys2Proof.Machine
end

section
/-! The scalar commands (42_scalar.md R200 to R227): arithmetic on the stored integers mod ℓ, the transfers, the two
digit recodings and Montgomery reduction. -/

namespace Sys2Proof.Machine

/-! ## Integers mod ℓ as scalars (R200, R201) -/

theorem groupL_eq : groupL = 2 ^ 252 + 27742317777372353535851937790883648493 := by decide +kernel

theorem groupL_lt_two_pow : groupL < 2 ^ 255 := by decide +kernel

theorem val_scalarOfNat {n : Nat} (h : n < 2 ^ 255) : (Scalar.ofNat n).val = n := Nat.mod_eq_of_lt h

theorem val_scReduced (n : Nat) : (scReduced n).val = n % groupL :=
  val_scalarOfNat ((Nat.mod_lt n groupL_pos).trans groupL_lt_two_pow)

/-- Adding ℓ − (y mod ℓ) is subtracting y, also where x − y is negative (R218). -/
theorem val_scSubMod (x y : Scalar) : ((scSubMod x y).val : Int) = ((x.val : Int) - y.val) % groupL := by
  have hsub : ((groupL - y.val % groupL : Nat) : Int) = groupL - y.val % groupL := by
    rw [Nat.cast_sub (Nat.mod_lt _ groupL_pos).le, Int.natCast_emod]
  rw [scSubMod, val_scReduced, Int.natCast_emod, Nat.cast_add, hsub, add_sub_left_comm,
    Int.add_emod_left, Int.sub_emod_emod]

theorem val_montgomeryMul (x y : Scalar) : (montgomeryMul x y).val = montgomeryReduce (x.val * y.val) :=
  val_scalarOfNat ((montgomeryReduce_lt _).trans groupL_lt_two_pow)

/-! ## BUF as one integer or as two halves (R76) -/

theorem readBuf_eq_halves (s : State) : s.readBuf = s.readHalf 0 + 2 ^ 256 * s.readHalf 1 := by
  have hpow : 256 ^ 32 = 2 ^ 256 := by norm_num
  rw [State.readBuf, ← hpow]
  exact readLE_add s.mem bufBase 32 32

/-! ## What a scalar command leaves in its destination -/

/-- A command whose checks pass and which writes `x` to S[d] leaves a value with the properties of `x` there. -/
theorem runs_setS_getS {i : Instr} {s : State} {d : Reg} {x : Scalar} {r : Result} (P : Scalar → Prop)
    (he : exec i s = finish i s r) (hr : r = .ok (s.setS d x)) (hx : P x) :
    Runs i s { sc := [d] } fun t => P (t.getS d) :=
  runs_of_finish he hr (completes_setS s d x) (by rwa [commit_getS, getS_setS_self])

/-- SC_CONST leaves the constant that its index names (R216). -/
theorem runs_scConst (d : Reg) {imm : Byte} (s : State) {n : Nat} (himm : imm.toNat ≤ 2)
    (hx : (Scalar.ofNat ([0, 1, groupL].getD imm.toNat 0)).val = n) :
    Runs (.scConst d imm) s { sc := [d] } fun t => (t.getS d).val = n :=
  runs_setS_getS (·.val = n) rfl ((needAtMost_eq _ _ _).trans (if_pos himm)) hx

/-- The two data checks of SC_LOAD are a split of the integers below 2^256 into three ranges (R211). -/
theorem scLoad_checks {n : Nat} (hn : n < 2 ^ 256) (k : Result) :
    require (!n.testBit 255) .scalarHighBit
        (require (decide (n < groupL)) .scalarNoncanonical k) =
      if n < groupL then k
      else if n < 2 ^ 255 then .error .scalarNoncanonical else .error .scalarHighBit := by
  have hL := groupL_lt_two_pow
  by_cases hbit : n < 2 ^ 255
  · rw [Bool.eq_false_iff.2 (mt (testBit_255 hn).1 (not_le.2 hbit)), if_pos hbit]
    simp [require]
  · rw [(testBit_255 hn).2 (not_lt.1 hbit), if_neg hbit, if_neg (by omega)]
    rfl

theorem exec_scLoad {h : HalfField} (hh : h.val ≤ 1) (d : Reg) (s : State) :
    exec (.scLoad d h) s =
      finish (.scLoad d h) s
        (if s.readHalf h < groupL then .ok (s.setS d (Scalar.ofNat (s.readHalf h)))
        else if s.readHalf h < 2 ^ 255 then .error .scalarNoncanonical else .error .scalarHighBit) :=
  congrArg (finish _ s) ((needHalf_of_le hh _).trans (scLoad_checks (readHalf_lt s h) _))

/-- What SC_STORE leaves in its half. -/
theorem readHalf_commit_writeHalf_scalar {s : State} (hm : Memory.wf s.mem = true) (h : HalfField)
    (x : Scalar) : (commit (s.writeHalf h x.val)).readHalf h = x.val :=
  readHalf_commit_writeHalf hm h (x.isLt.trans (by decide +kernel))

/-! ## Digits by position (R222, R224) -/

theorem getElem?_eq_some_getD {l : List Int} {i : Nat} (h : i < l.length) :
    l[i]? = some (l[i]?.getD 0) := by
  rw [List.getElem?_eq_getElem h, Option.getD_some]

/-- A bound on the digits at all positions is one on the members of the list. -/
theorem forall_mem_of_forall_getD {l : List Int} {P : Int → Prop}
    (h : ∀ i, i < l.length → P (l[i]?.getD 0)) : ∀ x ∈ l, P x :=
  List.forall_mem_iff_getElem.2 fun i hi => by
    simpa only [List.getElem?_eq_getElem hi, Option.getD_some] using h i hi

theorem radix16_value {n : Nat} (hn : n < 2 ^ 255) : digitsValue 16 (radix16 n) = n := by
  rw [radix16, radix16From_value 63 n 0 (hn.trans (by norm_num)), Nat.cast_zero, add_zero]

theorem radix16_range {n i : Nat} (hn : n < 2 ^ 255) (hi : i < 63) :
    -8 ≤ (radix16 n)[i]?.getD 0 ∧ (radix16 n)[i]?.getD 0 ≤ 7 :=
  (radix16From_range 63 n 0 zero_le_one (lt_of_lt_of_eq hn (by norm_num))).1 i hi _
    (getElem?_eq_some_getD (by rw [radix16From_length]; omega))

/-- The top nibble is at most 7 and takes at most one carry (R223). -/
theorem radix16_top_range {n : Nat} (hn : n < 2 ^ 255) :
    (0 : Int) ≤ (radix16 n)[63]?.getD 0 ∧ (radix16 n)[63]?.getD 0 ≤ 8 :=
  (radix16From_range 63 n 0 zero_le_one (lt_of_lt_of_eq hn (by norm_num))).2 _
    (getElem?_eq_some_getD (by rw [radix16From_length]; omega))

theorem radix16_fits {n : Nat} (hn : n < 2 ^ 255) : ∀ e ∈ radix16 n, -128 ≤ e ∧ e ≤ 127 :=
  forall_mem_of_forall_getD fun i hi => by
    have htop := radix16_top_range hn
    rcases Nat.lt_or_ge i 63 with hlt | hge
    · have := radix16_range hn hlt
      omega
    · obtain rfl : i = 63 := by rw [radix16_length] at hi; omega
      omega

theorem digAt_writeDig_radix16 {s : State} (hm : Memory.wf s.mem = true) (x : Scalar) {i : Nat}
    (hi : i < 256) :
    digAt (commit (s.writeDig (radix16 x.val))) i = (radix16 x.val)[i]?.getD 0 :=
  digAt_writeDig hm (by rw [radix16_length]; omega) (radix16_fits x.isLt) hi

/-- 256 positions hold a stored scalar and its last carry (R225). -/
theorem naf5_value {n : Nat} (hn : n < 2 ^ 255) : digitsValue 2 (naf5 n) = n := by
  rw [naf5, naf5From_value 256 0 n 0 zero_le_one (by rw [pow_zero, Nat.div_one]; omega)]
  simp

theorem naf5_zero_or_odd (n : Nat) {i : Nat} (hi : i < 256) :
    (naf5 n)[i]?.getD 0 = 0 ∨ ((naf5 n)[i]?.getD 0 % 2 = 1 ∧
      -16 < (naf5 n)[i]?.getD 0 ∧ (naf5 n)[i]?.getD 0 < 16) := by
  have hsome := getElem?_eq_some_getD (l := naf5 n) (by rwa [naf5_length])
  exact ((naf5From_digits 256 0 n 0 zero_le_one).1 i _ hsome).imp_right
    fun ⟨hodd, hlo, hhi, _⟩ => ⟨hodd, hlo, hhi⟩

theorem naf5_apart (n : Nat) {i j : Nat} (hij : i < j) (hj : j < 256)
    (hi0 : (naf5 n)[i]?.getD 0 ≠ 0) (hj0 : (naf5 n)[j]?.getD 0 ≠ 0) : i + 5 ≤ j :=
  (naf5From_digits 256 0 n 0 zero_le_one).2 i j _ _ hij
    (getElem?_eq_some_getD (by rw [naf5From_length]; omega))
    (getElem?_eq_some_getD (by rwa [naf5From_length])) hi0 hj0

theorem naf5_fits (n : Nat) : ∀ e ∈ naf5 n, -128 ≤ e ∧ e ≤ 127 :=
  forall_mem_of_forall_getD fun i hi => by
    have := naf5_zero_or_odd n (by rwa [naf5_length] at hi)
    omega

theorem digAt_writeDig_naf5 {s : State} (hm : Memory.wf s.mem = true) (x : Scalar) {i : Nat}
    (hi : i < 256) : digAt (commit (s.writeDig (naf5 x.val))) i = (naf5 x.val)[i]?.getD 0 :=
  digAt_writeDig hm (naf5_length _).le (naf5_fits _) hi

/-! ## The limb procedure of Montgomery reduction (R205) -/

/-- A number below R·ℓ leaves, after nine steps and the shift, the reduction or the reduction plus ℓ. -/
theorem montgomerySteps_div {T : Nat} (hT : T < 2 ^ 261 * groupL) :
    montgomerySteps 9 0 T / 2 ^ 261 < 2 * groupL ∧
      montgomerySteps 9 0 T / 2 ^ 261 % groupL = montgomeryReduce T := by
  obtain ⟨hdvd, hmod, hle⟩ := montgomerySteps_spec 9 0 T (Nat.mod_one T)
  obtain ⟨r, hr⟩ := Nat.dvd_of_mod_eq_zero hdvd
  rw [show 29 * (0 + 9) = 261 by rfl] at hr hle
  rw [hr] at hmod hle ⊢
  rw [Nat.mul_div_cancel_left r (Nat.two_pow_pos _)]
  refine ⟨?_, ?_⟩
  · have hpos := groupL_pos
    refine Nat.lt_of_mul_lt_mul_left (a := 2 ^ 261) ?_
    rw [Nat.mul_left_comm]
    omega
  · rw [montgomeryReduce, Nat.mul_mod, ← hmod, ← Nat.mul_mod, ← mul_assoc, Nat.mul_mod, montRInv_spec,
      one_mul, Nat.mod_mod]

/-- The conditional subtraction takes a number below 2ℓ to its residue. -/
theorem montgomeryLimbs_eq {T : Nat} (hT : T < 2 ^ 261 * groupL) :
    montgomeryLimbs T = montgomeryReduce T := by
  obtain ⟨hlt, hmod⟩ := montgomerySteps_div hT
  rw [montgomeryLimbs, ← hmod]
  split
  next hge => rw [Nat.mod_eq_sub_mod hge, Nat.mod_eq_of_lt (by omega)]
  next hlt' => rw [Nat.mod_eq_of_lt (not_le.1 hlt')]

/-- A stored scalar times RR is a number the procedure of R205 reduces. -/
theorem mul_montRR_domain {x : Nat} (hx : x < 2 ^ 255) : x * montRR < 2 ^ 261 * groupL :=
  montgomery_domain hx (by decide +kernel)

/-! ## The statements -/

/-- Settles O38: each helper's value is the integer function mod ℓ. -/
theorem scalarArithmeticIsReduced : Obligations.ScalarArithmeticIsReduced := by
  intro d a b c s
  have hL : (2 ^ 252 + 27742317777372353535851937790883648493 : Int) = groupL := by
    rw [groupL_eq]; norm_cast
  rw [← groupL_eq, hL]
  refine ⟨runs_setS_getS (·.val = _) rfl rfl (val_scReduced _),
    runs_setS_getS (fun x => (x.val : Int) = _) rfl rfl (val_scSubMod _ _),
    runs_setS_getS (·.val = _) rfl rfl (val_scReduced _),
    runs_setS_getS (·.val = _) rfl rfl (val_scReduced _),
    runs_setS_getS (·.val = _) rfl rfl ?loadwide,
    runs_setS_getS (·.val = _) rfl rfl (val_scReduced _),
    runs_setS_getS (fun x => x.val < groupL ∧ x.val * 2 ^ 261 % groupL = _) rfl rfl ?montmul⟩
  case loadwide => rw [val_scReduced, readBuf_eq_halves]
  case montmul =>
    rw [val_montgomeryMul]
    exact ⟨montgomeryReduce_lt _, montgomeryReduce_mul _⟩

/-- Settles O39: SC_LOAD by the three ranges, the others by what they write. -/
theorem scalarTransfersGiveTheirResults : Obligations.ScalarTransfersGiveTheirResults := by
  intro d a b h s
  rw [← groupL_eq]
  have hL := groupL_lt_two_pow
  refine ⟨fun hh => ⟨fun hlt => ?load, fun hge hlt => ?noncanonical, fun hge => ?highBit, ?loadbits,
      fun hm => ?store⟩,
    runs_setS_getS (· = _) rfl rfl rfl,
    runs_scConst d s (by decide) (val_scalarOfNat (by decide)),
    runs_scConst d s (by decide) (val_scalarOfNat (by decide)),
    runs_scConst d s (by decide) (val_scalarOfNat hL), runs_setK rfl ?eq⟩
  case load =>
    exact runs_setS_getS (·.val = s.readHalf h) (exec_scLoad hh d s) (if_pos hlt)
      (val_scalarOfNat (hlt.trans hL))
  case noncanonical =>
    exact raises_of_finish (exec_scLoad hh d s) ((if_neg (not_lt.2 hge)).trans (if_pos hlt))
  case highBit =>
    exact raises_of_finish (exec_scLoad hh d s)
      ((if_neg (not_lt.2 (hL.le.trans hge))).trans (if_neg (not_lt.2 hge)))
  case loadbits => exact runs_setS_getS (·.val = _) rfl (needHalf_of_le hh _) rfl
  case store =>
    exact runs_writeHalf (congrArg (finish _ s) (needHalf_of_le hh _))
      (readHalf_commit_writeHalf_scalar hm h (s.getS a))
  case eq => rw [commit_getK, getK_setK_self, beq_iff_eq]

/-- Settles O40: DIG holds the list of digits, whose value and ranges are those of the recursion. -/
theorem radix16DigitsSumToTheScalar : Obligations.Radix16DigitsSumToTheScalar := by
  intro a s hm
  have hn : (s.getS a).val < 2 ^ 255 := (s.getS a).isLt
  have hlen := radix16_length (s.getS a).val
  refine runs_writeDig (by omega) rfl ⟨?sum, fun i hi => ?low, ?topLow, ?topHigh, fun i hlo hhi => ?past⟩
  case sum =>
    rw [← radix16_value hn, ← hlen]
    exact digitSum_eq_digitsValue _ fun i hi => digAt_writeDig_radix16 hm _ (by omega)
  case low => rw [digAt_writeDig_radix16 hm _ (by omega)]; exact radix16_range hn hi
  case topLow => rw [digAt_writeDig_radix16 hm _ (by omega)]; exact (radix16_top_range hn).1
  case topHigh => rw [digAt_writeDig_radix16 hm _ (by omega)]; exact (radix16_top_range hn).2
  case past => rw [digAt_writeDig_radix16 hm _ hhi, List.getElem?_eq_none (by omega), Option.getD_none]

/-- Settles O41: DIG holds the list of digits, whose value, sizes and distances are those of the recursion. -/
theorem naf5DigitsSumToTheScalar : Obligations.Naf5DigitsSumToTheScalar := by
  intro a s hm
  have hlen := naf5_length (s.getS a).val
  refine runs_writeDig hlen.le rfl ⟨?sum, fun i hi => ?odd, fun i j hij hj => ?apart⟩
  case sum =>
    rw [← naf5_value (s.getS a).isLt, ← hlen]
    exact digitSum_eq_digitsValue _ fun i hi => digAt_writeDig_naf5 hm _ (by omega)
  case odd => rw [digAt_writeDig_naf5 hm _ hi]; exact naf5_zero_or_odd _ hi
  case apart =>
    rw [digAt_writeDig_naf5 hm _ (by omega), digAt_writeDig_naf5 hm _ hj]
    exact naf5_apart _ hij hj

/-- Settles O42: the limb procedure keeps T mod ℓ and divides by R, and each number it is given is below R·ℓ. -/
theorem montgomeryLimbsGiveTheReduction : Obligations.MontgomeryLimbsGiveTheReduction := by
  refine ⟨⟨by decide, ?_, rfl, montRModL_eq, montRR_eq, by decide +kernel, montRInv_spec⟩,
    fun T hT => ⟨montgomeryLimbs_eq hT, montgomeryReduce_lt T, montgomeryReduce_mul T⟩,
    fun x y hx hy => ⟨toMontgomery_eq x, montgomeryReduce_lt y, montgomeryReduce_mul y,
      montgomeryProduct_eq x y, mul_montRR_domain hx, montgomery_domain hx hy,
      mul_montRR_domain ((montgomeryReduce_lt _).trans groupL_lt_two_pow)⟩⟩
  rw [Nat.add_comm]
  exact lFactor_spec

end Sys2Proof.Machine
end

section
/-! The point registers, the coordinate forms and the conversions between them (43_point.md R240 to R254): what each
command leaves in its destination, slot for slot. -/

namespace Sys2Proof.Machine

/-! ## What a point command leaves in its destination -/

/-- A command whose checks pass and which writes `q` to P[d] has what follows from P[d] = `q`. -/
theorem runs_setP_of_getP_eq {i : Instr} {s : State} {d : Reg} {q : Point} {r : Result} {post : State → Prop}
    (he : exec i s = finish i s r) (hr : r = .ok (s.setP d q)) (hp : ∀ t, t.getP d = q → post t) :
    Runs i s { p := [d] } post :=
  runs_of_finish he hr (completes_setP s d q) (hp _ (by rw [commit_getP, getP_setP_self]))

/-- A command whose checks pass and which writes `q` to P[d] leaves a content with the properties of `q` there. -/
theorem runs_setP_getP {i : Instr} {s : State} {d : Reg} {q : Point} {r : Result} (P : Point → Prop)
    (he : exec i s = finish i s r) (hr : r = .ok (s.setP d q)) (hq : P q) :
    Runs i s { p := [d] } fun t => P (t.getP d) :=
  runs_setP_of_getP_eq he hr fun _ ht => ht ▸ hq

theorem needTag_of_eq {q : Point} {t : Tag} (h : q.tag = t) (k : Result) : needTag q t k = k :=
  (needTag_eq q t k).trans (if_pos h)

/-- The two tag checks of a command with two point sources (R231). -/
theorem needTag_needTag_of_eq {p q : Point} {t u : Tag} (hp : p.tag = t) (hq : q.tag = u) (k : Result) :
    needTag p t (needTag q u k) = k :=
  (needTag_of_eq hp _).trans (needTag_of_eq hq k)

theorem needAtMost_of_le {imm : Byte} {n : Nat} (h : imm.toNat ≤ n) (k : Result) :
    needAtMost imm n k = k :=
  (needAtMost_eq imm n k).trans (if_pos h)

/-- PT_CONST leaves the entry of the ROM that its index names (R240). -/
theorem runs_ptConst (d : Reg) {imm : Byte} (s : State) (P : Point → Prop) (himm : imm.toNat ≤ 4)
    (hq : P (ptConstRom.getD imm.toNat (Point.ofExt extIdentity))) :
    Runs (.ptConst d imm) s { p := [d] } fun t => P (t.getP d) :=
  runs_setP_getP P rfl (needAtMost_of_le himm _) hq

/-- PT_GET leaves the slot that its immediate names (R242). -/
theorem runs_ptGet (d a : Reg) {imm : Byte} (s : State) (himm : imm.toNat ≤ 3) :
    Runs (.ptGet d a imm) s { f := [d] } fun t => t.getF d = (s.getP a).slot imm.toNat :=
  runs_setF_getF (· = _) rfl (needAtMost_of_le himm _) rfl

/-- PT_SET replaces the slot that its immediate names (R243). -/
theorem runs_ptSet (d a : Reg) {imm : Byte} (s : State) (himm : imm.toNat ≤ 3) :
    Runs (.ptSet d a imm) s { p := [d] } fun t =>
      t.getP d = (s.getP d).setSlot imm.toNat (s.getF a) :=
  runs_setP_getP (· = _) rfl (needAtMost_of_le himm _) rfl

/-- The five tag codes name the five tags in order (R37). -/
theorem tagOfCode_eq_getElem? {n : Nat} (h : n ≤ 4) :
    some (tagOfCode n) = [Tag.ext, Tag.proj, Tag.comp, Tag.pn, Tag.an][n]? := by
  interval_cases n <;> rfl

theorem gf_ofNat_ofNat (n : Nat) [n.AtLeastTwo] : gf (Fe.ofNat (OfNat.ofNat n)) = OfNat.ofNat n :=
  (gf_ofNat _).trans Nat.cast_ofNat

/-- The standard basepoint (R240, index 1). -/
theorem hasSlots_basepoint : HasSlots (Point.ofExt basepoint) .ext
    0x216936d3cd6e53fec0a4e231fdd6dc5c692cc7609525a7b2c9562d608f25d51a
    0x6666666666666666666666666666666666666666666666666666666666666658 1
    0x67875f0fd78b766566ea4e8e64abe37d20f09f80775152f56dde8ab3a5b7dda3 :=
  ⟨rfl, gf_ofNat_ofNat _, gf_ofNat_ofNat _, gf_feOne, gf_ofNat_ofNat _⟩

/-- Settles O43: each command writes the entry, the copy, the slot or the tag that its immediate names. -/
theorem pointRegisterCommandsGiveTheirResults : Obligations.PointRegisterCommandsGiveTheirResults := by
  intro d a b c imm s
  have h0 := gf_feZero
  have h1 := gf_feOne
  refine ⟨runs_ptConst d s (HasSlots · .ext 0 1 1 0) (by decide) ⟨rfl, h0, h1, h1, h0⟩,
    runs_ptConst d s (HasSlots · .ext _ _ _ _) (by decide) hasSlots_basepoint,
    runs_ptConst d s (HasSlots · .proj 0 1 1 0) (by decide) ⟨rfl, h0, h1, h1, h0⟩,
    runs_ptConst d s (HasSlots · .pn 1 1 1 0) (by decide) ⟨rfl, h1, h1, h1, h0⟩,
    runs_ptConst d s (HasSlots · .an 1 1 0 0) (by decide) ⟨rfl, h1, h1, h0, h0⟩,
    runs_setP_getP (· = _) rfl rfl rfl,
    runs_ptGet d a s (by decide), runs_ptGet d a s (by decide),
    runs_ptGet d a s (by decide), runs_ptGet d a s (by decide),
    runs_ptSet d a s (by decide), runs_ptSet d a s (by decide),
    runs_ptSet d a s (by decide), runs_ptSet d a s (by decide),
    fun himm => ?settag, fun htag => ?sel⟩
  case settag =>
    exact runs_setP_getP (fun q => q = { s.getP d with tag := q.tag } ∧ some q.tag = _) rfl
      (needAtMost_of_le himm _) ⟨rfl, tagOfCode_eq_getElem? himm⟩
  case sel =>
    exact runs_setP_getP (fun q => (_ → q = s.getP b) ∧ (_ → q = s.getP a)) rfl
      (needTag_of_eq htag.symm _) ⟨fun hk => if_pos hk, fun hk => if_neg (Bool.eq_false_iff.1 hk)⟩

/-! ## Negation (R246) -/

/-- Settles O44: PT_NEG takes the arm of its source's tag. -/
theorem pointNegationFollowsTheTag : Obligations.PointNegationFollowsTheTag := by
  intro d a s
  refine ⟨fun h => ?ext, fun h => ?pn, fun h => ?an, ?raises⟩
  case ext =>
    exact runs_setP_getP (q := Point.ofExt (extNeg (s.getP a).asExt)) (HasSlots · .ext _ _ _ _) rfl
      (by rw [h]) ⟨rfl, gf_fneg _, rfl, rfl, gf_fneg _⟩
  case pn =>
    exact runs_setP_getP (q := Point.ofPn (pnNeg (s.getP a).asPn)) (HasSlots · .pn _ _ _ _) rfl
      (by rw [h]) ⟨rfl, rfl, rfl, rfl, gf_fneg _⟩
  case an =>
    exact runs_setP_getP (q := Point.ofAn (anNeg (s.getP a).asAn)) (HasSlots · .an _ _ _ _) rfl
      (by rw [h]) ⟨rfl, rfl, rfl, gf_fneg _, gf_feZero⟩
  case raises =>
    rintro (h | h) <;> exact raises_of_finish (e := .tag) rfl (by rw [h])

end Sys2Proof.Machine
end

section
/-! The point formulas as polynomials in GF(p), slot for slot (43_point.md R232, R247 to R262), and the commands that
compute them. -/

namespace Sys2Proof.Machine

/-! ## The completed model (R255 to R259) -/

theorem hasSlots_projDbl (q : Proj) : HasSlots (Point.ofComp (projDbl q)) .comp
    (2 * gf q.X * gf q.Y) (gf q.Y ^ 2 + gf q.X ^ 2) (gf q.Y ^ 2 - gf q.X ^ 2)
    (2 * gf q.Z ^ 2 - (gf q.Y ^ 2 - gf q.X ^ 2)) := by
  refine ⟨rfl, ?product, ?_, ?_, ?_⟩ <;>
    simp only [Point.ofComp, projDbl, gf_fadd, gf_fsub, gf_fsq, gf_fsq2]
  case product => ring

theorem hasSlots_extAddPn (p : Ext) (q : Pn) : HasSlots (Point.ofComp (extAddPn p q)) .comp
    ((gf p.Y + gf p.X) * gf q.ypx - (gf p.Y - gf p.X) * gf q.ymx)
    ((gf p.Y + gf p.X) * gf q.ypx + (gf p.Y - gf p.X) * gf q.ymx)
    (2 * gf p.Z * gf q.Z + gf p.T * gf q.t2d) (2 * gf p.Z * gf q.Z - gf p.T * gf q.t2d) := by
  refine ⟨rfl, ?_, ?_, ?_, ?_⟩ <;>
    simp only [Point.ofComp, extAddPn, gf_fadd, gf_fsub, gf_fmul, ← two_mul, mul_assoc]

theorem hasSlots_extAddAn (p : Ext) (q : An) : HasSlots (Point.ofComp (extAddAn p q)) .comp
    ((gf p.Y + gf p.X) * gf q.ypx - (gf p.Y - gf p.X) * gf q.ymx)
    ((gf p.Y + gf p.X) * gf q.ypx + (gf p.Y - gf p.X) * gf q.ymx)
    (2 * gf p.Z + gf p.T * gf q.xy2d) (2 * gf p.Z - gf p.T * gf q.xy2d) := by
  refine ⟨rfl, ?_, ?_, ?_, ?_⟩ <;>
    simp only [Point.ofComp, extAddAn, gf_fadd, gf_fsub, gf_fmul, ← two_mul]

theorem hasSlots_extSubPn (p : Ext) (q : Pn) : HasSlots (Point.ofComp (extSubPn p q)) .comp
    ((gf p.Y + gf p.X) * gf q.ymx - (gf p.Y - gf p.X) * gf q.ypx)
    ((gf p.Y + gf p.X) * gf q.ymx + (gf p.Y - gf p.X) * gf q.ypx)
    (2 * gf p.Z * gf q.Z - gf p.T * gf q.t2d) (2 * gf p.Z * gf q.Z + gf p.T * gf q.t2d) := by
  refine ⟨rfl, ?_, ?_, ?_, ?_⟩ <;>
    simp only [Point.ofComp, extSubPn, gf_fadd, gf_fsub, gf_fmul, ← two_mul, mul_assoc]

theorem hasSlots_extSubAn (p : Ext) (q : An) : HasSlots (Point.ofComp (extSubAn p q)) .comp
    ((gf p.Y + gf p.X) * gf q.ymx - (gf p.Y - gf p.X) * gf q.ypx)
    ((gf p.Y + gf p.X) * gf q.ymx + (gf p.Y - gf p.X) * gf q.ypx)
    (2 * gf p.Z - gf p.T * gf q.xy2d) (2 * gf p.Z + gf p.T * gf q.xy2d) := by
  refine ⟨rfl, ?_, ?_, ?_, ?_⟩ <;>
    simp only [Point.ofComp, extSubAn, gf_fadd, gf_fsub, gf_fmul, ← two_mul]

/-- Settles O46: each command writes the completed content of its formula. -/
theorem completedFormulasGiveTheirSlots : Obligations.CompletedFormulasGiveTheirSlots := by
  rintro d a b s X Y Z T q0 q1 q2 q3 rfl rfl rfl rfl rfl rfl rfl rfl
  refine ⟨fun ha => ?dbl, fun ha hb => ⟨?addPn, ?subPn⟩, fun ha hb => ⟨?addAn, ?subAn⟩⟩
  case dbl =>
    exact runs_setP_getP (HasSlots · .comp _ _ _ _) rfl (needTag_of_eq ha _) (hasSlots_projDbl _)
  case addPn =>
    exact runs_setP_getP (HasSlots · .comp _ _ _ _) rfl (needTag_needTag_of_eq ha hb _)
      (hasSlots_extAddPn _ _)
  case subPn =>
    exact runs_setP_getP (HasSlots · .comp _ _ _ _) rfl (needTag_needTag_of_eq ha hb _)
      (hasSlots_extSubPn _ _)
  case addAn =>
    exact runs_setP_getP (HasSlots · .comp _ _ _ _) rfl (needTag_needTag_of_eq ha hb _)
      (hasSlots_extAddAn _ _)
  case subAn =>
    exact runs_setP_getP (HasSlots · .comp _ _ _ _) rfl (needTag_needTag_of_eq ha hb _)
      (hasSlots_extSubAn _ _)

/-! ## Conversions (R247 to R254) -/

theorem hasSlots_extToPn (e : Ext) : HasSlots (Point.ofPn (extToPn e)) .pn
    (gf e.Y + gf e.X) (gf e.Y - gf e.X) (gf e.Z) (2 * dGf * gf e.T) :=
  ⟨rfl, gf_fadd _ _, gf_fsub _ _, rfl, by
    rw [Point.ofPn, extToPn, gf_fmul, gf_feD2, mul_comm]⟩

/-- The affine coordinates that EXT_TO_AN computes divide by Z, and are 0 for Z = 0 (R249). -/
theorem gf_fmul_finv {x z : Fe} :
    (gf z ≠ 0 → gf (fmul x (finv z)) * gf z = gf x) ∧ (gf z = 0 → gf (fmul x (finv z)) = 0) := by
  rw [gf_fmul]
  refine ⟨fun hz => ?_, fun hz => ?_⟩
  · rw [mul_assoc, gf_finv_mul_self hz, mul_one]
  · rw [gf_finv_of_zero hz, mul_zero]

theorem hasSlots_extToAn (e : Ext) : ∃ x y : Gf,
    HasSlots (Point.ofAn (extToAn e)) .an (y + x) (y - x) (2 * dGf * x * y) 0 ∧
      (gf e.Z ≠ 0 → x * gf e.Z = gf e.X ∧ y * gf e.Z = gf e.Y) ∧ (gf e.Z = 0 → x = 0 ∧ y = 0) := by
  obtain ⟨hx, hx0⟩ := gf_fmul_finv (x := e.X) (z := e.Z)
  obtain ⟨hy, hy0⟩ := gf_fmul_finv (x := e.Y) (z := e.Z)
  refine ⟨gf (fmul e.X (finv e.Z)), gf (fmul e.Y (finv e.Z)),
    ⟨rfl, gf_fadd _ _, gf_fsub _ _, ?_, gf_feZero⟩,
    fun hz => ⟨hx hz, hy hz⟩, fun hz => ⟨hx0 hz, hy0 hz⟩⟩
  rw [Point.ofAn, extToAn, gf_fmul, gf_fmul (fmul _ _), gf_feD2, mul_comm, ← mul_assoc]

theorem HasSlots.of_eq {q : Point} {t : Tag} {s0 s1 s2 s3 u0 u1 u2 u3 : Gf} (h : HasSlots q t s0 s1 s2 s3)
    (h0 : s0 = u0) (h1 : s1 = u1) (h2 : s2 = u2) (h3 : s3 = u3) : HasSlots q t u0 u1 u2 u3 := by
  rwa [← h0, ← h1, ← h2, ← h3]

/-- A completed content with known slots converts to known products (R252). -/
theorem HasSlots.compToExt {c : Comp} {X Y Z T : Gf} (h : HasSlots (Point.ofComp c) .comp X Y Z T) :
    HasSlots (Point.ofExt (compToExt c)) .ext (X * T) (Y * Z) (Z * T) (X * Y) := by
  obtain ⟨-, rfl, rfl, rfl, rfl⟩ := h
  exact ⟨rfl, gf_fmul _ _, gf_fmul _ _, gf_fmul _ _, gf_fmul _ _⟩

/-- Addition to the identity (R253). -/
theorem hasSlots_pnToExt (q : Pn) : HasSlots (Point.ofExt (pnToExt q)) .ext
    (2 * (gf q.ypx - gf q.ymx) * gf q.Z) (2 * (gf q.ypx + gf q.ymx) * gf q.Z) (4 * gf q.Z ^ 2)
    ((gf q.ypx - gf q.ymx) * (gf q.ypx + gf q.ymx)) := by
  refine (hasSlots_extAddPn extIdentity q).compToExt.of_eq ?_ ?_ ?_ ?_ <;>
  · rw [extIdentity, gf_feZero, gf_feOne]
    ring

/-- Addition to the identity (R254). -/
theorem hasSlots_anToExt (q : An) : HasSlots (Point.ofExt (anToExt q)) .ext
    (2 * (gf q.ypx - gf q.ymx)) (2 * (gf q.ypx + gf q.ymx)) 4
    ((gf q.ypx - gf q.ymx) * (gf q.ypx + gf q.ymx)) := by
  refine (hasSlots_extAddAn extIdentity q).compToExt.of_eq ?_ ?_ ?_ ?_ <;>
  · rw [extIdentity, gf_feZero, gf_feOne]
    ring

/-- Settles O45: each command writes the content of its conversion. -/
theorem conversionsGiveTheirSlots : Obligations.ConversionsGiveTheirSlots := by
  rintro d a s X Y Z T rfl rfl rfl rfl
  refine ⟨fun ha => ⟨?toProj, ?toPn, ?toAn⟩, fun ha => ?projToExt, fun ha => ⟨?compToProj, ?compToExt⟩,
    fun ha => ?pnToExt, fun ha => ?anToExt⟩
  case toProj =>
    exact runs_setP_getP (HasSlots · .proj _ _ _ _) rfl (needTag_of_eq ha _)
      ⟨rfl, rfl, rfl, rfl, gf_feZero⟩
  case toPn =>
    exact runs_setP_getP (HasSlots · .pn _ _ _ _) rfl (needTag_of_eq ha _) (hasSlots_extToPn _)
  case toAn =>
    exact runs_setP_of_getP_eq rfl (needTag_of_eq ha _) fun t ht => ht ▸ hasSlots_extToAn _
  case projToExt =>
    exact runs_setP_getP (HasSlots · .ext _ _ _ _) rfl (needTag_of_eq ha _)
      ⟨rfl, gf_fmul _ _, gf_fmul _ _, gf_fsq _, gf_fmul _ _⟩
  case compToProj =>
    exact runs_setP_getP (HasSlots · .proj _ _ _ _) rfl (needTag_of_eq ha _)
      ⟨rfl, gf_fmul _ _, gf_fmul _ _, gf_fmul _ _, gf_feZero⟩
  case compToExt =>
    exact runs_setP_getP (HasSlots · .ext _ _ _ _) rfl (needTag_of_eq ha _)
      ⟨rfl, gf_fmul _ _, gf_fmul _ _, gf_fmul _ _, gf_fmul _ _⟩
  case pnToExt =>
    exact runs_setP_getP (HasSlots · .ext _ _ _ _) rfl (needTag_of_eq ha _) (hasSlots_pnToExt _)
  case anToExt =>
    exact runs_setP_getP (HasSlots · .ext _ _ _ _) rfl (needTag_of_eq ha _) (hasSlots_anToExt _)

end Sys2Proof.Machine
end

section
/-! The Edwards group law, its encoding and its predicates (43_point.md R230, R260 to R269). -/

namespace Sys2Proof.Machine

/-! ## Addition, subtraction and doubling (R260 to R263) -/

theorem gf_mul_t2d (p q : Ext) : gf p.T * gf (extToPn q).t2d = 2 * dGf * gf p.T * gf q.T := by
  rw [extToPn, gf_fmul, gf_feD2]
  ring

theorem hasSlots_extAddPn_extToPn (p q : Ext) :
    HasSlots (Point.ofComp (extAddPn p (extToPn q))) .comp
      ((gf p.Y + gf p.X) * (gf q.Y + gf q.X) - (gf p.Y - gf p.X) * (gf q.Y - gf q.X))
      ((gf p.Y + gf p.X) * (gf q.Y + gf q.X) + (gf p.Y - gf p.X) * (gf q.Y - gf q.X))
      (2 * gf p.Z * gf q.Z + 2 * dGf * gf p.T * gf q.T)
      (2 * gf p.Z * gf q.Z - 2 * dGf * gf p.T * gf q.T) := by
  have h := hasSlots_extAddPn p (extToPn q)
  rw [gf_mul_t2d] at h
  simpa only [extToPn, gf_fadd, gf_fsub] using h

theorem hasSlots_extSubPn_extToPn (p q : Ext) :
    HasSlots (Point.ofComp (extSubPn p (extToPn q))) .comp
      ((gf p.Y + gf p.X) * (gf q.Y - gf q.X) - (gf p.Y - gf p.X) * (gf q.Y + gf q.X))
      ((gf p.Y + gf p.X) * (gf q.Y - gf q.X) + (gf p.Y - gf p.X) * (gf q.Y + gf q.X))
      (2 * gf p.Z * gf q.Z - 2 * dGf * gf p.T * gf q.T)
      (2 * gf p.Z * gf q.Z + 2 * dGf * gf p.T * gf q.T) := by
  have h := hasSlots_extSubPn p (extToPn q)
  rw [gf_mul_t2d] at h
  simpa only [extToPn, gf_fadd, gf_fsub] using h

theorem exec_edAdd (d : Reg) {a b : Reg} {s : State} (ha : (s.getP a).tag = .ext)
    (hb : (s.getP b).tag = .ext) : exec (.edAdd d a b) s =
      finish (.edAdd d a b) s (.ok (s.setP d (Point.ofExt (edAdd (s.getP a).asExt (s.getP b).asExt)))) :=
  congrArg (finish _ s) (needTag_needTag_of_eq ha hb _)

theorem exec_edSub (d : Reg) {a b : Reg} {s : State} (ha : (s.getP a).tag = .ext)
    (hb : (s.getP b).tag = .ext) : exec (.edSub d a b) s =
      finish (.edSub d a b) s (.ok (s.setP d (Point.ofExt (edSub (s.getP a).asExt (s.getP b).asExt)))) :=
  congrArg (finish _ s) (needTag_needTag_of_eq ha hb _)

theorem exec_edDbl (d : Reg) {a : Reg} {s : State} (ha : (s.getP a).tag = .ext) : exec (.edDbl d a) s =
      finish (.edDbl d a) s (.ok (s.setP d (Point.ofExt (edDbl (s.getP a).asExt)))) :=
  congrArg (finish _ s) (needTag_of_eq ha _)

/-- Settles O47: E, H, G and F are the slots of the completed content that COMP_TO_EXT multiplies out. -/
theorem edwardsAdditionsGiveTheirSlots : Obligations.EdwardsAdditionsGiveTheirSlots := by
  rintro d a b s X Y Z T X' Y' Z' T' rfl rfl rfl rfl rfl rfl rfl rfl ha
  refine ⟨runs_setP_of_getP_eq (exec_edDbl d ha) rfl ?dbl, fun hb =>
    ⟨runs_setP_of_getP_eq (exec_edAdd d ha hb) rfl ?add,
      runs_setP_of_getP_eq (exec_edSub d ha hb) rfl ?sub⟩⟩
  case dbl =>
    rintro t ht E F G H rfl rfl rfl rfl
    rw [ht]
    exact (hasSlots_projDbl _).compToExt
  case add =>
    rintro t ht A B C D E F G H rfl rfl rfl rfl rfl rfl rfl rfl
    rw [ht]
    exact (hasSlots_extAddPn_extToPn _ _).compToExt
  case sub =>
    rintro t ht A B C D E F G H rfl rfl rfl rfl rfl rfl rfl rfl
    rw [ht]
    exact (hasSlots_extSubPn_extToPn _ _).compToExt

/-- ed_sub computes the law with the second point negated (R230, R261). -/
theorem represents_edSub {p q : Ext} {x1 y1 x2 y2 : Gf} (h1 : Represents p x1 y1)
    (h2 : Represents q x2 y2) :
    ∃ x y, Represents (edSub p q) x y ∧
      x * (1 - dGf * x1 * x2 * y1 * y2) = x1 * y2 - y1 * x2 ∧
      y * (1 + dGf * x1 * x2 * y1 * y2) = y1 * y2 - x1 * x2 := by
  obtain ⟨x, y, hr, hx, hy⟩ := represents_edAdd h1 (represents_extNeg h2)
  refine ⟨x, y, edSub_eq_edAdd_neg p q ▸ hr, ?_, ?_⟩
  · linear_combination hx
  · linear_combination hy

/-- Settles O49: the denominators do not vanish because d is not a square, and each formula computes the law. -/
theorem edwardsAdditionIsTheCompleteLaw : Obligations.EdwardsAdditionIsTheCompleteLaw := by
  intro d a b s x1 y1 x2 y2 ha hb h1 h2
  obtain ⟨hplus, hminus⟩ := curve_denominators h1.curve h2.curve
  refine ⟨hplus, hminus, runs_setP_of_getP_eq (exec_edAdd d ha hb) rfl fun t ht => ?add,
    runs_setP_of_getP_eq (exec_edSub d ha hb) rfl fun t ht => ?sub,
    runs_setP_of_getP_eq (exec_edDbl d ha) rfl fun t ht => ?dbl⟩ <;> rw [ht]
  case add => exact ⟨rfl, represents_edAdd h1 h2⟩
  case sub => exact ⟨rfl, represents_edSub h1 h2⟩
  case dbl =>
    obtain ⟨x, y, hr, hx, hy⟩ := represents_edDbl h1
    refine ⟨rfl, x, y, hr, ?_, ?_⟩
    · linear_combination hx
    · linear_combination hy

/-! ## Multiplication by 2^k (R263) -/

theorem projDblTimes_eq_iterate (n : Nat) (q : Proj) :
    projDblTimes n q = (fun q => compToProj (projDbl q))^[n] q := by
  induction n generalizing q with
  | zero => rfl
  | succ n ih => exact ih _

theorem exec_edMulpow2 (d : Reg) {a : Reg} (imm : Byte) {s : State} (ha : (s.getP a).tag = .ext) :
    exec (.edMulpow2 d a imm) s = finish (.edMulpow2 d a imm) s (needExponent imm
      (.ok (s.setP d (Point.ofExt (edMulpow2 (s.getP a).asExt imm.toNat))))) :=
  congrArg (finish _ s) (needTag_of_eq ha _)

/-- Settles O48: the loop of the helper is the iterate, and the tag is checked first. -/
theorem multiplyByPowerOfTwoIsRepeatedDoubling : Obligations.MultiplyByPowerOfTwoIsRepeatedDoubling := by
  intro d a imm s
  refine ⟨fun ha himm => ?iterate, fun ha => ⟨_, _, exec_edMulpow2 d 1 ha, exec_edDbl d ha, rfl⟩,
    fun ha => raises_of_finish (exec_edMulpow2 d 0 ha) rfl,
    fun ha => raises_of_finish rfl ((needTag_eq _ _ _).trans (if_neg ha))⟩
  case iterate =>
    refine runs_setP_getP (· = _) (exec_edMulpow2 d imm ha)
      ((needExponent_eq _ _).trans (if_pos fun h0 => himm (BitVec.eq_of_toNat_eq h0))) ?_
    rw [edMulpow2, projDblTimes_eq_iterate]

/-! ## Decoding and encoding (R264, R265) -/

theorem exec_edDecode {h : HalfField} (hh : h.val ≤ 1) (d : Reg) (s : State) {o : Option Ext}
    (ho : edDecompress (s.readHalf h) = o) : exec (.edDecode d h) s =
      finish (.edDecode d h) s
        (o.elim (.error .edwardsNotSquare) fun e => .ok (s.setP d (Point.ofExt e))) := by
  refine congrArg (finish _ s) ((needHalf_of_le hh _).trans ?_)
  cases o <;> rw [ho] <;> rfl

theorem exec_edEncode {h : HalfField} (hh : h.val ≤ 1) {a : Reg} {s : State}
    (ha : (s.getP a).tag = .ext) : exec (.edEncode a h) s =
      finish (.edEncode a h) s (.ok (s.writeHalf h (edCompress (s.getP a).asExt))) :=
  congrArg (finish _ s) ((needHalf_of_le hh _).trans (needTag_of_eq ha _))

theorem readHalf_commit_writeHalf_edCompress {s : State} (hm : Memory.wf s.mem = true) (h : HalfField)
    (e : Ext) : (commit (s.writeHalf h (edCompress e))).readHalf h = edCompress e :=
  readHalf_commit_writeHalf hm h (edCompress_lt e)

/-- The content of a register that a decoded point fills (R264). -/
theorem hasSlots_decoded (X Y : Fe) : HasSlots (Point.ofExt ⟨X, Y, feOne, fmul X Y⟩) .ext
    (gf X) (gf Y) 1 (gf X * gf Y) :=
  ⟨rfl, rfl, rfl, gf_feOne, gf_fmul _ _⟩

/-- Settles O50: the decompression finds a root exactly where there is one, with the encoded sign. -/
theorem edwardsDecodeFindsThePoint : Obligations.EdwardsDecodeFindsThePoint := by
  intro d h s y hh hy
  refine ⟨fun hx => ?finds, fun hx => ?raises⟩
  case finds =>
    obtain ⟨X, Y, hdec, rfl, hcurve, hsign⟩ := edDecompress_some hy hx
    refine runs_setP_of_getP_eq (exec_edDecode hh d s hdec) rfl fun t ht => ?_
    rw [ht]
    exact ⟨gf X, hasSlots_decoded X Y, hcurve, fun h0 => (hsign h0).trans (testBit_255 (readHalf_lt s h))⟩
  case raises =>
    exact raises_of_finish (exec_edDecode hh d s (edDecompress_none hy hx)) rfl

/-- Settles O51: the half holds the compression, which is below 2^256. -/
theorem edwardsEncodeStoresTheAffinePoint : Obligations.EdwardsEncodeStoresTheAffinePoint := by
  intro a h s hh hm ha
  have hread := readHalf_commit_writeHalf_edCompress hm h (s.getP a).asExt
  exact runs_writeHalf (exec_edEncode hh ha)
    ⟨fun x y hz hx hy => hread.trans (edCompress_eq hz hx hy), fun hz => hread.trans (edCompress_of_zero hz)⟩

/-- The low 255 bits of an encoding are y (R265). -/
theorem Represents.edCompress_mod {p : Ext} {x y : Gf} (h : Represents p x y) :
    ((edCompress p % 2 ^ 255 : Nat) : Gf) = y := by
  have : NeZero fieldP := ⟨fieldP_pos.ne'⟩
  have hlt := ZMod.val_lt y
  have hp := fieldP_eq
  rw [h.edCompress_eq, Nat.add_mul_mod_self_right, Nat.mod_eq_of_lt (by omega), ZMod.natCast_zmod_val]

/-- Bit 255 of an encoding is the sign of x (R265). -/
theorem Represents.edCompress_testBit {p : Ext} {x y : Gf} (h : Represents p x y) :
    (edCompress p).testBit 255 = true ↔ ZMod.val x % 2 = 1 := by
  have : NeZero fieldP := ⟨fieldP_pos.ne'⟩
  have hlt := ZMod.val_lt y
  have hp := fieldP_eq
  rw [testBit_255 (edCompress_lt p), h.edCompress_eq]
  omega

/-- Two points of the curve with the same y have the same x². -/
theorem OnCurve.sq_eq {x x' y : Gf} (h : OnCurve x y) (h' : OnCurve x' y) : x ^ 2 = x' ^ 2 := by
  have : Fact (Nat.Prime fieldP) := ⟨fieldP_prime⟩
  exact mul_left_cancel₀ (decode_denominator y)
    (((onCurve_iff x y).1 h).trans ((onCurve_iff x' y).1 h').symm)

/-- Decompression inverts compression: y is kept, and x is told by its square and its sign. -/
theorem Represents.edDecompress_edCompress {p : Ext} {x y : Gf} (h : Represents p x y) :
    ∃ X Y : Fe, edDecompress (edCompress p) = some ⟨X, Y, feOne, fmul X Y⟩ ∧ gf X = x ∧ gf Y = y := by
  have : Fact (Nat.Prime fieldP) := ⟨fieldP_prime⟩
  obtain ⟨X, Y, hdec, hY, hcurve, hsign⟩ := edDecompress_some h.edCompress_mod.symm ⟨x, h.curve⟩
  refine ⟨X, Y, hdec, ?_, hY⟩
  have hsq := hcurve.sq_eq h.curve
  by_cases h0 : gf X = 0
  · rw [h0, zero_pow two_ne_zero] at hsq
    rw [h0, pow_eq_zero_iff two_ne_zero |>.1 hsq.symm]
  · have hsame := (hsign h0).trans h.edCompress_testBit
    exact gf_eq_of_sq_of_parity hsq (by omega)

/-- Settles O52: the decoding command reads the half that the encoding command has written. -/
theorem edwardsEncodeThenDecodeRoundTrips : Obligations.EdwardsEncodeThenDecodeRoundTrips := by
  intro d a h s x y hh hm ha hrep
  obtain ⟨X, Y, hdec, rfl, rfl⟩ := hrep.edDecompress_edCompress
  rw [← readHalf_commit_writeHalf_edCompress hm h] at hdec
  refine ⟨_, _, exec_edEncode hh ha, exec_edDecode hh d _ hdec, ?_⟩
  rw [commit_getP, getP_setP_self]
  exact hasSlots_decoded X Y

/-! ## Predicates (R266 to R269) -/

theorem edEq_iff (p q : Ext) :
    edEq p q = true ↔ gf p.X * gf q.Z = gf q.X * gf p.Z ∧ gf p.Y * gf q.Z = gf q.Y * gf p.Z := by
  rw [edEq, Bool.and_eq_true, feq_iff, feq_iff, gf_fmul, gf_fmul, gf_fmul, gf_fmul]

theorem edIsident_iff (p : Ext) : edIsident p = true ↔ gf p.X = 0 ∧ gf p.Y = gf p.Z := by
  rw [edIsident, Bool.and_eq_true, feq_iff, feq_iff, gf_feZero]

/-- A command whose checks pass and which writes `x` to K[d] decides what `x` being true says. -/
theorem runs_setK_iff {i : Instr} {s : State} {d : Reg} {x : Bool} {r : Result} {P : Prop}
    (he : exec i s = finish i s r) (hr : r = .ok (s.setK d x)) (hx : x = true ↔ P) :
    Runs i s { k := [d] } fun t => t.getK d = true ↔ P :=
  runs_of_finish he hr (completes_setK s d x) (by rwa [commit_getK, getK_setK_self])

/-- Settles O53: the four predicates are comparisons of cross products or with the identity. -/
theorem pointPredicatesDecideTheirRelations : Obligations.PointPredicatesDecideTheirRelations := by
  intro d a b s ha
  exact ⟨fun hb => runs_setK_iff rfl (needTag_needTag_of_eq ha hb _) (edEq_iff _ _),
    runs_setK_iff rfl (needTag_of_eq ha _) (edIsident_iff _),
    runs_setK_iff rfl (needTag_of_eq ha _) (edIsident_iff _),
    runs_setK_iff rfl (needTag_of_eq ha _) (edIsident_iff _)⟩

end Sys2Proof.Machine
end

section
/-! The lookup tables, the selects and the scalar multiplications (44_scalarmul.md R300 to R312): tables and selects
by their entries, the three loops by position, and the curve point that every step of ED_SMUL keeps. -/

namespace Sys2Proof.Machine

/-! ## The scan of a select (R308) -/

/-- Place 0 is before the first entry, so the scan takes none. -/
theorem scanTable_of_lt {α : Type} {xabs j : Nat} (h : xabs < j) (l : List α) (t : α) :
    scanTable xabs j l t = t := by
  induction l generalizing j with
  | nil => rfl
  | cons e rest ih => rw [scanTable, if_neg h.ne, ih (Nat.lt_succ_of_lt h)]

theorem scanTable_add {α : Type} (j : Nat) {k : Nat} {l : List α} (h : k < l.length) (t : α) :
    scanTable (k + j) j l t = l[k] := by
  induction l generalizing j k t with
  | nil => exact absurd h (Nat.not_lt_zero k)
  | cons e rest ih =>
    cases k with
    | zero => rw [scanTable, Nat.zero_add, if_pos rfl, scanTable_of_lt (Nat.lt_succ_self j)]; rfl
    | succ k =>
      rw [scanTable, Nat.add_right_comm, Nat.add_assoc, ih (j + 1) (Nat.lt_of_succ_lt_succ h)]
      rfl

/-- The scan takes one of the entries or keeps the value it starts with. -/
theorem scanTable_mem {α : Type} (xabs j : Nat) (l : List α) (t : α) :
    scanTable xabs j l t ∈ t :: l := by
  induction l generalizing j t with
  | nil => exact List.mem_singleton.2 rfl
  | cons e rest ih =>
    rw [scanTable]
    split
    · exact List.mem_cons_of_mem t (ih (j + 1) e)
    · exact List.cons_subset_cons t (List.subset_cons_self e rest) (ih (j + 1) t)

/-- Place j + 1 is entry j. -/
theorem scanTable_toList {α : Type} (tab : Vector α 8) (t : α) (j : Fin 8) :
    scanTable (j.val + 1) 1 tab.toList t = tab.get j :=
  scanTable_add 1 (tab.length_toList.symm ▸ j.isLt) t

theorem pnSelect_zero (tab : Vector Pn 8) : pnSelect tab 0 = pnIdentity :=
  scanTable_of_lt zero_lt_one _ _

theorem pnSelect_pos (tab : Vector Pn 8) {x : Int} {j : Fin 8} (h : x = j.val + 1) :
    pnSelect tab x = tab.get j := by
  rw [pnSelect, if_neg (by omega), show x.natAbs = j.val + 1 by omega, scanTable_toList]

theorem pnSelect_neg (tab : Vector Pn 8) {x : Int} {j : Fin 8} (h : x = -(j.val + 1 : Int)) :
    pnSelect tab x = pnNeg (tab.get j) := by
  rw [pnSelect, if_pos (by omega), show x.natAbs = j.val + 1 by omega, scanTable_toList]

theorem anSelect_zero (tab : Vector An 8) : anSelect tab 0 = anIdentity :=
  scanTable_of_lt zero_lt_one _ _

theorem anSelect_pos (tab : Vector An 8) {x : Int} {j : Fin 8} (h : x = j.val + 1) :
    anSelect tab x = tab.get j := by
  rw [anSelect, if_neg (by omega), show x.natAbs = j.val + 1 by omega, scanTable_toList]

theorem anSelect_neg (tab : Vector An 8) {x : Int} {j : Fin 8} (h : x = -(j.val + 1 : Int)) :
    anSelect tab x = anNeg (tab.get j) := by
  rw [anSelect, if_pos (by omega), show x.natAbs = j.val + 1 by omega, scanTable_toList]

/-! ## The select commands (R301, R303, R306) -/

theorem hasSlots_pnNeg (q : Pn) : HasSlots (Point.ofPn (pnNeg q)) .pn
    (gf q.ymx) (gf q.ypx) (gf q.Z) (-gf q.t2d) :=
  ⟨rfl, rfl, rfl, rfl, gf_fneg _⟩

theorem hasSlots_anNeg (q : An) : HasSlots (Point.ofAn (anNeg q)) .an
    (gf q.ymx) (gf q.ypx) (-gf q.xy2d) 0 :=
  ⟨rfl, rfl, rfl, gf_fneg _, gf_feZero⟩

theorem needDig8_of_toInt {imm : Byte} {x : Int} (h : imm.toInt = x) (hlo : -8 ≤ x) (hhi : x ≤ 8)
    (k : Int → Result) : needDig8 imm k = k x := by
  subst h
  exact (needDig8_eq imm k).trans (if_pos ⟨hlo, hhi⟩)

theorem needSubTable_of_eq {t : Byte} {i : Fin 32} (h : t.toNat = i.val) (k : Fin 32 → Result) :
    needSubTable t k = k i := by
  have hlt : t.toNat < 32 := h ▸ i.isLt
  rw [needSubTable_eq, dif_pos hlt]
  exact congrArg k (Fin.ext h)

/-- LUT_SEL with a legal index leaves the selected entry (R301). -/
theorem runs_lutSel (d : Reg) {imm : Byte} (s : State) {x : Int} (P : Point → Prop) (h : imm.toInt = x)
    (hlo : -8 ≤ x) (hhi : x ≤ 8) (hq : P (Point.ofPn (pnSelect s.lut x))) :
    Runs (.lutSel d imm) s { p := [d] } fun t => P (t.getP d) :=
  runs_setP_getP P rfl (needDig8_of_toInt h hlo hhi _) hq

/-- BT_SEL with legal indices leaves the selected entry of its sub-table (R306). -/
theorem runs_btSel (d : Reg) {u imm : Byte} (s : State) {i : Fin 32} {x : Int} (P : Point → Prop)
    (hu : u.toNat = i.val) (h : imm.toInt = x) (hlo : -8 ≤ x) (hhi : x ≤ 8)
    (hq : P (Point.ofAn (anSelect (s.bt.get i) x))) :
    Runs (.btSel d u imm) s { p := [d] } fun t => P (t.getP d) :=
  runs_setP_getP P rfl ((needSubTable_of_eq hu _).trans (needDig8_of_toInt h hlo hhi _)) hq

/-- Settles O55: the scan takes place |x|, and a negative x negates what it took. -/
theorem selectsGiveTheSignedEntry : Obligations.SelectsGiveTheSignedEntry := by
  intro d imm u s
  have h0 := gf_feZero
  have h1 := gf_feOne
  refine ⟨fun hx => ?lutZero, fun j hx => ?lutPos, fun j hx => ?lutNeg, fun j hx => ?nlut,
    fun i hu => ⟨fun hx => ?btZero, fun j hx => ?btPos, fun j hx => ?btNeg⟩⟩
  case lutZero =>
    refine runs_lutSel (x := 0) d s (HasSlots · .pn 1 1 1 0) (by rw [hx]; rfl) (by decide) (by decide) ?_
    rw [pnSelect_zero]
    exact ⟨rfl, h1, h1, h1, h0⟩
  case lutPos =>
    exact runs_lutSel d s (· = _) hx (by omega) (by omega) (congrArg _ (pnSelect_pos _ rfl))
  case lutNeg =>
    refine runs_lutSel d s (HasSlots · .pn _ _ _ _) hx (by omega) (by omega) ?_
    rw [pnSelect_neg _ rfl]
    exact hasSlots_pnNeg _
  case nlut =>
    have hodd : imm.toNat ≤ 15 ∧ imm.toNat % 2 = 1 := by omega
    exact runs_setP_getP (· = _) rfl ((needOdd_eq _ _).trans (if_pos hodd))
      (congrArg _ (tableAt_eq_get _ (by omega)))
  case btZero =>
    refine runs_btSel (x := 0) d s (HasSlots · .an 1 1 0 0) hu (by rw [hx]; rfl) (by decide) (by decide) ?_
    rw [anSelect_zero]
    exact ⟨rfl, h1, h1, h0, h0⟩
  case btPos =>
    exact runs_btSel d s (· = _) hu hx (by omega) (by omega) (congrArg _ (anSelect_pos _ rfl))
  case btNeg =>
    refine runs_btSel d s (HasSlots · .an _ _ _ _) hu hx (by omega) (by omega) ?_
    rw [anSelect_neg _ rfl]
    exact hasSlots_anNeg _

/-! ## The table builds (R300, R302, R304, R307) -/

/-- The slots of an EXT content determine it. -/
theorem ext_of_hasSlots {a b : Ext} {X Y Z T : Gf} (ha : HasSlots (Point.ofExt a) .ext X Y Z T)
    (hb : HasSlots (Point.ofExt b) .ext X Y Z T) : a = b := by
  obtain ⟨-, hX, hY, hZ, hT⟩ := ha
  obtain ⟨-, hX', hY', hZ', hT'⟩ := hb
  exact ext_of_gf (hX.trans hX'.symm) (hY.trans hY'.symm) (hZ.trans hZ'.symm) (hT.trans hT'.symm)

theorem oddRom_get {Q : Nat → Ext} (h0 : Q 0 = basepoint)
    (hs : ∀ i, Q (i + 1) = edAdd (Q i) (edDbl basepoint)) (j : Fin 8) :
    oddRom.get j = extToAn (Q j.val) := by
  rw [← chainTable_get (next := fun q => edAdd q (edDbl basepoint)) hs j, h0]
  exact Vector.getElem_map extToAn j.isLt

/-- Sub-table i of bt_build is for 256^i times the point (R304). -/
theorem btRows_getElem {n i : Nat} (Q : Ext) (h : i < (btRows n Q).length) :
    (btRows n Q)[i] = buildAn ((fun q => edMulpow2 q 8)^[i] Q) := by
  induction n generalizing i Q with
  | zero => exact absurd h (Nat.not_lt_zero i)
  | succ n ih =>
    cases i with
    | zero => rfl
    | succ i => exact ih (edMulpow2 Q 8) (Nat.lt_of_succ_lt_succ h)

theorem buildBt_get (A : Ext) (i : Fin 32) :
    (buildBt A).get i = buildAn ((fun q => edMulpow2 q 8)^[i.val] A) :=
  btRows_getElem A ((btRows_length 32 A).symm ▸ i.isLt)

/-- Settles O54: every table is a chain, entry by entry. -/
theorem tableBuildsFollowTheirLoops : Obligations.TableBuildsFollowTheirLoops := by
  refine ⟨fun B Q hB h0 hs => ?rom, ?builds⟩
  case rom =>
    obtain rfl := ext_of_hasSlots hB hasSlots_basepoint
    exact oddRom_get h0 hs
  case builds =>
    rintro a s A rfl ha
    refine ⟨runs_of_finish rfl (needTag_of_eq ha _) (completes_lut s _) ⟨rfl, chainTable_get_succ _ _⟩,
      runs_of_finish rfl (needTag_of_eq ha _) (completes_nlut s _) ⟨rfl, chainTable_get_succ _ _⟩,
      runs_of_finish rfl (needTag_of_eq ha _) (completes_bt s _) ?_⟩
    rintro i Q rfl
    rw [commit_bt, buildBt_get]
    exact ⟨rfl, chainTable_get_succ _ _⟩

/-! ## The three loops by position (R310, R311, R312) -/

/-- The digits of radix16 from the top one down. -/
theorem radix16_reverse (n : Nat) : (radix16 n).reverse =
    (radix16 n).getD 63 0 :: (List.range 63).reverse.map fun i => (radix16 n).getD i 0 := by
  conv_lhs => rw [eq_map_getD (radix16_length n) 0, List.range_succ]
  rw [List.map_append, List.reverse_append, ← List.map_reverse]
  rfl

theorem edSmul_eq_foldl (A : Ext) (n : Nat) : edSmul A n =
    compToExt ((List.range 63).reverse.foldl
      (fun c i => smulDigit (buildLut A) c ((radix16 n).getD i 0))
      (extAddPn extIdentity (pnSelect (buildLut A) ((radix16 n).getD 63 0)))) := by
  rw [edSmul, radix16_reverse]
  exact congrArg compToExt List.foldl_map

theorem foldl_bmulDigit (T : Vector (Vector An 8) 32) {l : List Int} (h : l.length = 32) (q : Ext) :
    (T.toList.zip l).foldl bmulDigit q =
      (List.finRange 32).foldl
        (fun q j => compToExt (extAddAn q (anSelect (T.get j) (l.getD j.val 0)))) q := by
  rw [zip_eq_map_finRange T h, List.foldl_map]
  rfl

theorem edBmul_eq_foldl (T : Vector (Vector An 8) 32) (n : Nat) : edBmul T n =
    (List.finRange 32).foldl
      (fun q j => compToExt (extAddAn q (anSelect (T.get j) ((radix16 n).getD (2 * j.val) 0))))
      (edMulpow2 ((List.finRange 32).foldl
        (fun q j => compToExt (extAddAn q (anSelect (T.get j) ((radix16 n).getD (2 * j.val + 1) 0))))
        extIdentity) 4) := by
  have hodd : (oddDigits (radix16 n)).length = 32 := by rw [oddDigits_length, radix16_length]
  have heven : (evenDigits (radix16 n)).length = 32 := by rw [evenDigits_length, radix16_length]
  rw [edBmul, foldl_bmulDigit T hodd, foldl_bmulDigit T heven]
  simp only [oddDigits_getD, evenDigits_getD]

/-- The digit pairs of ED_VTDBL from the top position down. -/
theorem naf5_zip_reverse (a b : Nat) : ((naf5 a).zip (naf5 b)).reverse =
    (List.range 256).reverse.map fun i => ((naf5 a).getD i 0, (naf5 b).getD i 0) := by
  conv_lhs => rw [eq_map_getD (naf5_length a) 0, eq_map_getD (naf5_length b) 0]
  rw [List.zip_map', List.map_reverse]

theorem edVtdbl_eq_foldl (a : Nat) (A : Ext) (b : Nat) {top : Nat} (htop : top < 256)
    (h0 : ∀ i, top < i → (naf5 a).getD i 0 = 0 ∧ (naf5 b).getD i 0 = 0)
    (ht : top = 0 ∨ (naf5 a).getD top 0 ≠ 0 ∨ (naf5 b).getD top 0 ≠ 0) : edVtdbl a A b =
    projToExt ((List.range (top + 1)).reverse.foldl
      (fun r i => vtdblDigit (buildNlut A) r ((naf5 a).getD i 0, (naf5 b).getD i 0)) projIdentity) := by
  rw [edVtdbl, naf5_zip_reverse,
    skipLeadingZeros_eq _ htop (fun i hi => Prod.ext (h0 i hi).1 (h0 i hi).2) ht]
  exact congrArg projToExt List.foldl_map

/-- Settles O56: each helper is the fold of its digit step over the positions of its rule. -/
theorem scalarMultiplicationsFollowTheirLoops : Obligations.ScalarMultiplicationsFollowTheirLoops := by
  intro d a b c s
  refine ⟨fun ha => runs_setP_of_getP_eq rfl (needTag_of_eq ha _) ?smul,
    runs_setP_of_getP_eq rfl rfl ?bmul,
    fun hb => runs_setP_of_getP_eq rfl (needTag_of_eq hb _) ?vtdbl⟩
  case smul =>
    rintro t ht e tab he rfl
    obtain rfl := funext he
    rw [ht, edSmul_eq_foldl]
    rfl
  case bmul =>
    rintro t ht e he
    obtain rfl := funext he
    rw [ht, edBmul_eq_foldl]
  case vtdbl =>
    rintro t ht za zb ja jb top tab hza hzb hja hjb htop h0 htop0 rfl
    obtain rfl := funext hza
    obtain rfl := funext hzb
    rw [ht, edVtdbl_eq_foldl _ _ _ htop h0 htop0]
    simp only [vtdblDigit, projIdentity, tableAt_eq_get _ (hja _), tableAt_eq_get _ (hjb _)]

/-! ## ED_SMUL stays on the curve (R270, R310) -/

/-- An EXT content that represents some point of the curve. -/
def RepresentsPoint (q : Ext) : Prop := ∃ x y, Represents q x y

/-- The PN form of some point of the curve. -/
def PnOfPoint (q : Pn) : Prop := ∃ p, RepresentsPoint p ∧ q = extToPn p

theorem represents_extIdentity : Represents extIdentity 0 1 where
  curve := onCurve_identity
  zNonzero := fun h => absurd (gf_eq_zero.1 h) (by decide)
  hx := by simp [extIdentity]
  hy := by simp [extIdentity]
  ht := by simp [extIdentity]

theorem representsPoint_extIdentity : RepresentsPoint extIdentity := ⟨0, 1, represents_extIdentity⟩

theorem RepresentsPoint.edDbl {p : Ext} (h : RepresentsPoint p) : RepresentsPoint (edDbl p) := by
  obtain ⟨x, y, hp⟩ := h
  obtain ⟨x', y', hr, -, -⟩ := represents_edDbl hp
  exact ⟨x', y', hr⟩

/-- Adding the PN form of a point of the curve is ed_add of that point. -/
theorem RepresentsPoint.extAddPn {p : Ext} {q : Pn} (hp : RepresentsPoint p) (hq : PnOfPoint q) :
    RepresentsPoint (compToExt (extAddPn p q)) := by
  obtain ⟨x1, y1, h1⟩ := hp
  obtain ⟨q, ⟨x2, y2, h2⟩, rfl⟩ := hq
  obtain ⟨x, y, hr, -, -⟩ := represents_edAdd h1 h2
  exact ⟨x, y, hr⟩

theorem pnNeg_extToPn (e : Ext) : pnNeg (extToPn e) = extToPn (extNeg e) := by
  have hplus : fsub e.Y e.X = fadd e.Y (fneg e.X) :=
    gf_injective (by rw [gf_fsub, gf_fadd, gf_fneg, sub_eq_add_neg])
  have hminus : fadd e.Y e.X = fsub e.Y (fneg e.X) :=
    gf_injective (by rw [gf_fsub, gf_fadd, gf_fneg, sub_neg_eq_add])
  have ht2d : fneg (fmul e.T feD2) = fmul (fneg e.T) feD2 :=
    gf_injective (by rw [gf_fneg, gf_fmul, gf_fmul, gf_fneg, neg_mul])
  exact (Pn.mk.injEq ..).mpr ⟨hplus, hminus, rfl, ht2d⟩

theorem PnOfPoint.pnNeg {q : Pn} (h : PnOfPoint q) : PnOfPoint (pnNeg q) := by
  obtain ⟨p, ⟨x, y, hp⟩, rfl⟩ := h
  exact ⟨extNeg p, ⟨-x, y, represents_extNeg hp⟩, pnNeg_extToPn p⟩

theorem pnOfPoint_pnIdentity : PnOfPoint pnIdentity :=
  ⟨extIdentity, representsPoint_extIdentity, by decide +kernel⟩

theorem pnOfPoint_buildLut {A : Ext} (hA : RepresentsPoint A) (j : Fin 8) :
    PnOfPoint ((buildLut A).get j) := by
  induction j using Fin.induction with
  | zero => exact ⟨A, hA, rfl⟩
  | succ j ih =>
    rw [buildLut, chainTable_get_succ]
    exact ⟨_, hA.extAddPn ih, rfl⟩

/-- A select takes an entry, the identity, or the negation of one of them. -/
theorem pnOfPoint_pnSelect {tab : Vector Pn 8} (h : ∀ j, PnOfPoint (tab.get j)) (x : Int) :
    PnOfPoint (pnSelect tab x) := by
  have hscan : PnOfPoint (scanTable x.natAbs 1 tab.toList pnIdentity) := by
    rcases List.mem_cons.1 (scanTable_mem x.natAbs 1 tab.toList pnIdentity) with heq | hmem
    · rw [heq]
      exact pnOfPoint_pnIdentity
    · obtain ⟨j, hj, heq⟩ := List.getElem_of_mem hmem
      exact heq ▸ h ⟨j, tab.length_toList ▸ hj⟩
  rw [pnSelect]
  split
  · exact hscan.pnNeg
  · exact hscan

/-- One digit of ed_smul is four doublings and an addition of points (R310). -/
theorem RepresentsPoint.smulDigit {tab : Vector Pn 8} (h : ∀ j, PnOfPoint (tab.get j)) {c : Comp}
    (hc : RepresentsPoint (compToExt c)) (e : Int) :
    RepresentsPoint (compToExt (smulDigit tab c e)) :=
  hc.edDbl.edDbl.edDbl.edDbl.extAddPn (pnOfPoint_pnSelect h e)

theorem RepresentsPoint.edSmul {A : Ext} (hA : RepresentsPoint A) (n : Nat) :
    RepresentsPoint (edSmul A n) := by
  have htab := pnOfPoint_buildLut hA
  rw [edSmul_eq_foldl]
  exact List.foldlRecOn _ _ (motive := fun c => RepresentsPoint (compToExt c))
    (representsPoint_extIdentity.extAddPn (pnOfPoint_pnSelect htab _))
    fun _ hc _ _ => hc.smulDigit htab _

/-- Settles O57: the entry added for each digit is the PN form of a point of the curve, and doublings and additions
of points of the curve stay on it. -/
theorem scalarMultiplicationStaysOnTheCurve : Obligations.ScalarMultiplicationStaysOnTheCurve := by
  intro d a b s x y ha hrep
  exact runs_setP_getP (fun q => q.tag = .ext ∧ RepresentsPoint q.asExt) rfl (needTag_of_eq ha _)
    ⟨rfl, RepresentsPoint.edSmul ⟨x, y, hrep⟩ _⟩

end Sys2Proof.Machine
end

section
/-! The Ristretto255 commands (45_ristretto.md R340 to R344): the decoding, the encoding, the equality test and the
Elligator map. -/

namespace Sys2Proof.Machine

/-! ## RI_DECODE (R340) -/

/-- The point (x, y) that RI_DECODE finds for a string σ: the one with x and xy non-negative and y not 0. -/
structure RiElement (σ x y : Gf) : Prop extends RiPoint σ x y where
  xNonneg : ZMod.val x % 2 = 0
  tNonneg : ZMod.val (x * y) % 2 = 0
  yNonzero : y ≠ 0

theorem val_mul_eq_gf (X Y : Fe) : ZMod.val (gf X * gf Y) = (fmul X Y).val := by
  rw [← gf_fmul, zmodVal_gf]

/-- Where there is a point, the decoding finds it: y is unique, and x is told by its square and its sign. -/
theorem riDecompress_element {b : Nat} {σ x y : Gf} (hb : b < fieldP) (he : b % 2 = 0)
    (hσ : σ = ((b : Nat) : Gf)) (h : RiElement σ x y) :
    ∃ X Y : Fe, riDecompress b = .element ⟨X, Y, feOne, fmul X Y⟩ ∧ gf X = x ∧ gf Y = y := by
  obtain ⟨-, hno⟩ | ⟨X, Y, hpoint, hX, hdec⟩ := riDecompress_canonical hb he hσ
  · exact absurd ⟨x, y, h.toRiPoint⟩ hno
  · obtain ⟨hsq, hy⟩ := hpoint.unique h.toRiPoint
    have hx : gf X = x := gf_eq_of_sq_of_parity hsq (hX.trans h.xNonneg.symm)
    have ht : (fmul X Y).val % 2 = 0 := by rw [← val_mul_eq_gf, hx, hy, h.tNonneg]
    refine ⟨X, Y, hdec.trans (if_neg ?_), hx, hy⟩
    rintro (hodd | h0)
    · omega
    · exact h.yNonzero (hy ▸ h0)

/-- Where there is no such point, the decoding fails: what it would find is one. -/
theorem riDecompress_invalid {b : Nat} {σ : Gf} (hb : b < fieldP) (he : b % 2 = 0)
    (hσ : σ = ((b : Nat) : Gf)) (h : ¬ ∃ x y, RiElement σ x y) : riDecompress b = .invalid := by
  obtain ⟨hinv, -⟩ | ⟨X, Y, hpoint, hX, hdec⟩ := riDecompress_canonical hb he hσ
  · exact hinv
  · refine hdec.trans (if_pos (by_contra fun hok => h ⟨gf X, gf Y, hpoint, ?_, ?_, ?_⟩))
    · rwa [zmodVal_gf]
    · rw [val_mul_eq_gf]
      omega
    · exact fun h0 => hok (.inr h0)

/-- What RI_DECODE does with what it finds. -/
def RiDecoded.result (d : Reg) (s : State) : RiDecoded → Result
  | .noncanonicalOrNeg => .error .ristrettoNoncanonicalOrNeg
  | .invalid => .error .ristrettoInvalid
  | .element e => .ok (s.setP d (Point.ofExt e))

theorem exec_riDecode {h : HalfField} (hh : h.val ≤ 1) (d : Reg) (s : State) {o : RiDecoded}
    (ho : riDecompress (s.readHalf h) = o) :
    exec (.riDecode d h) s = finish (.riDecode d h) s (o.result d s) := by
  refine congrArg (finish _ s) ((needHalf_of_le hh _).trans ?_)
  cases o <;> rw [ho] <;> rfl

/-- Settles O58: the three answers of the decoding, by whether the string is canonical and a point exists. -/
theorem ristrettoDecodeFindsThePoint : Obligations.RistrettoDecodeFindsThePoint := by
  intro d h s σ hh hσ
  rw [← fieldP_eq]
  refine ⟨fun hbad => ?noncanonical, fun hlt heven =>
    ⟨fun x y hy hx hx0 ht0 hy0 => ?element, fun hno => ?invalid⟩⟩
  case noncanonical =>
    exact raises_of_finish (exec_riDecode hh d s (riDecompress_noncanonical hbad)) rfl
  case element =>
    have hpoint : RiPoint σ x y := ⟨hy, hx⟩
    obtain ⟨X, Y, hdec, rfl, rfl⟩ := riDecompress_element hlt heven hσ ⟨hpoint, hx0, ht0, hy0⟩
    exact runs_setP_getP (fun q => HasSlots q .ext _ _ _ _ ∧ _) (exec_riDecode hh d s hdec) rfl
      ⟨hasSlots_decoded X Y, hpoint.onCurve⟩
  case invalid =>
    have hnone : ¬ ∃ x y, RiElement σ x y := fun ⟨x, y, e⟩ =>
      hno ⟨x, y, e.hy, e.hx, e.xNonneg, e.tNonneg, e.yNonzero⟩
    exact raises_of_finish (exec_riDecode hh d s (riDecompress_invalid hlt heven hσ hnone)) rfl

/-! ## RI_ENCODE (R341) -/

/-- The value u1·u2² whose inverse root the encoding takes (R341). -/
def riRadicand (p : Ext) : Fe := fmul (fmul (fadd p.Z p.Y) (fsub p.Z p.Y)) (fsq (fmul p.X p.Y))

theorem gf_riRadicand (p : Ext) : gf (riRadicand p) =
    (gf p.Z + gf p.Y) * (gf p.Z - gf p.Y) * (gf p.X * gf p.Y) ^ 2 := by
  rw [riRadicand, gf_fmul, gf_fmul, gf_fadd, gf_fsub, gf_fsq, gf_fmul]

/-- A choice by the sign of z, as a value that both of its cases describe. -/
theorem exists_of_parity (z a b : Gf) : ∃ v : Gf, v = (if ZMod.val z % 2 = 1 then a else b) ∧
    (ZMod.val z % 2 = 1 → v = a) ∧ (ZMod.val z % 2 = 0 → v = b) :=
  ⟨_, rfl, fun h => if_pos h, fun h => if_neg (by omega)⟩

theorem exec_riEncode {h : HalfField} (hh : h.val ≤ 1) {a : Reg} {s : State}
    (ha : (s.getP a).tag = .ext) : exec (.riEncode a h) s =
      finish (.riEncode a h) s (.ok (s.writeHalf h (riCompress (s.getP a).asExt))) :=
  congrArg (finish _ s) ((needHalf_of_le hh _).trans (needTag_of_eq ha _))

theorem readHalf_commit_writeHalf_riCompress {s : State} (hm : Memory.wf s.mem = true) (h : HalfField)
    (p : Ext) : (commit (s.writeHalf h (riCompress p))).readHalf h = riCompress p :=
  readHalf_commit_writeHalf hm h ((riCompress_lt p).trans (by decide +kernel))

/-! ## RI_EQ (R342) and RI_FROMUNI (R344) -/

theorem riEq_iff (p q : Ext) : riEq p q = true ↔
    gf p.X * gf q.Y = gf p.Y * gf q.X ∨ gf p.X * gf q.X = gf p.Y * gf q.Y := by
  rw [riEq, Bool.or_eq_true, feq_iff, feq_iff, gf_fmul, gf_fmul, gf_fmul, gf_fmul]

/-- The two halves of BUF are the low and the high 32 bytes of the 64-byte input. -/
theorem riFromUniform_readBuf (s : State) : riFromUniform s.readBuf =
    edAdd (riMap (feFromBytes (s.readHalf 0))) (riMap (feFromBytes (s.readHalf 1))) := by
  have hlt := readHalf_lt s 0
  rw [riFromUniform, readBuf_eq_halves, Nat.add_mul_mod_self_left, Nat.mod_eq_of_lt hlt,
    Nat.add_mul_div_left _ _ (Nat.two_pow_pos 256), Nat.div_eq_of_lt hlt, Nat.zero_add]

/-- Settles O59: the stored value by the case table of the inverse root and the two sign choices, the equality by
its cross products, and the uniform map by its halves. -/
theorem ristrettoCommandsGiveTheirResults : Obligations.RistrettoCommandsGiveTheirResults := by
  intro d a b h s
  refine ⟨?encode, fun ha hb => runs_setK_iff rfl (needTag_needTag_of_eq ha hb _) (riEq_iff _ _),
    runs_setP_getP (· = _) rfl rfl (congrArg Point.ofExt (riFromUniform_readBuf s))⟩
  case encode =>
    rintro X Y Z T i u1 u2 hX hY hZ hT hi rfl rfl hh hm ha
    rw [← gf_feSqrtM1] at hi
    refine runs_writeHalf (exec_riEncode hh ha) ?_
    obtain ⟨heven, hzero, hsquare, hnonsquare⟩ := invsqrt_spec (riRadicand (s.getP a).asExt)
    rw [← zmodVal_gf] at heven
    rw [gf_riRadicand] at hzero hsquare hnonsquare
    -- Each intermediate value of R341 is named, so that `riCompress_cast` applies to the names.
    obtain ⟨I, hI⟩ : ∃ I, I = gf (invsqrt (riRadicand (s.getP a).asExt)).2 := ⟨_, rfl⟩
    obtain ⟨zInv, hz⟩ : ∃ zInv, zInv = I * ((Z + Y) * (Z - Y)) * (I * (X * Y) * T) := ⟨_, rfl⟩
    obtain ⟨X', hX', hX1, hX0⟩ := exists_of_parity (T * zInv) (gf feSqrtM1 * Y) X
    obtain ⟨Y', hY', hY1, hY0⟩ := exists_of_parity (T * zInv) (gf feSqrtM1 * X) Y
    obtain ⟨den, hden, hd1, hd0⟩ := exists_of_parity (T * zInv)
      (I * ((Z + Y) * (Z - Y)) * gf feInvsqrtAMinusD) (I * (X * Y))
    obtain ⟨Y'', hY'', hneg, hpos⟩ := exists_of_parity (X' * zInv) (-Y') Y'
    have hcast := riCompress_cast (s.getP a).asExt hX hY hZ hT hI hz hX' hY' hden hY''
    subst hX hY hZ hT hi hI
    rw [gf_feInvsqrtAMinusD] at hd1
    exact ⟨_, zInv, X', Y', den, Y'', riCompress (s.getP a).asExt, heven, hzero, hsquare, hnonsquare, hz,
      fun h1 => ⟨hX1 h1, hY1 h1, hd1 h1⟩, fun h0 => ⟨hX0 h0, hY0 h0, hd0 h0⟩, hneg, hpos,
      (readHalf_commit_writeHalf_riCompress hm h _).symm, fieldP_eq ▸ riCompress_lt _, riCompress_even _, hcast⟩

/-! ## RI_MAP (R343) -/

/-- The non-positive one of x and −x. -/
def negAbs (x : Fe) : Fe := fsel x (fneg x) (!isneg x)

theorem gf_negAbs_sq (x : Fe) : gf (negAbs x) ^ 2 = gf x ^ 2 := by
  rw [negAbs]
  cases isneg x with
  | false => exact (congrArg (· ^ 2) (gf_fneg x)).trans (neg_sq _)
  | true => rfl

theorem gf_negAbs_of_zero {x : Fe} (h : gf x = 0) : gf (negAbs x) = 0 := by
  rw [negAbs, gf_fsel, gf_fneg, h, neg_zero, ite_self]

/-- A non-positive value is 0 or odd (R176). -/
theorem negAbs_odd_or_zero (x : Fe) : (negAbs x).val % 2 = 1 ∨ gf (negAbs x) = 0 := by
  rw [negAbs]
  cases hneg : isneg x with
  | true => exact .inl (isneg_iff.1 hneg)
  | false =>
    have heven : x.val % 2 = 0 := by
      have := mt isneg_iff.2 (Bool.eq_false_iff.1 hneg)
      omega
    by_cases h0 : gf x = 0
    · exact .inr ((gf_fneg x).trans (neg_eq_zero.2 h0))
    · exact .inl ((fneg_parity h0).2 heven)

/-- The root of the map for the ratio u/v (R343), and whether that is a square. -/
def elligatorRoot (r0 u v : Fe) : Bool × Fe :=
  let q := sqrtRatioM1 u v
  (q.1, fsel q.2 (negAbs (fmul q.2 r0)) (!q.1))

theorem elligatorRoot_of_square {r0 u v : Fe} (h : (sqrtRatioM1 u v).1 = true) :
    elligatorRoot r0 u v = (true, (sqrtRatioM1 u v).2) := by
  rw [elligatorRoot, h]
  rfl

theorem elligatorRoot_of_not_square {r0 u v : Fe} (h : (sqrtRatioM1 u v).1 = false) :
    elligatorRoot r0 u v = (false, negAbs (fmul (sqrtRatioM1 u v).2 r0)) := by
  rw [elligatorRoot, h]
  rfl

/-- What R343 says of the root σ for the ratio u/v, where r = SQRT_M1·r0². -/
structure ElligatorRoot (sq : Bool) (σ : Fe) (r u v : Gf) : Prop where
  zero : v = 0 → sq = false ∧ gf σ = 0
  square_iff : v ≠ 0 → (sq = true ↔ ∃ x : Gf, v * x ^ 2 = u)
  square : sq = true → v * gf σ ^ 2 = u ∧ σ.val % 2 = 0
  nonsquare : sq = false → v ≠ 0 → v * gf σ ^ 2 = r * u ∧ (σ.val % 2 = 1 ∨ gf σ = 0)

/-- The root by the case table of R180: r0 times a root of SQRT_M1·u/v is a root of r·u/v. -/
theorem elligatorRoot_spec {r0 u v : Fe} (h : gf v = 0 → gf u ≠ 0) :
    ElligatorRoot (elligatorRoot r0 u v).1 (elligatorRoot r0 u v).2 (gf feSqrtM1 * gf r0 ^ 2) (gf u) (gf v) := by
  obtain ⟨heven, hzero, hne⟩ := sqrtRatio_spec u v
  cases hs : (sqrtRatioM1 u v).1 with
  | true =>
    have hv : gf v ≠ 0 := fun h0 => h h0 ((hzero h0).2.1 hs)
    obtain ⟨hiff, hroot, -⟩ := hne hv
    rw [elligatorRoot_of_square hs]
    exact
      { zero := fun h0 => absurd h0 hv
        square_iff := fun _ => hs ▸ hiff
        square := fun _ => ⟨hroot hs, heven⟩
        nonsquare := fun hf => nomatch hf }
  | false =>
    rw [elligatorRoot_of_not_square hs]
    refine
      { zero := fun h0 => ⟨rfl, ?_⟩
        square_iff := fun hv => hs ▸ (hne hv).1
        square := fun hf => nomatch hf
        nonsquare := fun _ hv => ⟨?_, negAbs_odd_or_zero _⟩ }
    · exact gf_negAbs_of_zero (by rw [gf_fmul, (hzero h0).1, zero_mul])
    · obtain ⟨-, -, hroot⟩ := hne hv
      rw [gf_negAbs_sq, gf_fmul]
      linear_combination gf r0 ^ 2 * hroot hs

/-- The numerator Ns of the map (R343). -/
def elligatorNs (r : Fe) : Fe := fmul (fadd r feOne) feOneMinusDSq

/-- The denominator Dn of the map (R343). -/
def elligatorDn (r : Fe) : Fe := fmul (fsub feMinusOne (fmul feD r)) (fadd r feD)

theorem gf_elligatorNs (r : Fe) : gf (elligatorNs r) = (gf r + 1) * (1 - dGf ^ 2) := by
  rw [elligatorNs, gf_fmul, gf_fadd, gf_feOne, gf_feOneMinusDSq]

theorem gf_elligatorDn (r : Fe) : gf (elligatorDn r) = (-1 - dGf * gf r) * (gf r + dGf) := by
  rw [elligatorDn, gf_fmul, gf_fsub, gf_fadd, gf_fmul, gf_feMinusOne, gf_feD]

/-- The completed point of the map, from r, c and the root (R343). -/
def elligatorComp (r c σ : Fe) : Comp :=
  ⟨fmul (fadd σ σ) (elligatorDn r), fsub feOne (fsq σ),
    fmul (fsub (fmul (fmul c (fsub r feOne)) feDMinusOneSq) (elligatorDn r)) feSqrtAdMinusOne,
    fadd feOne (fsq σ)⟩

theorem hasSlots_elligatorComp (r c σ : Fe) : HasSlots (Point.ofComp (elligatorComp r c σ)) .comp
    (2 * gf σ * gf (elligatorDn r)) (1 - gf σ ^ 2)
    ((gf c * (gf r - 1) * (dGf - 1) ^ 2 - gf (elligatorDn r)) * gf feSqrtAdMinusOne) (1 + gf σ ^ 2) := by
  simp only [HasSlots, Point.ofComp, elligatorComp, gf_fmul, gf_fadd, gf_fsub, gf_fsq, gf_feOne,
    gf_feDMinusOneSq, two_mul, and_self]

/-- The map is the EXT form of its completed point. -/
theorem riMap_eq_compToExt {r0 r : Fe} (hr : r = fmul feSqrtM1 (fsq r0)) {sq : Bool} {σ : Fe}
    (hq : elligatorRoot r0 (elligatorNs r) (elligatorDn r) = (sq, σ)) :
    riMap r0 = compToExt (elligatorComp r (fsel feMinusOne r (!sq)) σ) := by
  subst hr
  obtain ⟨rfl, rfl⟩ := Prod.mk.inj hq
  rfl

/-- Settles O60: the root meets its case table because Ns and Dn are never both 0, and the slots are those of
the completed point. -/
theorem ristrettoMapGivesTheElligatorPoint : Obligations.RistrettoMapGivesTheElligatorPoint := by
  rintro d a s i r Ns Dn rfl rfl rfl rfl
  refine runs_setP_of_getP_eq rfl rfl fun t ht => ?_
  rw [ht, ← gf_feSqrtM1, ← gf_feSqrtAdMinusOne]
  obtain ⟨ρ, hρ⟩ : ∃ ρ, ρ = fmul feSqrtM1 (fsq (s.getF a)) := ⟨_, rfl⟩
  have hr : gf feSqrtM1 * gf (s.getF a) ^ 2 = gf ρ := by rw [hρ, gf_fmul, gf_fsq]
  obtain ⟨⟨sq, σ⟩, hq⟩ : ∃ q, elligatorRoot (s.getF a) (elligatorNs ρ) (elligatorDn ρ) = q := ⟨_, rfl⟩
  have hroot := elligatorRoot_spec (r0 := s.getF a) (u := elligatorNs ρ) (v := elligatorDn ρ) fun h0 => by
    rw [gf_elligatorNs]
    exact elligator_numerator_ne_zero (gf_elligatorDn ρ ▸ h0)
  rw [hq, hr] at hroot
  rw [hr, ← gf_elligatorNs, ← gf_elligatorDn, riMap_eq_compToExt hρ hq]
  refine ⟨sq, σ, gf (fsel feMinusOne ρ (!sq)), _, _, _, _, hroot.zero, hroot.square_iff, fun hs => ?square,
    fun hf => ?nonsquare, rfl, rfl, rfl, rfl, (hasSlots_elligatorComp ρ _ σ).compToExt⟩
  case square =>
    obtain ⟨hval, heven⟩ := hroot.square hs
    exact ⟨hval, heven, by rw [hs]; exact gf_feMinusOne⟩
  case nonsquare => exact ⟨by rw [hf]; rfl, hroot.nonsquare hf⟩

end Sys2Proof.Machine
end

section
/-! The checks of a command and the error state (60_exceptions.md R374 to R381). -/

namespace Sys2Proof.Machine

/-! ## The failure a result reports -/

/-- Result `r` of a command executed in `s` reports `f`: a state to commit reports no failure, a cause its record.
CMDCNT, which only the commit counts, tells the two apart in the state after. -/
inductive Reports (s : State) : Result → Option ErrCode → Prop where
  | ok {u : State} (cmdCnt : u.cmdCnt = s.cmdCnt) : Reports s (.ok u) none
  | error (e : ErrorCause) : Reports s (.error e) (some (errorKind e, errorCode e))

/-- The columns of R375 that come after TAG, in the order of R374. -/
def afterTag (s : State) (i : Instr) : Option ErrCode :=
  match indexFails i with
  | some e => some e
  | none => dataFails s i

/-- The columns of R375 that come after FIELD. -/
def afterField (s : State) (i : Instr) : Option ErrCode :=
  if tagFails s i then some errTag else afterTag s i

theorem firstFailure_eq_ite (s : State) (i : Instr) :
    firstFailure s i = if fieldFails i then some errField else afterField s i := rfl

/-! ## Each check against its column -/

section
variable {s : State} {i : Instr} {r : Result} {f : Option ErrCode}

/-- A check goes on to the ones after it exactly where its column does not fail. -/
theorem reports_require {c b : Bool} {e : ErrorCause} (hc : c = !b) (hr : Reports s r f) :
    Reports s (require c e r) (if b then some (errorKind e, errorCode e) else f) := by
  subst hc
  cases b with
  | false => exact hr
  | true => exact .error e

theorem reports_of_no_field (hf : fieldFails i = false) (hr : Reports s r (afterField s i)) :
    Reports s r (firstFailure s i) := by
  rwa [firstFailure_eq_ite, hf]

theorem reports_of_no_tag (ht : tagFails s i = false) (hr : Reports s r (afterTag s i)) :
    Reports s r (afterField s i) := by
  rwa [afterField, ht]

theorem reports_of_data_only (ht : tagFails s i = false) (hi : indexFails i = none)
    (hr : Reports s r (dataFails s i)) : Reports s r (afterField s i) :=
  reports_of_no_tag ht (by rwa [afterTag, hi])

theorem decide_le_eq_not_lt (m n : Nat) : decide (m ≤ n) = !decide (n < m) := by
  rw [← decide_not, decide_eq_decide, not_lt]

theorem reports_needHalf {h : HalfField} (hf : fieldFails i = decide (1 < h.val))
    (hr : Reports s r (afterField s i)) : Reports s (needHalf h r) (firstFailure s i) := by
  rw [firstFailure_eq_ite, hf]
  exact reports_require (decide_le_eq_not_lt _ _) hr

theorem reports_needAtMost {imm : Byte} {n : Nat} (hf : fieldFails i = decide (n < imm.toNat))
    (hr : Reports s r (afterField s i)) : Reports s (needAtMost imm n r) (firstFailure s i) := by
  rw [firstFailure_eq_ite, hf]
  exact reports_require (decide_le_eq_not_lt _ _) hr

theorem reports_needTag {q : Point} {t : Tag} (ht : tagFails s i = decide (q.tag ≠ t))
    (hr : Reports s r (afterTag s i)) : Reports s (needTag q t r) (afterField s i) := by
  rw [afterField, ht, decide_not]
  exact reports_require (Bool.not_not _).symm hr

/-- The two tag checks of a command with two point sources are one column. -/
theorem reports_needTag_needTag {p q : Point} {t u : Tag}
    (ht : tagFails s i = (decide (p.tag ≠ t) || decide (q.tag ≠ u)))
    (hr : Reports s r (afterTag s i)) : Reports s (needTag p t (needTag q u r)) (afterField s i) := by
  by_cases hp : p.tag = t
  · rw [needTag_of_eq hp]
    exact reports_needTag (by rw [ht, decide_eq_false (not_not.2 hp), Bool.false_or]) hr
  · rw [needTag_eq, if_neg hp, afterField, ht, decide_eq_true hp, Bool.true_or]
    exact .error .tag

/-- The checks of the INDEX / EXPONENT column. -/
theorem reports_index {b : Bool} {c : Prop} [Decidable c] {e : ErrorCause}
    (hi : indexFails i = if c then some (errorKind e, errorCode e) else none)
    (hb : b = true ↔ ¬ c) (hr : Reports s r (dataFails s i)) :
    Reports s (require b e r) (afterTag s i) := by
  rw [afterTag, hi]
  by_cases hc : c
  · rw [if_pos hc, Bool.eq_false_iff.2 (mt hb.1 (not_not.2 hc))]
    exact .error e
  · rw [if_neg hc, hb.2 hc]
    exact hr

end

theorem dig8_check_iff (imm : Byte) :
    (decide (-8 ≤ sint8 imm) && decide (sint8 imm ≤ 8)) = true ↔
      ¬ (imm.toInt < -8 ∨ 8 < imm.toInt) := dig8Legal_iff imm

theorem odd_check_iff (imm : Byte) :
    (decide (imm.toNat ≤ 15) && decide (imm.toNat % 2 = 1)) = true ↔
      ¬ (15 < imm.toNat ∨ imm.toNat % 2 = 0) := by
  rw [Bool.and_eq_true, decide_eq_true_iff, decide_eq_true_iff]
  omega

theorem exponent_check_iff (imm : Byte) : decide (imm.toNat ≠ 0) = true ↔ ¬ imm = 0 := by
  rw [decide_eq_true_iff]
  exact not_congr (BitVec.toNat_inj (y := 0))

/-- BT_SEL's two index checks are one column (R105, R306). -/
theorem reports_btSel (s : State) (d : Reg) (t imm : Byte) {k : Fin 32 → Int → State}
    (hk : ∀ j x, (k j x).cmdCnt = s.cmdCnt) :
    Reports s (needSubTable t fun j => needDig8 imm fun x => .ok (k j x))
      (afterTag s (.btSel d t imm)) := by
  rw [needSubTable_eq]
  split
  next ht =>
    refine reports_index (e := .index) rfl ?_ (.ok (hk _ _))
    rw [dig8_check_iff]
    omega
  next ht =>
    rw [afterTag, indexFails, if_pos (.inl (by omega))]
    exact .error .index

/-- SC_LOAD's two data checks, on an integer of 256 bits (R211). -/
theorem reports_scLoad {s u : State} {n : Nat} (hn : n < 2 ^ 256) (hu : u.cmdCnt = s.cmdCnt) :
    Reports s
      (require (!n.testBit 255) .scalarHighBit
        (require (decide (n < groupL)) .scalarNoncanonical (.ok u)))
      (scLoadFails n) := by
  have hL := groupL_lt_two_pow
  rw [scLoad_checks hn, scLoadFails, scalarBound]
  by_cases hlt : n < groupL
  · rw [if_pos hlt, if_neg (by omega), if_neg (by omega)]
    exact .ok hu
  · by_cases hbit : n < 2 ^ 255
    · rw [if_neg hlt, if_pos hbit, if_neg (by omega), if_pos (by omega)]
      exact .error .scalarNoncanonical
    · rw [if_neg hlt, if_neg hbit, if_pos (by omega)]
      exact .error .scalarHighBit

/-- ED_DECODE's data check by the outcome of the decompression (R264), by way of the equation of functions: asked to
compare the two sides at one `n`, the kernel would run the decompression on it. -/
theorem edDecodeFails_eq_elim (n : Nat) :
    edDecodeFails n = (edDecompress n).elim (some errEdwardsNotSquare) fun _ => none := by
  have heq : edDecodeFails = fun n => (edDecompress n).elim (some errEdwardsNotSquare) fun _ => none := by
    delta edDecodeFails
    funext n
    cases edDecompress n <;> rfl
  exact congrFun heq n

/-! ## Every command -/

/-- A command is the end of a result that reports its first failure. -/
def ExecReports (i : Instr) (s : State) : Prop :=
  ∃ r, exec i s = finish i s r ∧ Reports s r (firstFailure s i)

theorem execReports_edDecode (d : Reg) (h : HalfField) (s : State) : ExecReports (.edDecode d h) s := by
  refine ⟨_, rfl, reports_needHalf rfl (reports_of_data_only rfl rfl ?_)⟩
  rw [dataFails, edDecodeFails_eq_elim]
  cases edDecompress (s.readHalf h) with
  | some e => exact .ok rfl
  | none => exact .error .edwardsNotSquare

theorem execReports_riDecode (d : Reg) (h : HalfField) (s : State) : ExecReports (.riDecode d h) s := by
  refine ⟨_, rfl, reports_needHalf rfl (reports_of_data_only rfl rfl ?_)⟩
  rw [dataFails, riDecodeFails]
  cases riDecompress (s.readHalf h) with
  | noncanonicalOrNeg => exact .error .ristrettoNoncanonicalOrNeg
  | invalid => exact .error .ristrettoInvalid
  | element e => exact .ok rfl

/-- Every command is the end of a result that reports the first check that fails. The cases are grouped by the
checks that stand before the result. -/
theorem execReports (i : Instr) (s : State) : ExecReports i s := by
  cases i with
  | nop | kNot | kAnd | kOr | kXor | bufEq | feMov | feAdd | feSub | feNeg | feMul | feSq | feSq2
  | feInv | fePowp58 | feSel | feIsneg | feIszero | feEq | feCtabs | feSqrtratio | scLoadwide
  | scMov | scAdd | scSub | scMul | scMuladd | scReduce | scMontmul | scEq
  | ptMov | edBmul | riMap | riFromuni =>
    refine ⟨_, rfl, .ok ?_⟩
    rfl
  | scRadix16 | scNaf5 => exact ⟨_, rfl, .ok (writeDig_cmdCnt s _)⟩
  | kSet | feConst | scConst | ptConst | ptGet | ptSet | ptSettag =>
    exact ⟨_, rfl, reports_needAtMost rfl (.ok rfl)⟩
  | bufBit | feLoad | scLoadbits =>
    exact ⟨_, rfl, reports_needHalf rfl (.ok rfl)⟩
  | feStore | scStore =>
    exact ⟨_, rfl, reports_needHalf rfl (.ok (writeHalf_cmdCnt s _ _))⟩
  | extToProj | extToPn | extToAn | projToExt | compToProj | compToExt | pnToExt | anToExt
  | projDbl | edDbl | edIsident | edIssmall | edIstf | lutBuild | nlutBuild | btBuild | edSmul
  | edVtdbl =>
    exact ⟨_, rfl, reports_of_no_field rfl (reports_needTag rfl (.ok rfl))⟩
  | extAddPn | extSubPn | extAddAn | extSubAn | edAdd | edSub | edEq | riEq =>
    exact ⟨_, rfl, reports_of_no_field rfl (reports_needTag_needTag rfl (.ok rfl))⟩
  | edEncode | riEncode =>
    exact ⟨_, rfl, reports_needHalf rfl (reports_needTag rfl (.ok (writeHalf_cmdCnt s _ _)))⟩
  | ptSel d a b c =>
    exact ⟨_, rfl, reports_of_no_field rfl
      (reports_needTag (decide_eq_decide.2 ne_comm) (.ok rfl))⟩
  | ptNeg d a =>
    refine ⟨_, rfl, ?_⟩
    rw [firstFailure, tagFails]
    cases (s.getP a).tag with
    | ext | pn | an => exact .ok rfl
    | proj | comp => exact .error .tag
  | edMulpow2 d a imm =>
    exact ⟨_, rfl, reports_of_no_field rfl (reports_needTag rfl
      (reports_index (e := .exponent) rfl (exponent_check_iff imm) (.ok rfl)))⟩
  | lutSel d imm =>
    exact ⟨_, rfl, reports_of_no_field rfl (reports_of_no_tag rfl
      (reports_index (e := .index) rfl (dig8_check_iff imm) (.ok rfl)))⟩
  | nlutSel d imm =>
    exact ⟨_, rfl, reports_of_no_field rfl (reports_of_no_tag rfl
      (reports_index (e := .index) rfl (odd_check_iff imm) (.ok rfl)))⟩
  | btSel d t imm =>
    exact ⟨_, rfl, reports_of_no_field rfl (reports_of_no_tag rfl
      (reports_btSel s d t imm fun _ _ => rfl))⟩
  | scLoad d h =>
    refine ⟨_, rfl, reports_needHalf rfl (reports_of_data_only rfl rfl ?_)⟩
    exact reports_scLoad (readHalf_lt s h) rfl
  | edDecode d h => exact execReports_edDecode d h s
  | riDecode d h => exact execReports_riDecode d h s

/-- A commit that has kept CMDCNT until then is a completion: on the error path CMDCNT would not have counted. -/
theorem completes_of_commit {i : Instr} {s u : State} (h : exec i s = .next (commit u))
    (hu : u.cmdCnt = s.cmdCnt) : Completes (writesOf i) s (commit u) := by
  rcases exec_cases h with hc | ⟨e, he⟩
  · exact hc
  · have hcnt : s.cmdCnt + 1 = s.cmdCnt := hu ▸ congrArg State.cmdCnt he
    exact absurd hcnt (by simp)

/-- Settles O9: the command's result reports its first failure, and a result without one is committed. -/
theorem commandCompletesExactlyWhenItsChecksPass :
    Obligations.CommandCompletesExactlyWhenItsChecksPass := by
  intro i s
  obtain ⟨r, he, hr⟩ := execReports i s
  refine ⟨fun hnone => ?_, fun e hsome => ?_⟩
  · rw [hnone] at hr
    obtain ⟨hu⟩ := hr
    exact ⟨_, he, completes_of_commit he hu⟩
  · rw [hsome] at hr
    cases hr
    exact raises_of_finish he rfl

/-! ## The error state (R379, R381) -/

/-- A host write in the error state, short of ERRCLR and a reset, is a discarded command or at most a store into
BUF. -/
theorem hostWrite_of_err {o : Offset} {v : Word} {s : State} (he : s.err = true)
    (hp : s.phase = .idle) (hctrl : o = 0x008 → v.getLsbD 0 = false ∧ v.getLsbD 1 = false) :
    (o = 0x000 ∧ hostWrite o v s = { s with cmd := v, disc := true }) ∨
    (o ≠ 0x000 ∧ ∃ m, hostWrite o v s = { s with mem := m } ∧
      ∀ a, 0x200 ≤ a → memRead m a = memRead s.mem a) := by
  have hb : busy s = false := busy_of_idle hp
  by_cases h0 : o = 0x000
  · exact .inl ⟨h0, by rw [h0, hostWrite_cmd, writeCmd_discarded v hb he]⟩
  refine .inr ⟨h0, ?_⟩
  by_cases h8 : o = 0x008
  · obtain ⟨hsrst, herrclr⟩ := hctrl h8
    exact ⟨s.mem, by rw [h8, hostWrite_ctrl, writeCtrl_none s hsrst herrclr], fun _ _ => rfl⟩
  by_cases hbuf : o.toNat % 4 = 0 ∧ 0x100 ≤ o.toNat ∧ o.toNat < 0x140
  · obtain ⟨ha, hlo, hhi⟩ := hbuf
    exact ⟨_, (hostWrite_buf v s ha hlo hhi).trans (writeBufWord_idle o.toNat v hb),
      fun a h => memRead_writeLE_out _ _ _ _ _ (.inr (by omega))⟩
  · refine ⟨s.mem, ?_, fun _ _ => rfl⟩
    by_cases ha : o.toNat % 4 = 0
    · exact hostWrite_ignored v s h0 h8 (by omega)
    · exact hostWrite_misaligned v s ha

/-- In the error state a step, short of ERRCLR and a reset, changes at most CMD, DISC, BUF and the answer of the last
read. -/
theorem step_of_err {s : State} {e : HostEvent} {rest : List HostEvent} (he : s.err = true)
    (hp : s.phase = .idle) (hpend : s.pending = e :: rest) (hpin : e ≠ .resetPin)
    (hctrl : ∀ v, e = .write 0x008 v → v.getLsbD 0 = false ∧ v.getLsbD 1 = false) :
    ∃ c b m x n,
      step s = .next
        { s with pending := rest, cmd := c, disc := b, mem := m, rdata := x, draws := n } ∧
      (∀ a, 0x200 ≤ a → memRead m a = memRead s.mem a) ∧
      ∀ w, e = .write 0x000 w → c = w ∧ b = true := by
  cases e with
  | resetPin => exact absurd rfl hpin
  | coreStep =>
    exact ⟨_, _, _, _, _, (step_cons hpend).trans (coreStep_idle (s := { s with pending := rest }) hp),
      fun _ _ => rfl, fun _ h => nomatch h⟩
  | read o => exact ⟨_, _, _, _, _, step_read hpend, fun _ _ => rfl, fun _ h => nomatch h⟩
  | write o v =>
    rw [step_write hpend]
    rcases hostWrite_of_err (s := { s with pending := rest }) he hp (fun h => hctrl v (h ▸ rfl)) with
      ⟨-, h⟩ | ⟨h0, m, h, hdig⟩ <;> rw [h]
    · exact ⟨_, _, _, _, _, rfl, fun _ _ => rfl, fun w hw => ⟨(HostEvent.write.inj hw).2, rfl⟩⟩
    · exact ⟨_, _, _, _, _, rfl, hdig, fun w hw => absurd (HostEvent.write.inj hw).1 h0⟩

/-- Settles O20: none of what a step may change is in the record, the registers, the tables or DIG. -/
theorem errorStateIsSticky : Obligations.ErrorStateIsSticky := by
  intro s e rest he hp hpend hpin hctrl
  obtain ⟨c, b, m, x, n, hstep, hdig, hcmd⟩ := step_of_err he hp hpend hpin hctrl
  exact ⟨_, hstep, rfl, hp, he, rfl, rfl, rfl, rfl, rfl, rfl, rfl, rfl, rfl, rfl, rfl, rfl, hdig, hcmd⟩

end Sys2Proof.Machine
end

section
/-! Reset, the sequencer's turn, and a completion beside a host write (70_reset_and_hazards.md R410 to R424). -/

namespace Sys2Proof.Machine

/-! ## Reset (R410, R411) -/

theorem resetCore_reset : resetCore State.reset = State.reset := rfl

theorem atReset_reset : AtReset State.reset := resetCore_reset ▸ atReset_resetCore State.reset

theorem inv_reset : State.reset.Inv := resetCore_reset ▸ inv_resetCore State.reset

theorem step_resetPin {s : State} {rest : List HostEvent} (h : s.pending = .resetPin :: rest) :
    step s = .next (resetCore { s with pending := rest }) := step_cons h

/-- Settles O10: the reset state is what a reset makes of itself. -/
theorem invariantHoldsAtReset : Obligations.InvariantHoldsAtReset := inv_reset

/-- Settles O12: both sources run `resetCore`, which keeps the events still to come. -/
theorem everyResetGivesTheResetState : Obligations.EveryResetGivesTheResetState := by
  refine ⟨atReset_reset, fun s rest => ⟨fun hpin => ?_, fun v hsrst hwrite => ?_⟩⟩
  · exact ⟨_, step_resetPin hpin, atReset_resetCore _, rfl⟩
  · exact (ctrlWriteResetsOrClearsTheRecord s v rest hwrite).1 hsrst

/-! ## The end of INIT (R412) -/

theorem busy_of_init {s : State} (h : s.phase = .init) : busy s = true := by rw [busy, h]

theorem coreStepGives_of_coreStep {s : State} {f : State → State}
    (h : ∀ l, coreStep { s with pending := l } = .next (f { s with pending := l })) :
    CoreStepGives s f :=
  ⟨fun hp => (step_nil hp).trans (h s.pending), fun rest hp => (step_cons hp).trans (h rest)⟩

/-- Settles O13: the sequencer's step is `endInit`, and INIT is BUSY to both writes. -/
theorem initialisationBuildsTheBasepointTable : Obligations.InitialisationBuildsTheBasepointTable := by
  intro s hinit
  have hb : busy s = true := busy_of_init hinit
  refine ⟨?_, fun v rest hp => ?_, fun o v rest hp ha lo hi => ?_⟩
  · exact coreStepGives_of_coreStep fun l => coreStep_init (s := { s with pending := l }) hinit
  · exact (cmdWriteDoesOneOfThreeThings.2 s v rest hp).1 hb
  · exact (bufWriteStoresFourBytes s o v rest hp ha lo hi).1 hb

/-! ## The sequencer's turn ends in IDLE (R54, R414) -/

theorem step_of_coreTurn {s : State} (h : CoreTurn s) :
    ∃ rest, step s = coreStep { s with pending := rest } := by
  rcases h with hp | ⟨rest, hp⟩
  · exact ⟨s.pending, step_nil hp⟩
  · exact ⟨rest, step_cons hp⟩

theorem coreStep_phase {s t : State} (h : coreStep s = .next t) : t.phase = .idle := by
  rcases coreStep_cases h with ⟨-, rfl⟩ | ⟨hidle, rfl⟩ | ⟨w, i, u, -, -, rfl, -⟩ | ⟨w, v, e, -, rfl⟩
  · exact endInit_phase s
  · exact hidle
  · exact commit_phase u
  · exact raiseError_phase s v e

/-- Settles O21: every event has a next state, and the sequencer's own step falls idle. -/
theorem everyStepGoesOnAndExecEnds : Obligations.EveryStepGoesOnAndExecEnds := by
  refine ⟨step_next, fun s hturn => ?_⟩
  obtain ⟨rest, hstep⟩ := step_of_coreTurn hturn
  obtain ⟨t, ht⟩ := coreStep_next { s with pending := rest }
  exact ⟨t, hstep.trans ht, coreStep_phase ht⟩

/-! ## A completion and a CMD write (R42, R424) -/

/-- What the end of command `i`, executed in `s`, does to the host's side of the machine, whether it completes or
raises an error. -/
structure CommandEnds (i : Instr) (s t : State) : Prop where
  phase : t.phase = .idle
  cmd : t.cmd = s.cmd
  ovf : t.ovf = s.ovf
  pending : t.pending = s.pending
  completed : firstFailure s i = none → t.err = s.err ∧ t.cmdCnt = s.cmdCnt + 1
  raised : firstFailure s i ≠ none → t.err = true ∧ t.cmdCnt = s.cmdCnt

theorem exec_ends (i : Instr) (s : State) : ∃ t, exec i s = .next t ∧ CommandEnds i s t := by
  obtain ⟨hnone, hsome⟩ := commandCompletesExactlyWhenItsChecksPass i s
  cases hf : firstFailure s i with
  | none =>
    obtain ⟨t, ht, hc⟩ := hnone hf
    exact ⟨t, ht, hc.phase, hc.frame.cmd, hc.frame.ovf, hc.frame.pending,
      fun _ => ⟨hc.frame.err, hc.cmdCnt⟩, fun hn => absurd hf hn⟩
  | some e =>
    exact ⟨_, hsome e hf, rfl, rfl, rfl, rfl, fun hn => (nomatch hf.symm.trans hn),
      fun _ => ⟨rfl, rfl⟩⟩

/-- Where the completion of the executing command is the next event, the step is the end of that command. -/
theorem step_ends {s : State} {w : Word} {i : Instr} {rest : List HostEvent} (hp : s.phase = .exec w)
    (hd : decode w = .ok i) (hpend : s.pending = .coreStep :: rest) :
    ∃ t, step s = .next t ∧ CommandEnds i { s with pending := rest } t := by
  obtain ⟨t, ht, hends⟩ := exec_ends i { s with pending := rest }
  exact ⟨t, ((stepExecutesTheDecodedCommand.1 s w i hp hd).2 rest hpend).trans ht, hends⟩

/-- The checks of a command read neither the events still to come nor OVF. -/
theorem firstFailure_pending_ovf (s : State) (i : Instr) (l : List HostEvent) (b : Bool) :
    firstFailure { s with pending := l, ovf := b } i = firstFailure s i := rfl

/-- Write, then completion: the write finds BUSY, so it only sets OVF, and the command ends as it would have. -/
theorem write_then_completion {s : State} {w : Word} {i : Instr} (v : Word) (rest : List HostEvent)
    (hp : s.phase = .exec w) (hd : decode w = .ok i) :
    ∃ t u, step { s with pending := .write 0x000 v :: .coreStep :: rest } = .next t ∧
      step t = .next u ∧ CommandEnds i { s with pending := rest, ovf := true } u := by
  have hb : busy s = true := busy_of_exec hp
  obtain ⟨u, hu, hends⟩ :=
    step_ends (s := { s with pending := .coreStep :: rest, ovf := true }) hp hd rfl
  exact ⟨_, u, (cmdWriteDoesOneOfThreeThings.2 _ v _ rfl).1 hb, hu, hends⟩

/-- Completion, then write: the write finds IDLE and the error record the completion has left. -/
theorem completion_then_write {s : State} {w : Word} {i : Instr} (v : Word) (rest : List HostEvent)
    (hp : s.phase = .exec w) (hd : decode w = .ok i) :
    ∃ t, step { s with pending := .coreStep :: .write 0x000 v :: rest } = .next t ∧
      CommandEnds i { s with pending := .write 0x000 v :: rest } t ∧
      (t.err = true → step t = .next { t with pending := rest, cmd := v, disc := true }) ∧
      (t.err = false → step t = .next { t with pending := rest, cmd := v, phase := .exec v }) := by
  obtain ⟨t, ht, hends⟩ :=
    step_ends (s := { s with pending := .coreStep :: .write 0x000 v :: rest }) hp hd rfl
  obtain ⟨-, hdiscard, haccept, -⟩ := cmdWriteDoesOneOfThreeThings.2 t v rest hends.pending
  have hb : busy t = false := busy_of_idle hends.phase
  exact ⟨t, ht, hends, hdiscard hb, haccept hb⟩

/-- Settles O22: the two orders, by whether the command completes or raises an error. -/
theorem writeAndCompletionComeInEitherOrder : Obligations.WriteAndCompletionComeInEitherOrder := by
  intro s w v i rest hp hd herr
  constructor
  · obtain ⟨t, u, ht, hu, hends⟩ := write_then_completion v rest hp hd
    obtain ⟨hphase, hcmd, hovf, -, hcompleted, hraised⟩ := hends
    rw [firstFailure_pending_ovf] at hcompleted hraised
    exact ⟨t, u, ht, hu, hovf, hcmd, hphase, fun hn => (hcompleted hn).imp_left (·.trans herr), hraised⟩
  · obtain ⟨t, ht, hends, hdiscard, haccept⟩ := completion_then_write v rest hp hd
    obtain ⟨hphase, -, hovf, -, hcompleted, hraised⟩ := hends
    rw [firstFailure_pending_ovf (b := s.ovf)] at hcompleted hraised
    by_cases hf : firstFailure s i = none
    · obtain ⟨he, hcnt⟩ := hcompleted hf
      exact ⟨t, _, ht, haccept (he.trans herr), hovf, rfl, fun _ => ⟨rfl, hcnt⟩, fun hn => absurd hf hn⟩
    · obtain ⟨he, hcnt⟩ := hraised hf
      exact ⟨t, _, ht, hdiscard he, hovf, rfl, fun hn => absurd hn hf, fun _ => ⟨hphase, rfl, hcnt⟩⟩

end Sys2Proof.Machine
end
